-- ==== Sys2Proof/Word.lean ====
section
/-! DEFINITION. The word types of FFTBP and a loop over indices.

Every register, address and sample is one 32-bit word (00_scope.md R8); data memory is an array of bytes
(20_memory.md R47). -/

namespace Sys2Proof

/-- A byte of data memory (20_memory.md R47). -/
abbrev Byte := BitVec 8

/-- A 32-bit word: a register, a byte address, or a binary32 datum (00_scope.md R8). -/
abbrev Word := BitVec 32

/-- `for i in 0..<n: x <- f i x`, in rising order of `i`; no iteration when `n = 0` (00_scope.md R10). -/
def forUpTo {α : Type} : Nat → (Nat → α → α) → α → α
  | 0, _, x => x
  | n + 1, f, x => f n (forUpTo n f x)

/-- A run of bytes of data memory: its first byte address and its length in bytes (20_memory.md R49). -/
structure Region where
  base : Nat
  size : Nat
  deriving DecidableEq, Repr

end Sys2Proof
end

