-- ==== Sys2Proof/Config.lean ====
section
/-! DEFINITION. What an implementation or a platform fixes (00_scope.md R6, R7), and the one free value.

The parameters are plain data that State carries and no step changes, so that a statement about every state holds
for every synthesis and every platform (log entry 3). -/

namespace Sys2Proof

/-- The parameters of 00_scope.md R6 and R7. MEM0 is not here: it is the memory a state starts with. -/
structure Params where
  /-- LOG2_NMAX, 1 to 29 (R6). -/
  log2NMax : Nat
  /-- BASE, the byte address of the register block (R7). -/
  base : Nat
  /-- DMA_BASE, where the engine's address window begins (R7). -/
  dmaBase : Nat
  /-- DMA_SIZE, the window's length in bytes (R7). -/
  dmaSize : Nat
  /-- PLATFORM_COHERENT (R7). -/
  coherent : Bool
  /-- IRQ_LINE, the controller input that IRQ drives (R7). -/
  irqLine : Nat
  /-- The data memory that is not normal memory: a device, or no memory at all (20_memory.md R54;
  60_exceptions.md R162(d); log entry 10). -/
  notNormal : List Region
  deriving DecidableEq, Repr

/-- The spec's defaults: LOG2_NMAX = 16, DMA_BASE = 0, DMA_SIZE = 2^32, PLATFORM_COHERENT = 1 (00_scope.md R6, R7).
DESIGN CHOICE (log entries 3 and 10): BASE, IRQ_LINE and `notNormal`, which have none. -/
def Params.default : Params :=
  { log2NMax := 16
    base := 0x100000000
    dmaBase := 0
    dmaSize := 0x100000000
    coherent := true
    irqLine := 0
    notNormal := [] }

/-- The unspecified words a RESET during a command leaves in the destination, numbered by the draws made so far
(70_reset_and_hazards.md R167). A free value: it has no body, and nothing constrains it (log entry 7). -/
opaque Config.freeWord : Nat → Word

end Sys2Proof
end

