-- ==== Sys2Proof/Syntax.lean ====
section
/-! DEFINITION. The commands of FFTBP, the one command format, the register names, and the bus transactions a
host programs it with (30_encoding.md; 10_state.md section 2). -/

namespace Sys2Proof

/-- The ten commands, one constructor per row of spec/opcode_table.json (30_encoding.md R68). A command has no
operand fields: its operands are the snapshot of the operand registers and the configured N (R72). -/
inductive Instr where
  /-- CONFIG, select the transform size (40_construction.md R100). -/
  | config
  /-- FFT, complex forward transform (41_complex_transforms.md R118). -/
  | fft
  /-- IFFT, complex inverse transform (R119). -/
  | ifft
  /-- FFT_REAL, real forward transform (42_real_transforms.md R145). -/
  | fftReal
  /-- IFFT_REAL, real inverse transform (R146). -/
  | ifftReal
  /-- BITREV, bit-reversal permutation (41_complex_transforms.md R115). -/
  | bitrev
  /-- BFLY_FWD, forward butterfly stages (R116). -/
  | bflyFwd
  /-- BFLY_INV, inverse butterfly stages (R117). -/
  | bflyInv
  /-- COMBINE, the real combine step (42_real_transforms.md R143). -/
  | combine
  /-- SPLIT, the real split step (R144). -/
  | split
  deriving DecidableEq, Repr

/-- The fields of the one instruction format CMD32 (30_encoding.md R67). -/
structure Cmd32 where
  /-- OPC, bits 3:0. -/
  opc : BitVec 4
  /-- RSVD, bits 31:4, which must be 0. -/
  rsvd : BitVec 28
  deriving DecidableEq, Repr

/-- The 17 registers of the register map (10_state.md section 2). -/
inductive Reg where
  | id | param | cmd | status | size | cfgN | cfgNbits | srcAddr | srcLen | dstAddr | dstLen
  | irqEn | twIdx | twCos | twSin | brIdx | brVal
  deriving DecidableEq, Repr

/-- One operation of the host: a bus transaction (30_encoding.md R75), a fence, or a wait. -/
inductive HostOp where
  /-- `(W, addr, value)` with an access width in bytes; only width 4 is defined (10_state.md R44(e)). -/
  | regWrite (addr width : Nat) (value : Word)
  /-- `(R, addr, -)` with an access width in bytes. -/
  | regRead (addr width : Nat)
  /-- `(MW, a, v)`, a data-memory word write. -/
  | memWrite (addr value : Word)
  /-- `(MR, a, -)`, a data-memory word read. -/
  | memRead (addr : Word)
  /-- A byte write to data memory; any other width is a run of these (20_memory.md R55). -/
  | byteWrite (addr : Word) (value : Byte)
  /-- A byte read of data memory (20_memory.md R55). -/
  | byteRead (addr : Word)
  /-- `FENCE`, the host's own barrier (30_encoding.md R76). -/
  | fence
  /-- The host's cache clean (70_reset_and_hazards.md R171(c)). -/
  | cacheClean
  /-- The host's cache invalidate (70_reset_and_hazards.md R171(c)). -/
  | cacheInvalidate
  /-- `WAIT`: read STATUS, and again while the value read has BUSY = 1 (30_encoding.md R77). -/
  | wait
  /-- Take the IRQ, once it is raised (60_exceptions.md R165(a)). -/
  | takeIrq
  deriving DecidableEq, Repr

/-- Whose move is next: the host's, the engine's, or the platform's RESET (10_state.md R25;
70_reset_and_hazards.md R166). -/
inductive Turn where
  | host | engine | reset
  deriving DecidableEq, Repr

end Sys2Proof
end

