-- ==== Sys2Proof/Machine/State.lean ====
section
/-! DEFINITION. The state of FFTBP, of its data memory and platform, and of the host's side of the bus; the reasons a
step can stop; the state after reset (10_state.md; 70_reset_and_hazards.md). -/

namespace Sys2Proof.Machine

/-- The error codes of STATUS.ERR; codes 8 to 15 are never produced (60_exceptions.md R153). -/
inductive ErrCode where
  | none | constructionError | sizeMismatch | illegalCommand | notConfigured | alignError | rangeError | aliasError
  deriving DecidableEq, Repr

/-- `op[...]`, the snapshot of the operand registers taken at acceptance (10_state.md R45). -/
structure Operands where
  size : Word
  srcAddr : Word
  srcLen : Word
  dstAddr : Word
  dstLen : Word
  deriving DecidableEq, Repr

/-- ACTIVE: the command word and its operand snapshot (10_state.md R45). -/
structure Active where
  word : Word
  op : Operands
  deriving DecidableEq, Repr

/-- A data-memory write of the host that the engine need not see yet (20_memory.md R56, R63; 70_reset_and_hazards.md
R171; log entries 8 and 9). -/
structure HostWrite where
  /-- The bytes written. -/
  region : Region
  /-- A cache clean has followed it. -/
  cleaned : Bool
  /-- A fence has followed it. -/
  fenced : Bool
  deriving DecidableEq, Repr

/-- How far the host has got with a command's completion (20_memory.md R57; 70_reset_and_hazards.md R170, R171). -/
inductive Phase where
  /-- The command is active. -/
  | running
  /-- It has completed; the host has not observed that. -/
  | completed
  /-- The host has observed it; no fence has followed yet. -/
  | observed
  deriving DecidableEq, Repr

/-- The buffers of a command whose completion the host has not yet observed and ordered (20_memory.md R58;
70_reset_and_hazards.md R170, R171). -/
structure Hazard where
  /-- The source used region. -/
  src : Region
  /-- The destination used region. -/
  dst : Region
  phase : Phase
  /-- A cache invalidate has followed the observation. -/
  invalidated : Bool
  deriving DecidableEq, Repr

/-- Everything the spec gives the machine (10_state.md R26; 20_memory.md R47; 00_scope.md R7), and the host's side of
the bus that the ordering rules speak of. -/
structure State where
  /-- SIZE (10_state.md R33). -/
  size : Word
  /-- SRC_ADDR (R36). -/
  srcAddr : Word
  /-- SRC_LEN (R37). -/
  srcLen : Word
  /-- DST_ADDR (R38). -/
  dstAddr : Word
  /-- DST_LEN (R39). -/
  dstLen : Word
  /-- IRQ_EN bit 0, DONE_IE; the other bits do not exist (R40). -/
  irqEn : Bool
  /-- TW_IDX (R41). -/
  twIdx : Word
  /-- BR_IDX (R42). -/
  brIdx : Word
  /-- STATUS.BUSY (R31). -/
  busy : Bool
  /-- STATUS.DONE (R31). -/
  done : Bool
  /-- STATUS.CONFIGURED (R31). -/
  configured : Bool
  /-- STATUS.OVERRUN (R31). -/
  overrun : Bool
  /-- STATUS.ERR (R31). -/
  err : ErrCode
  /-- CFG_N (R34). -/
  cfgN : Word
  /-- CFG_NBITS bits 4:0; the other bits read 0 (R35). -/
  cfgNbits : BitVec 5
  /-- ACTIVE (R45). -/
  active : Option Active
  /-- Data memory, the bytes that differ from 0x00 in rising order of address (20_memory.md R47; log entry 4). -/
  mem : List Host.Cell
  /-- The synthesis and platform parameters, which no step changes (00_scope.md R6, R7; log entry 3). -/
  params : Params
  /-- The host's remaining operations, the next one first (30_encoding.md R75; log entry 13). -/
  program : List HostOp
  /-- Whose moves come next; when it is used up a busy engine moves first (70_reset_and_hazards.md R168; log entry 1). -/
  schedule : List Turn
  /-- The values the host's reads returned, newest first (30_encoding.md R75; log entry 13). -/
  responses : List Word
  /-- The host's writes not yet visible to the engine (70_reset_and_hazards.md R171; log entry 8). -/
  hostWrites : List HostWrite
  /-- The buffers the host may not yet touch (70_reset_and_hazards.md R170, R171; log entry 8). -/
  hazards : List Hazard
  /-- How many free words have been drawn (70_reset_and_hazards.md R167; log entry 7). -/
  freeCount : Nat
  deriving DecidableEq, Repr

/-- Why a step has no next state. -/
inductive Fault where
  /-- Raised by every command's meaning when ACTIVE is absent, which the engine's step rules out: it is enabled only
  while BUSY = 1 (60_exceptions.md R151; log entry 17). Safe: no hardware step corresponds to it. -/
  | noActiveCommand
  /-- Raised by a buffer command that passes its checks but whose used regions are not normal memory
  (60_exceptions.md R162(d); 93_implementation_defined.md behaviours 9 and 10). Safe: the spec treats it as a fault. -/
  | engineBusError
  /-- Raised by a host register access that is not an aligned 32-bit one (10_state.md R44(e)). Safe: the spec treats
  it as a fault of the host step. -/
  | registerAccess
  /-- Raised by a host register transaction outside BASE..BASE+0xFF, which FFTBP does not answer (20_memory.md R46).
  Safe: FFTBP's state is not touched. -/
  | outsideRegisterBlock
  /-- Raised by a host word access to data memory that is not 4-aligned (30_encoding.md R75). Safe: the syntax has no
  such transaction. -/
  | misalignedHostAccess
  /-- Raised by a host access to a buffer of a command whose completion the host has not observed (20_memory.md R58;
  70_reset_and_hazards.md R170). Safe: the spec treats it as a fault of the accessing agent. -/
  | bufferInUse
  /-- Raised by an accepted command whose buffers hold host writes that no fence (or, without coherence, no clean) has
  made visible, and by a host read of a destination with no fence since the observation (70_reset_and_hazards.md
  R171; 93_implementation_defined.md behaviour 14). Safe: the spec gives such a program no outcome. -/
  | missingOrdering
  deriving DecidableEq, Repr

/-- Why a step is refused. -/
inductive Refusal where
  /-- Raised by exec for an instruction that has no meaning yet. Safe. -/
  | notModelled (mnemonic : String)
  /-- Raised by a host access to data memory that is not normal memory, whose behaviour the spec does not give
  (20_memory.md R54; log entry 10). Safe. -/
  | deviceAccess
  deriving DecidableEq, Repr

/-- The machine right after reset: every register as 10_state.md section 4 says, the defaults of the parameters
(00_scope.md R6, R7), nothing listed in memory, and a host with nothing to do (log entries 3, 4, 7 and 13). -/
def State.reset : State :=
  { size := 0, srcAddr := 0, srcLen := 0, dstAddr := 0, dstLen := 0
    irqEn := false, twIdx := 0, brIdx := 0
    busy := false, done := false, configured := false, overrun := false, err := .none
    cfgN := 0, cfgNbits := 0, active := Option.none
    mem := [], params := Params.default
    program := [], schedule := [], responses := [], hostWrites := [], hazards := [], freeCount := 0 }

end Sys2Proof.Machine
end

