-- ==== Sys2Proof/Machine/Flags.lean ====
section
/-! DEFINITION. The STATUS register, its write-one-to-clear bits, and the IRQ output (10_state.md R31; 60_exceptions.md
R153, R164). FFTBP has no arithmetic flags (00_scope.md R21). -/

namespace Sys2Proof.Machine

/-- The code of an error in STATUS.ERR (60_exceptions.md R153). -/
def ErrCode.code : ErrCode → BitVec 4
  | .none => 0
  | .constructionError => 1
  | .sizeMismatch => 2
  | .illegalCommand => 3
  | .notConfigured => 4
  | .alignError => 5
  | .rangeError => 6
  | .aliasError => 7

/-- STATUS as a word: reserved [31:12], ERR [11:8], reserved [7:4], OVERRUN, CONFIGURED, DONE, BUSY (10_state.md R31). -/
def statusWord (s : State) : Word :=
  (0 : BitVec 20) ++ s.err.code ++ (0 : BitVec 4) ++ BitVec.ofBool s.overrun ++ BitVec.ofBool s.configured ++
    BitVec.ofBool s.done ++ BitVec.ofBool s.busy

/-- A host write of v to STATUS: bit 1 clears DONE, bit 3 clears OVERRUN, every other bit is ignored (10_state.md R31). -/
def writeStatus (v : Word) (s : State) : State :=
  { s with done := s.done && !v.getLsbD 1, overrun := s.overrun && !v.getLsbD 3 }

/-- `IRQ = STATUS.DONE AND IRQ_EN[0]`, a level (60_exceptions.md R164). -/
def irq (s : State) : Bool := s.done && s.irqEn

/-- What FFTBP drives on the platform's interrupt controller: the line IRQ_LINE and its level (60_exceptions.md R164). -/
def irqOutput (s : State) : Nat × Bool := (s.params.irqLine, irq s)

/-- A value of STATUS from which a host learns that no command is active: BUSY = 0 or DONE = 1 (20_memory.md R57;
70_reset_and_hazards.md R171(b)). -/
def showsCompletion (status : Word) : Bool := !status.getLsbD 0 || status.getLsbD 1

end Sys2Proof.Machine
end

