-- ==== Sys2Proof/WellFormed.lean ====
section
/-! DEFINITION. Well-formedness of a command word's fields, of an instruction, of a register transaction and of the
platform parameters. -/

namespace Sys2Proof

/-- A command word selects a command: RSVD = 0 and OPC in 0x1..0xA (30_encoding.md R67 to R69). -/
def Cmd32.wellFormed (c : Cmd32) : Bool :=
  c.rsvd == 0 && 1 ≤ c.opc.toNat && c.opc.toNat ≤ 10

/-- Every command is well formed: a command has no operand fields that could be out of range (30_encoding.md R72). -/
def Instr.wellFormed : Instr → Bool
  | .config => true
  | .fft => true
  | .ifft => true
  | .fftReal => true
  | .ifftReal => true
  | .bitrev => true
  | .bflyFwd => true
  | .bflyInv => true
  | .combine => true
  | .split => true

/-- The parameters meet their stated bounds: LOG2_NMAX in 1..29 (00_scope.md R6), BASE 256-byte aligned
(92_eei_decisions.md, open parameters), DMA_BASE + DMA_SIZE <= 2^32 (20_memory.md R50). -/
def Params.wellFormed (p : Params) : Bool :=
  decide (1 ≤ p.log2NMax) && decide (p.log2NMax ≤ 29) && decide (p.base % 256 = 0) &&
    decide (p.dmaBase + p.dmaSize ≤ 2 ^ 32)

/-- The transaction is one the host syntax has: a register access is an aligned 32-bit one inside the block
(10_state.md R44(e); 20_memory.md R46), a memory word access is 4-aligned (30_encoding.md R75). -/
def HostOp.wellFormed (p : Params) : HostOp → Bool
  | .regWrite a w _ => decide (p.base ≤ a) && decide (a ≤ p.base + 0xFF) && decide (w = 4) && decide (a % 4 = 0)
  | .regRead a w => decide (p.base ≤ a) && decide (a ≤ p.base + 0xFF) && decide (w = 4) && decide (a % 4 = 0)
  | .memWrite a _ => decide (a.toNat % 4 = 0)
  | .memRead a => decide (a.toNat % 4 = 0)
  | .byteWrite _ _ => true
  | .byteRead _ => true
  | .fence => true
  | .cacheClean => true
  | .cacheInvalidate => true
  | .wait => true
  | .takeIrq => true

end Sys2Proof
end

