-- ==== Sys2Proof/Decode.lean ====
section
/-! DEFINITION. The decoder and the encoder of command words, the register offsets, and the host's pseudo-instructions
(30_encoding.md; 10_state.md section 2). -/

namespace Sys2Proof

/-- Why a command word selects no command (30_encoding.md R69). -/
inductive Reject where
  /-- A bit of [31:4] is set. -/
  | reservedBits
  /-- OPC is 0x0 or 0xB to 0xF. -/
  | reservedOpcode
  deriving DecidableEq, Repr

/-- The fields of a command word: OPC = w[3:0], RSVD = w[31:4] (30_encoding.md R67). -/
def cmd32Of (w : Word) : Cmd32 :=
  { opc := w.extractLsb' 0 4, rsvd := w.extractLsb' 4 28 }

/-- The command word with these fields (30_encoding.md R67). -/
def Cmd32.toWord (c : Cmd32) : Word :=
  c.rsvd ++ c.opc

/-- The opcode map (30_encoding.md R68); OPC 0x0 and 0xB to 0xF are reserved (R69). -/
def opcodeOf (opc : BitVec 4) : Option Instr :=
  match opc.toNat with
  | 0x1 => some .config
  | 0x2 => some .fft
  | 0x3 => some .ifft
  | 0x4 => some .fftReal
  | 0x5 => some .ifftReal
  | 0x6 => some .bitrev
  | 0x7 => some .bflyFwd
  | 0x8 => some .bflyInv
  | 0x9 => some .combine
  | 0xA => some .split
  | _ => none

/-- Decode of a command word; it depends on nothing but the word (30_encoding.md R67 to R71). -/
def decode (w : Word) : Except Reject Instr :=
  let c := cmd32Of w
  if c.rsvd ≠ 0 then .error .reservedBits
  else
    match opcodeOf c.opc with
    | some i => .ok i
    | none => .error .reservedOpcode

/-- The OPC of a command (30_encoding.md R68). -/
def Instr.opcode : Instr → BitVec 4
  | .config => 0x1
  | .fft => 0x2
  | .ifft => 0x3
  | .fftReal => 0x4
  | .ifftReal => 0x5
  | .bitrev => 0x6
  | .bflyFwd => 0x7
  | .bflyInv => 0x8
  | .combine => 0x9
  | .split => 0xA

/-- The command word of a command: its OPC below 28 zero bits (30_encoding.md R67, R68). -/
def encode (i : Instr) : Word :=
  Cmd32.toWord { opc := i.opcode, rsvd := 0 }

/-- The decoder on the low `nbits` bits of `w`, numbered as spec/opcode_table.json numbers them; a command is one 32-bit
word, so the bits above `nbits` are 0. -/
def decodeTableWord (nbits w : Nat) : Option Instr :=
  match decode (BitVec.ofNat 32 (w % 2 ^ nbits)) with
  | .ok i => some i
  | .error _ => none

/-- The byte offset of a register from BASE (10_state.md section 2). -/
def Reg.offset : Reg → Nat
  | .id => 0x00
  | .param => 0x04
  | .cmd => 0x08
  | .status => 0x0C
  | .size => 0x10
  | .cfgN => 0x14
  | .cfgNbits => 0x18
  | .srcAddr => 0x1C
  | .srcLen => 0x20
  | .dstAddr => 0x24
  | .dstLen => 0x28
  | .irqEn => 0x2C
  | .twIdx => 0x30
  | .twCos => 0x34
  | .twSin => 0x38
  | .brIdx => 0x3C
  | .brVal => 0x40

/-- The register at a byte offset; none at the reserved offsets (10_state.md section 2, R43). -/
def regAt (off : Nat) : Option Reg :=
  match off with
  | 0x00 => some .id
  | 0x04 => some .param
  | 0x08 => some .cmd
  | 0x0C => some .status
  | 0x10 => some .size
  | 0x14 => some .cfgN
  | 0x18 => some .cfgNbits
  | 0x1C => some .srcAddr
  | 0x20 => some .srcLen
  | 0x24 => some .dstAddr
  | 0x28 => some .dstLen
  | 0x2C => some .irqEn
  | 0x30 => some .twIdx
  | 0x34 => some .twCos
  | 0x38 => some .twSin
  | 0x3C => some .brIdx
  | 0x40 => some .brVal
  | _ => none

/-- `WR reg, v` (30_encoding.md R76). -/
def wr (p : Params) (r : Reg) (v : Word) : HostOp := .regWrite (p.base + r.offset) 4 v

/-- `RD reg` (30_encoding.md R76). -/
def rd (p : Params) (r : Reg) : HostOp := .regRead (p.base + r.offset) 4

/-- `CMD m` is `WR CMD, m` (30_encoding.md R77). -/
def pseudoCmd (p : Params) (i : Instr) : List HostOp := [wr p .cmd (encode i)]

/-- `RUN m` is `FENCE`, `CMD m`, `WAIT`, `FENCE` (30_encoding.md R77). -/
def pseudoRun (p : Params) (i : Instr) : List HostOp :=
  [.fence] ++ pseudoCmd p i ++ [.wait, .fence]

/-- `ACK` clears DONE (30_encoding.md R77). -/
def pseudoAck (p : Params) : List HostOp := [wr p .status 0x00000002]

/-- `CLROVR` clears OVERRUN (30_encoding.md R77). -/
def pseudoClrovr (p : Params) : List HostOp := [wr p .status 0x00000008]

/-- `SETBUF sa, sl, da, dl` (30_encoding.md R77). -/
def pseudoSetbuf (p : Params) (sa sl da dl : Word) : List HostOp :=
  [wr p .srcAddr sa, wr p .srcLen sl, wr p .dstAddr da, wr p .dstLen dl]

/-- `MWS a, v0, ..., vk` (30_encoding.md R77).
DESIGN CHOICE (log entry 26): the spec gives no meaning to a line whose a + 4k reaches 2^32; here the address wraps to 0. -/
def pseudoMws (a : Word) : List Word → List HostOp
  | [] => []
  | v :: vs => .memWrite a v :: pseudoMws (a + 4) vs

/-- `MRS a`, `k` words (30_encoding.md R77); the expected values of the line are a check, not an operation (R76).
DESIGN CHOICE (log entry 26): an a + 4k that reaches 2^32 wraps to 0, as in `pseudoMws`. -/
def pseudoMrs (a : Word) : Nat → List HostOp
  | 0 => []
  | k + 1 => .memRead a :: pseudoMrs (a + 4) k

end Sys2Proof
end

