-- ==== Sys2Proof/Machine/Memory.lean ====
section
/-! DEFINITION. Data memory: bytes, little-endian words, complex elements, regions (20_memory.md; 00_scope.md R10 to
R12). -/

namespace Sys2Proof.Machine

/-- What a byte of data memory reads as that nothing has written since power-on in a state whose memory does not list it.
DESIGN CHOICE (log entry 4): MEM0 is the parameter of 20_memory.md R59; any memory image is a list over this byte. -/
def unlistedByte : Byte := 0x00

/-- The byte at an address (20_memory.md R47). -/
def readByte : List Host.Cell → Nat → Byte
  | [], _ => unlistedByte
  | (x, b) :: rest, a => if x = a then b else if a < x then unlistedByte else readByte rest a

/-- The byte at the head of a memory, listed only if it differs from what an unlisted address reads as. -/
def consByte (a : Nat) (v : Byte) (rest : List Host.Cell) : List Host.Cell :=
  if v = unlistedByte then rest else (a, v) :: rest

/-- Memory after a byte is written (20_memory.md R48); the canonical form is kept. -/
def writeByte : List Host.Cell → Nat → Byte → List Host.Cell
  | [], a, v => consByte a v []
  | (x, b) :: rest, a, v =>
    if x = a then consByte a v rest
    else if a < x then consByte a v ((x, b) :: rest)
    else (x, b) :: writeByte rest a v

/-- Every listed address is at least `lo`, below 2^32, rising, and lists no byte equal to the unlisted one. -/
def memWfFrom : Nat → List Host.Cell → Bool
  | _, [] => true
  | lo, (a, b) :: rest =>
    decide (lo ≤ a) && decide (a < 2 ^ 32) && decide (b ≠ unlistedByte) && memWfFrom (a + 1) rest

/-- The canonical form of a memory: 32-bit addresses (20_memory.md R47), strictly rising, nothing listed that an
unlisted address would read as. -/
def memWf (m : List Host.Cell) : Bool := memWfFrom 0 m

/-- `MemRead(a, 4)`: little-endian (20_memory.md R47). -/
def readWord (m : List Host.Cell) (a : Nat) : Word :=
  readByte m (a + 3) ++ readByte m (a + 2) ++ readByte m (a + 1) ++ readByte m a

/-- Byte `b` of a word, bits [8b+7:8b] (20_memory.md R48). -/
def byteOf (v : Word) (b : Nat) : Byte := v.extractLsb' (8 * b) 8

/-- `MemWrite(a, 4, v)`: byte[a+b] <- v[8b+7:8b] for b in 0..3 (20_memory.md R48). -/
def writeWord (m : List Host.Cell) (a : Nat) (v : Word) : List Host.Cell :=
  forUpTo 4 (fun b m => writeByte m (a + b) (byteOf v b)) m

/-- `W(A, k)`: word k of the buffer at A (00_scope.md R12). -/
def getW (m : List Host.Cell) (base k : Nat) : Word := readWord m (base + 4 * k)

/-- `W(A, k) <- v` (00_scope.md R12). -/
def setW (m : List Host.Cell) (base k : Nat) (v : Word) : List Host.Cell := writeWord m (base + 4 * k) v

/-- `C(A, k)`: complex element k, the pair (real part, imaginary part) (00_scope.md R12). -/
def getC (m : List Host.Cell) (base k : Nat) : Word × Word := (getW m base (2 * k), getW m base (2 * k + 1))

/-- `C(A, k) <- z` (00_scope.md R12). -/
def setC (m : List Host.Cell) (base k : Nat) (z : Word × Word) : List Host.Cell :=
  setW (setW m base (2 * k) z.1) base (2 * k + 1) z.2

/-- The byte address lies in the region. -/
def regionHas (r : Region) (a : Nat) : Bool := decide (r.base ≤ a) && decide (a < r.base + r.size)

/-- The two regions share at least one byte. -/
def regionsMeet (r t : Region) : Bool :=
  decide (0 < r.size) && decide (0 < t.size) && decide (r.base < t.base + t.size) && decide (t.base < r.base + r.size)

end Sys2Proof.Machine
end

