-- ==== Sys2Proof/Machine/Operands.lean ====
section
/-! DEFINITION. The operands of a command: the derived sizes, the length contract, the used regions, and the checks in their
order (00_scope.md R5; 30_encoding.md R73; 20_memory.md R49 to R52; 60_exceptions.md R154). -/

namespace Sys2Proof.Machine

/-- What a running buffer command works on (00_scope.md R5; 41_complex_transforms.md, common context). -/
structure Geometry where
  /-- sa = op[SRC_ADDR]. -/
  sa : Nat
  /-- da = op[DST_ADDR]. -/
  da : Nat
  /-- N = CFG_N. -/
  n : Nat
  /-- nBits = CFG_NBITS. -/
  nBits : Nat
  deriving DecidableEq, Repr

/-- M = N/2, the complex points (00_scope.md R5). -/
def Geometry.m (g : Geometry) : Nat := g.n / 2

/-- L = nBits - 1, the stages (00_scope.md R5). -/
def Geometry.l (g : Geometry) : Nat := g.nBits - 1

/-- Q = N/4 rounded down, the last index of the combine and split loops (00_scope.md R5). -/
def Geometry.q (g : Geometry) : Nat := g.n / 4

/-- The geometry of a command with this snapshot under the configuration in force. -/
def geometryOf (s : State) (op : Operands) : Geometry :=
  { sa := op.srcAddr.toNat, da := op.dstAddr.toNat, n := s.cfgN.toNat, nBits := s.cfgNbits.toNat }

/-- The snapshot of the operand registers (60_exceptions.md R150). -/
def snapshot (s : State) : Operands :=
  { size := s.size, srcAddr := s.srcAddr, srcLen := s.srcLen, dstAddr := s.dstAddr, dstLen := s.dstLen }

/-- LENGTHS_OK, the length contract on SRC_LEN and DST_LEN for the configured N (30_encoding.md R73). -/
def lengthsOk (i : Instr) (srcLen dstLen n : Nat) : Bool :=
  match i with
  | .config => true
  | .fft => decide (srcLen = n) && decide (dstLen = n)
  | .ifft => decide (srcLen = n) && decide (dstLen = n)
  | .fftReal => decide (n ≤ srcLen) && decide (dstLen = n + 2)
  | .ifftReal => decide (srcLen = n + 2) && decide (n ≤ dstLen)
  | .bitrev => decide (srcLen = n) && decide (dstLen = n)
  | .bflyFwd => decide (srcLen = n) && decide (dstLen = n)
  | .bflyInv => decide (srcLen = n) && decide (dstLen = n)
  | .combine => decide (n ≤ srcLen) && decide (dstLen = n + 2)
  | .split => decide (srcLen = n + 2) && decide (n ≤ dstLen)

/-- USED: the words su of the source and du of the destination used region (20_memory.md R49). -/
def usedWords (i : Instr) (n : Nat) : Nat × Nat :=
  match i with
  | .config => (0, 0)
  | .fft => (n, n)
  | .ifft => (n, n)
  | .fftReal => (n, n + 2)
  | .ifftReal => (n + 2, n)
  | .bitrev => (n, n)
  | .bflyFwd => (n, n)
  | .bflyInv => (n, n)
  | .combine => (n, n + 2)
  | .split => (n + 2, n)

/-- IN_WINDOW(a, u): the u words at a lie in the DMA window, on unbounded naturals (20_memory.md R50; 60_exceptions.md
R154). -/
def inWindow (p : Params) (a u : Nat) : Bool :=
  decide (p.dmaBase ≤ a) && decide (a + 4 * u ≤ p.dmaBase + p.dmaSize)

/-- OVERLAP(a, u, b, v): u words at a and v words at b share a byte (20_memory.md R52; 60_exceptions.md R154). -/
def overlapWords (a u b v : Nat) : Bool := decide (a < b + 4 * v) && decide (b < a + 4 * u)

/-- The checks of a command other than CONFIG, in their order; the first that fails is reported (60_exceptions.md R154
to R160). -/
def bufferCheck (s : State) (i : Instr) (op : Operands) : ErrCode :=
  let n := s.cfgN.toNat
  let sa := op.srcAddr.toNat
  let da := op.dstAddr.toNat
  let su := (usedWords i n).1
  let du := (usedWords i n).2
  if s.configured = false then .notConfigured
  else if lengthsOk i op.srcLen.toNat op.dstLen.toNat n = false then .sizeMismatch
  else if sa % 4 ≠ 0 ∨ da % 4 ≠ 0 then .alignError
  else if inWindow s.params sa su = false ∨ inWindow s.params da du = false then .rangeError
  else if sa ≠ da ∧ overlapWords sa su da du = true then .aliasError
  else .none

/-- The used regions of a command with this snapshot, source first (20_memory.md R49). -/
def usedRegions (n : Nat) (i : Instr) (op : Operands) : Region × Region :=
  ({ base := op.srcAddr.toNat, size := 4 * (usedWords i n).1 },
   { base := op.dstAddr.toNat, size := 4 * (usedWords i n).2 })

/-- The used regions of a submitted command word: none for an illegal word, for CONFIG, and while no N is configured
(20_memory.md R49; log entry 5). -/
def commandRegions (s : State) (w : Word) (op : Operands) : Option (Region × Region) :=
  match decode w with
  | .error _ => Option.none
  | .ok i =>
    if s.configured = true ∧ i ≠ .config then some (usedRegions s.cfgN.toNat i op) else Option.none

/-- A used region of the command is not normal memory (60_exceptions.md R162(d); log entry 10). -/
def touchesNotNormal (s : State) (i : Instr) (op : Operands) : Bool :=
  let r := usedRegions s.cfgN.toNat i op
  s.params.notNormal.any fun hole => regionsMeet hole r.1 || regionsMeet hole r.2

end Sys2Proof.Machine
end

