-- ==== Sys2Proof/Machine/Float.lean ====
section
/-! DEFINITION. binary32 arithmetic (00_scope.md section 6). Values are exact integers in units of a power of two, rounded
once at the end. -/

namespace Sys2Proof.Machine

/-- The sign bit d[31] (00_scope.md R14). -/
def fSign (d : Word) : Bool := d.getLsbD 31

/-- The biased exponent d[30:23] (00_scope.md R14). -/
def fExp (d : Word) : Nat := (d.extractLsb' 23 8).toNat

/-- The fraction d[22:0] (00_scope.md R14). -/
def fFrac (d : Word) : Nat := (d.extractLsb' 0 23).toNat

/-- e = 255 and f != 0 (00_scope.md R14). -/
def fIsNaN (d : Word) : Bool := decide (fExp d = 255) && decide (fFrac d ≠ 0)

/-- e = 255 and f = 0 (00_scope.md R14). -/
def fIsInf (d : Word) : Bool := decide (fExp d = 255) && decide (fFrac d = 0)

/-- e = 0 and f = 0 (00_scope.md R14). -/
def fIsZero (d : Word) : Bool := decide (fExp d = 0) && decide (fFrac d = 0)

/-- The magnitude of a finite datum in units of 2^-149: f for e = 0, (2^23 + f) * 2^(e - 1) otherwise (00_scope.md R14). -/
def fMag (d : Word) : Nat :=
  if fExp d = 0 then fFrac d else (2 ^ 23 + fFrac d) * 2 ^ (fExp d - 1)

/-- The value of a finite datum in units of 2^-149 (00_scope.md R14). -/
def fValue (d : Word) : Int := if fSign d then -(fMag d : Int) else (fMag d : Int)

/-- The canonical NaN (00_scope.md R19). -/
def canonicalNaN : Word := 0x7FC00000

/-- The word of a sign and a magnitude's bits [30:0] (00_scope.md R14). -/
def fPack (negative : Bool) (magnitude : Nat) : Word :=
  BitVec.ofNat 32 (if negative then 2 ^ 31 + magnitude else magnitude)

/-- The bits of an infinity's magnitude (00_scope.md R14). -/
def infMag : Nat := 0x7F800000

/-- `a / b` to the nearest integer, a tie to the even one (00_scope.md R15). -/
def divNearestEven (a b : Nat) : Nat :=
  let q := a / b
  let r := a % b
  if b < 2 * r ∨ (2 * r = b ∧ q % 2 = 1) then q + 1 else q

/-- The magnitude bits of RN32(m / 2^p), for m > 0 (00_scope.md R15).
The quantum is 2^(t - 149), where t = max(floor(log2 q) + 126, 0); a significand of n quanta has the bits
t * 2^23 + n, carries into the exponent included; 2^128 or more becomes infinity. -/
def rn32Mag (m p : Nat) : Nat :=
  let t := Nat.log2 m + 126 - p
  min (t * 2 ^ 23 + divNearestEven (m * 2 ^ 149) (2 ^ (p + t))) infMag

/-- RN32 of the exact nonzero rational with this sign and the magnitude m / 2^p (00_scope.md R15). -/
def rn32 (negative : Bool) (m p : Nat) : Word := fPack negative (rn32Mag m p)

/-- `fneg(a) = a ^ 0x80000000` (00_scope.md R18). -/
def fneg (a : Word) : Word := a ^^^ 0x80000000

/-- `fadd(a, b)`, its cases in the order of 00_scope.md R16. -/
def fadd (a b : Word) : Word :=
  if fIsNaN a || fIsNaN b then canonicalNaN
  else if fIsInf a && fIsInf b then (if fSign a = fSign b then a else canonicalNaN)
  else if fIsInf a then a
  else if fIsInf b then b
  else
    let q := fValue a + fValue b
    if q = 0 then (if a = 0x80000000 ∧ b = 0x80000000 then 0x80000000 else 0x00000000)
    else rn32 (decide (q < 0)) q.natAbs 149

/-- `fsub(a, b) = fadd(a, fneg(b))` (00_scope.md R16). -/
def fsub (a b : Word) : Word := fadd a (fneg b)

/-- `fmul(a, b)`, its cases in the order of 00_scope.md R17. -/
def fmul (a b : Word) : Word :=
  let s := fSign a ^^ fSign b
  if fIsNaN a || fIsNaN b then canonicalNaN
  else if (fIsInf a && fIsZero b) || (fIsZero a && fIsInf b) then canonicalNaN
  else if fIsInf a || fIsInf b then fPack s infMag
  else if fIsZero a || fIsZero b then fPack s 0
  else rn32 s (fMag a * fMag b) 298

/-- HALF, the binary32 constant 0.5 (00_scope.md R17). -/
def half : Word := 0x3F000000

end Sys2Proof.Machine
end

