-- ==== Sys2Proof/Machine/Tables.lean ====
section
/-! DEFINITION. The twiddle-factor tables and ROM, and the bit-reversal generator (40_construction.md R103 to R106;
00_scope.md R13).

A table entry is the binary32 datum nearest to an exact cosine of a dyadic part of a full turn. Such a cosine is
compared with a dyadic number exactly, by doubling the angle until it is a whole number of turns (log entry 16). -/

namespace Sys2Proof.Machine

/-- Whether cos(2*pi*j/2^k) is at least 0: the angle is within a quarter turn of a whole one. -/
def cosNonneg (k j : Nat) : Bool :=
  decide (4 * (j % 2 ^ k) ≤ 2 ^ k) || decide (3 * 2 ^ k ≤ 4 * (j % 2 ^ k))

/-- How cos(2*pi*j/2^k) compares with n/2^p, exactly.
Where the signs agree, the squares decide, and with cos(2x) = 2*cos(x)^2 - 1 they compare as cos(2*pi*j/2^(k-1)) does
with 2*(n/2^p)^2 - 1, in reverse for negative numbers; at k = 0 the cosine is 1. -/
def cosCompare : Nat → Nat → Int → Nat → Ordering
  | 0, _, n, p => compare (2 ^ p : Int) n
  | k + 1, j, n, p =>
    if cosNonneg (k + 1) j then
      (if n < 0 then .gt else cosCompare k j (2 * n ^ 2 - 2 ^ (2 * p)) (2 * p))
    else
      (if 0 ≤ n then .lt else (cosCompare k j (2 * n ^ 2 - 2 ^ (2 * p)) (2 * p)).swap)

/-- How |cos(2*pi*j/2^k)| compares with n/2^p, given the cosine's sign. -/
def cosMagCompare (k j : Nat) (negative : Bool) (n p : Nat) : Ordering :=
  if negative then (cosCompare k j (-(n : Int)) p).swap else cosCompare k j (n : Int) p

/-- The numerator of the value of magnitude bits w below infinity, over 2^(magExp w) (00_scope.md R14). -/
def magNum (w : Nat) : Nat := if w / 2 ^ 23 = 0 then w % 2 ^ 23 else 2 ^ 23 + w % 2 ^ 23

/-- The exponent p of the denominator 2^p of the value of magnitude bits w of at most 1 (00_scope.md R14). -/
def magExp (w : Nat) : Nat := if w / 2 ^ 23 = 0 then 149 else 150 - w / 2 ^ 23

/-- The bits of the magnitude 1.0. -/
def oneMag : Nat := 0x3F800000

/-- The largest magnitude bits of at most 1.0 whose value is at most |cos(2*pi*j/2^k)|, found bit by bit from bit b - 1
down, with w fixed above it: magnitudes are ordered as their bits are. -/
def cosFloor (k j : Nat) (negative : Bool) : Nat → Nat → Nat
  | 0, w => w
  | b + 1, w =>
    let w' := w + 2 ^ b
    cosFloor k j negative b
      (if w' ≤ oneMag ∧ cosMagCompare k j negative (magNum w') (magExp w') ≠ .lt then w' else w)

/-- RT(cos(2*pi*j/2^k)): the nearest datum, an exact zero being +0 (40_construction.md R104). -/
def rtCos (k j : Nat) : Word :=
  let negative := decide (cosCompare k j 0 0 = .lt)
  let w := cosFloor k j negative 30 0
  if w = oneMag then fPack negative w
  else
    match cosMagCompare k j negative (2 * magNum w + 1) (magExp w + 1) with
    | .lt => fPack negative w
    | .eq => fPack negative (w + w % 2)
    | .gt => fPack negative (w + 1)

/-- RT(sin(-2*pi*j/2^k)), by sin(-x) = cos(x + a quarter turn) (40_construction.md R103, R104). -/
def rtSin (k j : Nat) : Word := rtCos (k + 2) (4 * j + 2 ^ k)

/-- COS_F[i], angle step 2*pi/M, for a configured nBits (40_construction.md R103). -/
def cosF (nBits i : Nat) : Word := rtCos (nBits - 1) i

/-- SIN_F[i] (40_construction.md R103). -/
def sinF (nBits i : Nat) : Word := rtSin (nBits - 1) i

/-- COS_H[i], angle step 2*pi/N (40_construction.md R103). -/
def cosH (nBits i : Nat) : Word := rtCos nBits i

/-- SIN_H[i] (40_construction.md R103). -/
def sinH (nBits i : Nat) : Word := rtSin nBits i

/-- ROM_C[j] of a ROM of 2^log2NMax entries (40_construction.md R105). -/
def romC (log2NMax j : Nat) : Word := rtCos log2NMax j

/-- ROM_S[j] (40_construction.md R105). -/
def romS (log2NMax j : Nat) : Word := rtSin log2NMax j

/-- `rev_L(i)`: the L-bit number whose bit b is bit (L-1-b) of i (00_scope.md R13). -/
def revBits : Nat → Nat → Nat
  | 0, _ => 0
  | l + 1, i => (i % 2) * 2 ^ l + revBits l (i / 2)

end Sys2Proof.Machine
end

