-- ==== Sys2Proof/Machine/Ops.lean ====
section
/-! DEFINITION. The named operations over registers and memory: the register accesses, the acceptance and the completion of
a command, an error's record, the RESET event, and the host's accesses to data memory (10_state.md; 60_exceptions.md;
70_reset_and_hazards.md). -/

namespace Sys2Proof.Machine

/-! ### Completion (60_exceptions.md R151, R152): the one place where a command ends, with or without an error -/

/-- A hazard once its command has completed. -/
def Hazard.complete (h : Hazard) : Hazard :=
  if h.phase = .running then { h with phase := .completed } else h

/-- Completion: ERR <- e, BUSY <- 0, DONE <- 1, ACTIVE <- absent (60_exceptions.md R151). -/
def complete (e : ErrCode) (s : State) : State :=
  { s with
    err := e, busy := false, done := true, active := Option.none
    hazards := s.hazards.map Hazard.complete }

/-- `raise E`, the equivalent of taking an exception: E is recorded at completion, and nothing else changes
(60_exceptions.md R152). -/
def raiseError (e : ErrCode) (s : State) : State := complete e s

/-- A buffer command: the checks of 60_exceptions.md R154, then `body` on data memory, then completion. An engine access
outside normal memory is a fault (R162(d)). -/
def runBuffer (i : Instr) (body : Geometry → List Host.Cell → List Host.Cell) (s : State) :
    Host.Outcome State Fault Refusal :=
  match s.active with
  | Option.none => .fault .noActiveCommand
  | some a =>
    if bufferCheck s i a.op ≠ .none then .next (raiseError (bufferCheck s i a.op) s)
    else if touchesNotNormal s i a.op = true then .fault .engineBusError
    else .next (complete .none { s with mem := body (geometryOf s a.op) s.mem })

/-- An illegal command word completes with ILLEGAL_COMMAND and no memory access (60_exceptions.md R157). -/
def completeIllegal (s : State) : State := raiseError .illegalCommand s

/-! ### Acceptance (60_exceptions.md R150, R163) -/

/-- A host write that the engine of an accepted command with these used regions may not see, or that may land after the
command has begun (20_memory.md R56; 70_reset_and_hazards.md R171; log entries 8 and 9). -/
def HostWrite.blocks (w : HostWrite) (src dst : Region) : Bool :=
  regionsMeet w.region src || (regionsMeet w.region dst && !w.fenced)

/-- The host has not met its ordering duty for the command word it submits (70_reset_and_hazards.md R171(a), (c)). -/
def orderingOwed (s : State) (w : Word) : Bool :=
  match commandRegions s w (snapshot s) with
  | Option.none => false
  | some (src, dst) => s.hostWrites.any fun h => h.blocks src dst

/-- Acceptance of a command word: ACTIVE <- (w, op), BUSY <- 1, DONE <- 0, ERR <- 0 (60_exceptions.md R150). Its buffers
are in use from here on (70_reset_and_hazards.md R170). -/
def accept (w : Word) (s : State) : State :=
  { s with
    active := some { word := w, op := snapshot s }
    busy := true, done := false, err := .none
    hazards :=
      match commandRegions s w (snapshot s) with
      | Option.none => s.hazards
      | some (src, dst) => { src := src, dst := dst, phase := .running, invalidated := false } :: s.hazards }

/-- A host write of w to CMD: dropped with OVERRUN <- 1 while BUSY = 1, accepted otherwise (60_exceptions.md R150, R163).
A command whose input the host has not ordered before it has no outcome (70_reset_and_hazards.md R171). -/
def submit (w : Word) (s : State) : Host.Outcome State Fault Refusal :=
  if s.busy = true then .next { s with overrun := true }
  else if orderingOwed s w = true then .fault .missingOrdering
  else .next (accept w s)

/-! ### Register accesses (10_state.md R28 to R44) -/

/-- What TW_COS and TW_SIN read (40_construction.md R107). -/
def twiddlePort (s : State) : Word × Word :=
  let i := (s.twIdx.extractLsb' 0 31).toNat
  let nBits := s.cfgNbits.toNat
  if s.configured = false ∨ s.cfgN.toNat / 2 ≤ i then (0x00000000, 0x00000000)
  else if s.twIdx.getLsbD 31 = false then (cosF nBits i, sinF nBits i)
  else (cosH nBits i, sinH nBits i)

/-- What BR_VAL reads (40_construction.md R108). -/
def bitrevPort (s : State) : Word :=
  if s.configured = false ∨ s.cfgN.toNat / 2 ≤ s.brIdx.toNat then 0x00000000
  else BitVec.ofNat 32 (revBits (s.cfgNbits.toNat - 1) s.brIdx.toNat)

/-- The value a read of the register returns; no read has a side effect (10_state.md R29 to R42, R44(a)). -/
def readReg (s : State) : Reg → Word
  | .id => 0x46465401
  | .param => (BitVec.ofNat 5 s.params.log2NMax).setWidth 32
  | .cmd => 0x00000000
  | .status => statusWord s
  | .size => s.size
  | .cfgN => s.cfgN
  | .cfgNbits => s.cfgNbits.setWidth 32
  | .srcAddr => s.srcAddr
  | .srcLen => s.srcLen
  | .dstAddr => s.dstAddr
  | .dstLen => s.dstLen
  | .irqEn => (BitVec.ofBool s.irqEn).setWidth 32
  | .twIdx => s.twIdx
  | .twCos => (twiddlePort s).1
  | .twSin => (twiddlePort s).2
  | .brIdx => s.brIdx
  | .brVal => bitrevPort s

/-- The state after a host write of v to the register; a write to a read-only register is ignored (10_state.md R28 to
R42, R44). -/
def writeReg (r : Reg) (v : Word) (s : State) : Host.Outcome State Fault Refusal :=
  match r with
  | .cmd => submit v s
  | .status => .next (writeStatus v s)
  | .size => .next { s with size := v }
  | .srcAddr => .next { s with srcAddr := v }
  | .srcLen => .next { s with srcLen := v }
  | .dstAddr => .next { s with dstAddr := v }
  | .dstLen => .next { s with dstLen := v }
  | .irqEn => .next { s with irqEn := v.getLsbD 0 }
  | .twIdx => .next { s with twIdx := v }
  | .brIdx => .next { s with brIdx := v }
  | .id => .next s
  | .param => .next s
  | .cfgN => .next s
  | .cfgNbits => .next s
  | .twCos => .next s
  | .twSin => .next s
  | .brVal => .next s

/-- A value returned to the host (30_encoding.md R75). -/
def respond (v : Word) (s : State) : State := { s with responses := v :: s.responses }

/-- A hazard once the host has observed that no command is active. -/
def Hazard.observe (h : Hazard) : Hazard :=
  if h.phase = .completed then { h with phase := .observed } else h

/-- The host observes completion (20_memory.md R57; 70_reset_and_hazards.md R171(b)). -/
def observeCompletion (s : State) : State := { s with hazards := s.hazards.map Hazard.observe }

/-- The host reads a register; a value of STATUS that shows completion is its observation (20_memory.md R57). -/
def hostReadReg (r : Reg) (s : State) : State :=
  let v := readReg s r
  respond v (if r = .status ∧ showsCompletion v = true then observeCompletion s else s)

/-- Whether the bus address lies in the register block (20_memory.md R46(a)). -/
def inBlock (p : Params) (addr : Nat) : Bool := decide (p.base ≤ addr) && decide (addr ≤ p.base + 0xFF)

/-- A register read transaction: aligned 32-bit accesses only (10_state.md R44(e)); reserved offsets read 0 (R43). -/
def busReadReg (addr width : Nat) (s : State) : Host.Outcome State Fault Refusal :=
  if inBlock s.params addr = false then .fault .outsideRegisterBlock
  else if width ≠ 4 ∨ addr % 4 ≠ 0 then .fault .registerAccess
  else
    match regAt (addr - s.params.base) with
    | Option.none => .next (respond 0x00000000 s)
    | some r => .next (hostReadReg r s)

/-- A register write transaction: aligned 32-bit accesses only (10_state.md R44(e)); a write to a reserved offset is
ignored (R43). -/
def busWriteReg (addr width : Nat) (v : Word) (s : State) : Host.Outcome State Fault Refusal :=
  if inBlock s.params addr = false then .fault .outsideRegisterBlock
  else if width ≠ 4 ∨ addr % 4 ≠ 0 then .fault .registerAccess
  else
    match regAt (addr - s.params.base) with
    | Option.none => .next s
    | some r => writeReg r v s

/-! ### The host's accesses to data memory (20_memory.md R55 to R58; 70_reset_and_hazards.md R170, R171) -/

/-- The command's buffers are in use: from acceptance until the host observes completion (70_reset_and_hazards.md R170). -/
def Hazard.inUse (h : Hazard) : Bool := decide (h.phase ≠ .observed)

/-- A host read of these bytes touches a destination in use, or an in-place buffer in use (20_memory.md R58;
70_reset_and_hazards.md R170, R174; log entry 6). -/
def Hazard.forbidsRead (h : Hazard) (r : Region) : Bool :=
  h.inUse && (regionsMeet r h.dst || (decide (h.src.base = h.dst.base) && regionsMeet r h.src))

/-- A host read of these bytes of a destination lacks the fence that orders it after the observation
(70_reset_and_hazards.md R171(b)). -/
def Hazard.unordered (h : Hazard) (r : Region) : Bool := !h.inUse && regionsMeet r h.dst

/-- A host write of these bytes touches a buffer in use (20_memory.md R58; 70_reset_and_hazards.md R170). -/
def Hazard.forbidsWrite (h : Hazard) (r : Region) : Bool :=
  h.inUse && (regionsMeet r h.src || regionsMeet r h.dst)

/-- A host access to these bytes is one to a device or to no memory (20_memory.md R54; log entry 10). -/
def hostTouchesNotNormal (s : State) (r : Region) : Bool := s.params.notNormal.any fun hole => regionsMeet hole r

/-- The host reads the bytes of region r of data memory, which hold v.
DESIGN CHOICE (log entry 27): the read takes its value at this step, in program order, so a later CMD write with no fence
between does not let it see the command's writes. -/
def hostRead (r : Region) (v : Word) (s : State) : Host.Outcome State Fault Refusal :=
  if s.hazards.any (fun h => h.forbidsRead r) = true then .fault .bufferInUse
  else if s.hazards.any (fun h => h.unordered r) = true then .fault .missingOrdering
  else if hostTouchesNotNormal s r = true then .refused .deviceAccess
  else .next (respond v s)

/-- The host writes the bytes of region r of data memory, leaving it as `mem`; the engine need not see it before a fence
(20_memory.md R56). -/
def hostWrite (r : Region) (mem : List Host.Cell) (s : State) : Host.Outcome State Fault Refusal :=
  if s.hazards.any (fun h => h.forbidsWrite r) = true then .fault .bufferInUse
  else if hostTouchesNotNormal s r = true then .refused .deviceAccess
  else .next { s with mem := mem, hostWrites := { region := r, cleaned := false, fenced := false } :: s.hostWrites }

/-- `(MR, a, -)`, with a mod 4 = 0 (30_encoding.md R75). -/
def busMemRead (a : Word) (s : State) : Host.Outcome State Fault Refusal :=
  if a.toNat % 4 ≠ 0 then .fault .misalignedHostAccess
  else hostRead { base := a.toNat, size := 4 } (readWord s.mem a.toNat) s

/-- `(MW, a, v)`, with a mod 4 = 0 (30_encoding.md R75). -/
def busMemWrite (a v : Word) (s : State) : Host.Outcome State Fault Refusal :=
  if a.toNat % 4 ≠ 0 then .fault .misalignedHostAccess
  else hostWrite { base := a.toNat, size := 4 } (writeWord s.mem a.toNat v) s

/-- A byte read of data memory (20_memory.md R55). -/
def busByteRead (a : Word) (s : State) : Host.Outcome State Fault Refusal :=
  hostRead { base := a.toNat, size := 1 } ((readByte s.mem a.toNat).setWidth 32) s

/-- A byte write of data memory (20_memory.md R55). -/
def busByteWrite (a : Word) (v : Byte) (s : State) : Host.Outcome State Fault Refusal :=
  hostWrite { base := a.toNat, size := 1 } (writeByte s.mem a.toNat v) s

/-- The host's barrier: its earlier writes are performed (without coherence, the cleaned ones), and its later reads of the
destinations whose completion it has observed (without coherence, and invalidated) are ordered (70_reset_and_hazards.md
R171; 20_memory.md R63; log entries 8 and 9). -/
def hostFence (s : State) : State :=
  { s with
    hostWrites :=
      (s.hostWrites.filter fun w => !(s.params.coherent || w.cleaned)).map fun w => { w with fenced := true }
    hazards := s.hazards.filter fun h => !(decide (h.phase = .observed) && (s.params.coherent || h.invalidated)) }

/-- The host cleans its caches: its earlier writes leave them (70_reset_and_hazards.md R171(c); log entry 9). -/
def hostCacheClean (s : State) : State :=
  { s with hostWrites := s.hostWrites.map fun w => { w with cleaned := true } }

/-- A hazard once the host has invalidated its caches after observing completion. -/
def Hazard.invalidate (h : Hazard) : Hazard :=
  if h.phase = .observed then { h with invalidated := true } else h

/-- The host invalidates its caches (20_memory.md R63; 70_reset_and_hazards.md R171(c); log entry 9).
DESIGN CHOICE (log entry 25): a host write that no clean has followed is not lost; its value stays in memory, and it stays
pending, as it was. -/
def hostCacheInvalidate (s : State) : State := { s with hazards := s.hazards.map Hazard.invalidate }

/-! ### RESET (70_reset_and_hazards.md R166, R167) -/

/-- The used regions of the active command, source and destination: none for an illegal word, for CONFIG, and while no N is
configured (20_memory.md R49; log entry 5). -/
def abortedRegions (s : State) : Option (Region × Region) :=
  match s.active with
  | Option.none => Option.none
  | some a => commandRegions s a.word a.op

/-- A byte of the aborted command's destination that holds what it held: one of a distinct source, which "is unchanged"
(70_reset_and_hazards.md R167), or one past the address space, which does not exist (20_memory.md R47). DEDUCED (log entry 5). -/
def abortKeeps (src dst : Region) (a : Nat) : Bool :=
  decide (2 ^ 32 ≤ a) || (decide (src.base ≠ dst.base) && regionHas src a)

/-- Byte k of the destination takes its byte of the free value of its word. -/
def scrambleByte (src dst : Region) (count k : Nat) (m : List Host.Cell) : List Host.Cell :=
  if abortKeeps src dst (dst.base + k) = true then m
  else writeByte m (dst.base + k) (byteOf (Config.freeWord (count + k / 4)) (k % 4))

/-- Every word of the destination holds a free value, a draw per word; no other byte changes (70_reset_and_hazards.md R167). -/
def scramble (src dst : Region) (count : Nat) (m : List Host.Cell) : List Host.Cell :=
  forUpTo dst.size (scrambleByte src dst count) m

/-- Data memory after the active command, if any, is aborted: whatever its checks would have found
(70_reset_and_hazards.md R167). -/
def abortMem (s : State) : List Host.Cell :=
  match abortedRegions s with
  | Option.none => s.mem
  | some (src, dst) => scramble src dst s.freeCount s.mem

/-- The number of free words drawn once the active command, if any, is aborted. -/
def abortCount (s : State) : Nat :=
  match abortedRegions s with
  | Option.none => s.freeCount
  | some (_, dst) => s.freeCount + dst.size / 4

/-- The RESET event: every register to its reset value, ACTIVE absent (70_reset_and_hazards.md R166); data memory changes
only if a command is aborted (R167). The parameters and the host's side stay (log entry 21). -/
def applyReset (s : State) : State :=
  { s with
    size := 0, srcAddr := 0, srcLen := 0, dstAddr := 0, dstLen := 0
    irqEn := false, twIdx := 0, brIdx := 0
    busy := false, done := false, configured := false, overrun := false, err := .none
    cfgN := 0, cfgNbits := 0, active := Option.none
    mem := abortMem s, freeCount := abortCount s
    hazards := s.hazards.filter fun h => decide (h.phase ≠ .running) }

end Sys2Proof.Machine
end

