-- ==== Sys2Proof/Machine/Bus.lean ====
section
/-! DEFINITION. One step of the host: the next operation of its program (30_encoding.md R75 to R77; 60_exceptions.md R165;
70_reset_and_hazards.md R174). -/

namespace Sys2Proof.Machine

/-- One turn of `WAIT`: a read of STATUS; the host waits on while the value read has BUSY = 1 (30_encoding.md R77).
`rest` is the program after the WAIT. -/
def hostWait (rest : List HostOp) (s : State) : State :=
  if (readReg s .status).getLsbD 0 = true then hostReadReg .status s
  else hostReadReg .status { s with program := rest }

/-- The host takes the IRQ, which is its observation of completion, or waits on while IRQ = 0 (20_memory.md R57;
60_exceptions.md R165(a)). -/
def hostTakeIrq (rest : List HostOp) (s : State) : State :=
  if irq s = true then observeCompletion { s with program := rest } else s

/-- One step of the host; a host whose program has ended does nothing (70_reset_and_hazards.md R175). -/
def hostStep (s : State) : Host.Outcome State Fault Refusal :=
  match s.program with
  | [] => .next s
  | op :: rest =>
    match op with
    | .regWrite addr width v => busWriteReg addr width v { s with program := rest }
    | .regRead addr width => busReadReg addr width { s with program := rest }
    | .memWrite a v => busMemWrite a v { s with program := rest }
    | .memRead a => busMemRead a { s with program := rest }
    | .byteWrite a v => busByteWrite a v { s with program := rest }
    | .byteRead a => busByteRead a { s with program := rest }
    | .fence => .next (hostFence { s with program := rest })
    | .cacheClean => .next (hostCacheClean { s with program := rest })
    | .cacheInvalidate => .next (hostCacheInvalidate { s with program := rest })
    | .wait => .next (hostWait rest s)
    | .takeIrq => .next (hostTakeIrq rest s)

end Sys2Proof.Machine
end

