-- ==== Sys2Proof/Machine/Primitives.lean ====
section
/-! DEFINITION. The primitives the commands are built from: COPY, PERMUTE, the butterfly, STAGES, COMBINE_INPLACE, SPLIT
(41_complex_transforms.md R110 to R113; 42_real_transforms.md R140, R141). -/

namespace Sys2Proof.Machine

/-- COPY(sa, da, n) (41_complex_transforms.md R110). -/
def copyWords (sa da n : Nat) (m : List Host.Cell) : List Host.Cell :=
  if sa = da then m else forUpTo n (fun k m => setW m da k (getW m sa k)) m

/-- One turn of the loop of PERMUTE (41_complex_transforms.md R111). -/
def permuteStep (l sa da i : Nat) (m : List Host.Cell) : List Host.Cell :=
  let j := revBits l i
  if i ≤ j then
    let a := getC m sa i
    let b := getC m sa j
    setC (setC m da i b) da j a
  else m

/-- PERMUTE(sa, da) of points complex elements, points = 2^l (41_complex_transforms.md R111). -/
def permute (l points sa da : Nat) (m : List Host.Cell) : List Host.Cell :=
  forUpTo points (permuteStep l sa da) m

/-- BFLY(a, b, wr, wi) (41_complex_transforms.md R112). -/
def butterfly (a b : Word × Word) (wr wi : Word) : (Word × Word) × (Word × Word) :=
  let tr := fsub (fmul wr b.1) (fmul wi b.2)
  let ti := fadd (fmul wr b.2) (fmul wi b.1)
  ((fadd a.1 tr, fadd a.2 ti), (fsub a.1 tr, fsub a.2 ti))

/-- One butterfly of STAGES, on elements lo and hi with the F twiddle k (41_complex_transforms.md R113). -/
def butterflyStep (nBits da : Nat) (inverse : Bool) (lo hi k : Nat) (m : List Host.Cell) : List Host.Cell :=
  let wr := cosF nBits k
  let wi := if inverse then fneg (sinF nBits k) else sinF nBits k
  let out := butterfly (getC m da lo) (getC m da hi) wr wi
  setC (setC m da lo out.1) da hi out.2

/-- Stage s of STAGES on points complex elements: blocks of 2^s, twiddle stride points >> s (41_complex_transforms.md
R113). -/
def stage (nBits points da : Nat) (inverse : Bool) (s : Nat) (m : List Host.Cell) : List Host.Cell :=
  let size := 2 ^ s
  let half := size / 2
  let stride := points >>> s
  forUpTo (points / size)
    (fun block m =>
      forUpTo half
        (fun j m => butterflyStep nBits da inverse (block * size + j) (block * size + j + half) (j * stride) m) m) m

/-- STAGES(da, inverse): stages 1 to L in order (41_complex_transforms.md R113). -/
def stages (nBits points da : Nat) (inverse : Bool) (m : List Host.Cell) : List Host.Cell :=
  forUpTo (nBits - 1) (fun t m => stage nBits points da inverse (t + 1) m) m

/-- The two output elements (x1, x2) of one turn of COMBINE_INPLACE, from z1, z2 and the H twiddle (c, s)
(42_real_transforms.md R140). -/
def combinePair (z1 z2 : Word × Word) (c s : Word) : (Word × Word) × (Word × Word) :=
  let frRe := fmul half (fadd z1.1 z2.1)
  let frIm := fmul half (fsub z1.2 z2.2)
  let grRe := fmul half (fadd z1.2 z2.2)
  let grIm := fmul half (fsub z2.1 z1.1)
  let x1r := fsub (fadd frRe (fmul c grRe)) (fmul s grIm)
  let x1i := fadd (fadd frIm (fmul s grRe)) (fmul c grIm)
  let x2r := fadd (fsub frRe (fmul c grRe)) (fmul s grIm)
  let x2i := fadd (fadd (fneg frIm) (fmul s grRe)) (fmul c grIm)
  ((x1r, x1i), (x2r, x2i))

/-- One turn of the loop of COMBINE_INPLACE, for index i and its mirror (42_real_transforms.md R140). -/
def combineStep (nBits points da i : Nat) (m : List Host.Cell) : List Host.Cell :=
  let out := combinePair (getC m da i) (getC m da (points - i)) (cosH nBits i) (sinH nBits i)
  setC (setC m da i out.1) da (points - i) out.2

/-- The boundary bins 0 and N/2 of COMBINE_INPLACE (42_real_transforms.md R140). -/
def combineBoundary (n da : Nat) (m : List Host.Cell) : List Host.Cell :=
  let z0r := getW m da 0
  let z0i := getW m da 1
  setW (setW (setW (setW m da n (fsub z0r z0i)) da 0 (fadd z0r z0i)) da 1 0x00000000) da (n + 1) 0x00000000

/-- COMBINE_INPLACE(da) (42_real_transforms.md R140). -/
def combineInPlace (nBits n da : Nat) (m : List Host.Cell) : List Host.Cell :=
  combineBoundary n da (forUpTo (n / 4) (fun t m => combineStep nBits (n / 2) da (t + 1) m) m)

/-- The two output elements (z1, z2) of one turn of SPLIT, from x1, x2 and the H twiddle (c, s) (42_real_transforms.md
R141). -/
def splitPair (x1 x2 : Word × Word) (c s : Word) : (Word × Word) × (Word × Word) :=
  let frRe := fmul half (fadd x1.1 x2.1)
  let frIm := fmul half (fsub x1.2 x2.2)
  let hRe := fmul half (fsub x1.1 x2.1)
  let hIm := fmul half (fadd x1.2 x2.2)
  let z1r := fadd (fsub frRe (fmul c hIm)) (fmul s hRe)
  let z1i := fadd (fadd frIm (fmul c hRe)) (fmul s hIm)
  let z2r := fsub (fadd frRe (fmul c hIm)) (fmul s hRe)
  let z2i := fadd (fadd (fneg frIm) (fmul c hRe)) (fmul s hIm)
  ((z1r, z1i), (z2r, z2i))

/-- The boundary of SPLIT, words 0 and 1 of the destination (42_real_transforms.md R141). -/
def splitBoundary (n sa da : Nat) (m : List Host.Cell) : List Host.Cell :=
  let x0 := getW m sa 0
  let xm := getW m sa n
  setW (setW m da 0 (fmul half (fadd x0 xm))) da 1 (fmul half (fsub x0 xm))

/-- One turn of the loop of SPLIT, for index i and its mirror (42_real_transforms.md R141). -/
def splitStep (nBits points sa da i : Nat) (m : List Host.Cell) : List Host.Cell :=
  let out := splitPair (getC m sa i) (getC m sa (points - i)) (cosH nBits i) (sinH nBits i)
  setC (setC m da i out.1) da (points - i) out.2

/-- SPLIT(sa, da) (42_real_transforms.md R141). -/
def splitSpectrum (nBits n sa da : Nat) (m : List Host.Cell) : List Host.Cell :=
  forUpTo (n / 4) (fun t m => splitStep nBits (n / 2) sa da (t + 1) m) (splitBoundary n sa da m)

end Sys2Proof.Machine
end

