-- ==== Sys2Proof/Machine/Complex.lean ====
section
/-! DEFINITION. The complex family: FFT, IFFT, BITREV, BFLY_FWD, BFLY_INV (41_complex_transforms.md R115 to R119). -/

namespace Sys2Proof.Machine

/-- PERMUTE(sa, da) (41_complex_transforms.md R115). -/
def bitrevBody (g : Geometry) (m : List Host.Cell) : List Host.Cell := permute g.l g.m g.sa g.da m

/-- COPY(sa, da, N); STAGES(da, inverse) (41_complex_transforms.md R116, R117). -/
def bflyBody (inverse : Bool) (g : Geometry) (m : List Host.Cell) : List Host.Cell :=
  stages g.nBits g.m g.da inverse (copyWords g.sa g.da g.n m)

/-- PERMUTE(sa, da); STAGES(da, inverse) (41_complex_transforms.md R118, R119). -/
def fftBody (inverse : Bool) (g : Geometry) (m : List Host.Cell) : List Host.Cell :=
  stages g.nBits g.m g.da inverse (permute g.l g.m g.sa g.da m)

/-- FFT (41_complex_transforms.md R118). -/
def execFft (s : State) : Host.Outcome State Fault Refusal := runBuffer .fft (fftBody false) s

/-- IFFT (41_complex_transforms.md R119). -/
def execIfft (s : State) : Host.Outcome State Fault Refusal := runBuffer .ifft (fftBody true) s

/-- BITREV (41_complex_transforms.md R115). -/
def execBitrev (s : State) : Host.Outcome State Fault Refusal := runBuffer .bitrev bitrevBody s

/-- BFLY_FWD (41_complex_transforms.md R116). -/
def execBflyFwd (s : State) : Host.Outcome State Fault Refusal := runBuffer .bflyFwd (bflyBody false) s

/-- BFLY_INV (41_complex_transforms.md R117). -/
def execBflyInv (s : State) : Host.Outcome State Fault Refusal := runBuffer .bflyInv (bflyBody true) s

end Sys2Proof.Machine
end

