-- ==== Sys2Proof/Machine/Construction.lean ====
section
/-! DEFINITION. The construction family: CONFIG (40_construction.md R100, R101). -/

namespace Sys2Proof.Machine

/-- N_MAX = 2^LOG2_NMAX (00_scope.md R6). -/
def nMax (s : State) : Nat := 2 ^ s.params.log2NMax

/-- The size test of CONFIG fails: n < 2, n > N_MAX, or n & (n - 1) != 0 (40_construction.md R100). -/
def sizeIllegal (s : State) (n : Nat) : Bool :=
  decide (n < 2) || decide (nMax s < n) || decide (n &&& (n - 1) ≠ 0)

/-- CFG_N <- n, CFG_NBITS <- log2 n, CONFIGURED <- 1 (40_construction.md R100). -/
def configure (n : Word) (s : State) : State :=
  { s with cfgN := n, cfgNbits := BitVec.ofNat 5 (Nat.log2 n.toNat), configured := true }

/-- CONFIG (40_construction.md R100): a failed one leaves the configuration as it was (R101). -/
def execConfig (s : State) : Host.Outcome State Fault Refusal :=
  match s.active with
  | Option.none => .fault .noActiveCommand
  | some a =>
    if sizeIllegal s a.op.size.toNat = true then .next (raiseError .constructionError s)
    else .next (complete .none (configure a.op.size s))

end Sys2Proof.Machine
end

