-- ==== Sys2Proof/Machine/Real.lean ====
section
/-! DEFINITION. The real family: FFT_REAL, IFFT_REAL, COMBINE, SPLIT (42_real_transforms.md R143 to R146). -/

namespace Sys2Proof.Machine

/-- COPY(sa, da, N); COMBINE_INPLACE(da) (42_real_transforms.md R143). -/
def combineBody (g : Geometry) (m : List Host.Cell) : List Host.Cell :=
  combineInPlace g.nBits g.n g.da (copyWords g.sa g.da g.n m)

/-- SPLIT(sa, da) (42_real_transforms.md R144). -/
def splitBody (g : Geometry) (m : List Host.Cell) : List Host.Cell := splitSpectrum g.nBits g.n g.sa g.da m

/-- PERMUTE(sa, da); STAGES(da, 0); COMBINE_INPLACE(da) (42_real_transforms.md R145). -/
def fftRealBody (g : Geometry) (m : List Host.Cell) : List Host.Cell :=
  combineInPlace g.nBits g.n g.da (stages g.nBits g.m g.da false (permute g.l g.m g.sa g.da m))

/-- SPLIT(sa, da); PERMUTE(da, da); STAGES(da, 1) (42_real_transforms.md R146). -/
def ifftRealBody (g : Geometry) (m : List Host.Cell) : List Host.Cell :=
  stages g.nBits g.m g.da true (permute g.l g.m g.da g.da (splitSpectrum g.nBits g.n g.sa g.da m))

/-- FFT_REAL (42_real_transforms.md R145). -/
def execFftReal (s : State) : Host.Outcome State Fault Refusal := runBuffer .fftReal fftRealBody s

/-- IFFT_REAL (42_real_transforms.md R146). -/
def execIfftReal (s : State) : Host.Outcome State Fault Refusal := runBuffer .ifftReal ifftRealBody s

/-- COMBINE (42_real_transforms.md R143). -/
def execCombine (s : State) : Host.Outcome State Fault Refusal := runBuffer .combine combineBody s

/-- SPLIT (42_real_transforms.md R144). -/
def execSplit (s : State) : Host.Outcome State Fault Refusal := runBuffer .split splitBody s

end Sys2Proof.Machine
end

