-- ==== Sys2Proof/Machine/Dispatch.lean ====
section
/-! DEFINITION. Which meaning each command has: EXECUTE of a legal command word, with its completion (60_exceptions.md
R151, R154). -/

namespace Sys2Proof.Machine

def exec (i : Instr) (s : State) : Host.Outcome State Fault Refusal :=
  match i with
  | .config => Sys2Proof.Machine.execConfig s
  | .fft => Sys2Proof.Machine.execFft s
  | .ifft => Sys2Proof.Machine.execIfft s
  | .fftReal => Sys2Proof.Machine.execFftReal s
  | .ifftReal => Sys2Proof.Machine.execIfftReal s
  | .bitrev => Sys2Proof.Machine.execBitrev s
  | .bflyFwd => Sys2Proof.Machine.execBflyFwd s
  | .bflyInv => Sys2Proof.Machine.execBflyInv s
  | .combine => Sys2Proof.Machine.execCombine s
  | .split => Sys2Proof.Machine.execSplit s

end Sys2Proof.Machine
end

