-- ==== Sys2Proof/Machine/Step.lean ====
section
/-! DEFINITION. One step of the machine: the host, the engine or RESET moves (10_state.md R25; 60_exceptions.md R151;
70_reset_and_hazards.md R166, R168). -/

namespace Sys2Proof.Machine

/-- The engine's step, enabled while BUSY = 1: it executes and completes the active command (60_exceptions.md R151,
R154); with BUSY = 0 it does nothing (70_reset_and_hazards.md R174). -/
def engineStep (s : State) : Host.Outcome State Fault Refusal :=
  if s.busy = false then .next s
  else
    match s.active with
    | Option.none => .fault .noActiveCommand
    | some a =>
      match decode a.word with
      | .ok i => exec i s
      | .error _ => .next (completeIllegal s)

/-- One step: the schedule says who moves; when it is used up a busy engine moves first (70_reset_and_hazards.md R168;
log entry 1). -/
def step (s : State) : Host.Outcome State Fault Refusal :=
  match s.schedule with
  | [] => if s.busy = true then engineStep s else hostStep s
  | .host :: rest => hostStep { s with schedule := rest }
  | .engine :: rest => engineStep { s with schedule := rest }
  | .reset :: rest => .next (applyReset { s with schedule := rest })

/-- The state with the command word `w` (its low `nbits` bits) as the active command, and the engine to move next: FFTBP
fetches nothing, a command runs because a host's CMD write was accepted (60_exceptions.md R150; log entry 12). -/
def State.withFetchWord (s : State) (nbits w : Nat) : State :=
  accept (BitVec.ofNat 32 (w % 2 ^ nbits)) { s with schedule := [] }

end Sys2Proof.Machine
end

