-- ==== Sys2Proof/Safety.lean ====
section
/-! DEFINITION. The terms claims are stated in: the invariant of the machine, the end of a run, when a command may run, and
what a step changes. -/

namespace Sys2Proof.Machine

/-- The configuration is absent, or that of a legal size: CFG_N = 2^CFG_NBITS with 1 <= CFG_NBITS <= LOG2_NMAX (00_scope.md
R5; 10_state.md R34, R35; 40_construction.md R100). -/
abbrev State.ConfigOk (s : State) : Prop :=
  if s.configured = true then
    1 ≤ s.cfgNbits.toNat ∧ s.cfgNbits.toNat ≤ s.params.log2NMax ∧ s.cfgN.toNat = 2 ^ s.cfgNbits.toNat
  else s.cfgN = 0 ∧ s.cfgNbits = 0

/-- ACTIVE is present exactly while BUSY = 1, and BUSY = 1 implies DONE = 0 and ERR = 0 (10_state.md R26(d), R31). -/
abbrev State.LifecycleOk (s : State) : Prop :=
  s.busy = s.active.isSome ∧ (s.busy = true → s.done = false ∧ s.err = .none)

/-- A buffer is marked as that of a running command only while BUSY = 1. -/
abbrev State.HazardsOk (s : State) : Prop :=
  ∀ h ∈ s.hazards, h.phase = .running → s.busy = true

/-- While a buffer command is active, its used regions are marked as in use (70_reset_and_hazards.md R170). -/
abbrev State.BuffersMarked (s : State) : Prop :=
  ∀ a ∈ s.active, ∀ r ∈ commandRegions s a.word a.op,
    { src := r.1, dst := r.2, phase := .running, invalidated := false } ∈ s.hazards

/-- The invariant of the machine: the memory's canonical form, legal parameters, a legal configuration, the lifecycle of
60_exceptions.md R150 and R151, and the marks on buffers in use. -/
abbrev State.Inv (s : State) : Prop :=
  memWf s.mem = true ∧ s.params.wellFormed = true ∧ s.ConfigOk ∧ s.LifecycleOk ∧ s.HazardsOk ∧ s.BuffersMarked

/-- The run has ended: the host has executed its last line and FFTBP is IDLE (70_reset_and_hazards.md R175). -/
abbrev State.runEnded (s : State) : Prop := s.program = [] ∧ s.busy = false

/-- The length contract of a command on op[SRC_LEN] and op[DST_LEN] (30_encoding.md R73). -/
abbrev LengthContract (i : Instr) (srcLen dstLen n : Nat) : Prop :=
  match i with
  | .config => True
  | .fft | .ifft | .bitrev | .bflyFwd | .bflyInv => srcLen = n ∧ dstLen = n
  | .fftReal | .combine => n ≤ srcLen ∧ dstLen = n + 2
  | .ifftReal | .split => srcLen = n + 2 ∧ n ≤ dstLen

/-- The words su of the source and du of the destination used region lie in the DMA window (20_memory.md R50). -/
abbrev InDmaWindow (p : Params) (sa su da du : Nat) : Prop :=
  (p.dmaBase ≤ sa ∧ sa + 4 * su ≤ p.dmaBase + p.dmaSize) ∧ (p.dmaBase ≤ da ∧ da + 4 * du ≤ p.dmaBase + p.dmaSize)

/-- The used regions are identical in their start (in place), or share no byte (20_memory.md R52). -/
abbrev InPlaceOrDisjoint (sa su da du : Nat) : Prop := sa = da ∨ sa + 4 * su ≤ da ∨ da + 4 * du ≤ sa

/-- The conditions under which a command other than CONFIG passes every check (60_exceptions.md R154). -/
abbrev State.ChecksMet (s : State) (i : Instr) (op : Operands) : Prop :=
  s.configured = true ∧ LengthContract i op.srcLen.toNat op.dstLen.toNat s.cfgN.toNat ∧
    (op.srcAddr.toNat % 4 = 0 ∧ op.dstAddr.toNat % 4 = 0) ∧
    InDmaWindow s.params op.srcAddr.toNat (usedWords i s.cfgN.toNat).1 op.dstAddr.toNat (usedWords i s.cfgN.toNat).2 ∧
    InPlaceOrDisjoint op.srcAddr.toNat (usedWords i s.cfgN.toNat).1 op.dstAddr.toNat (usedWords i s.cfgN.toNat).2

/-- The command passes its checks and its buffers are normal memory, so that it runs (60_exceptions.md R154, R162(d)). -/
abbrev State.MayRun (s : State) (i : Instr) (op : Operands) : Prop :=
  s.ChecksMet i op ∧ touchesNotNormal s i op = false

/-- What a running buffer command does to data memory: its pseudocode (41_complex_transforms.md R115 to R119;
42_real_transforms.md R143 to R146). CONFIG touches no memory (40_construction.md R100). -/
def bodyOf : Instr → Geometry → List Host.Cell → List Host.Cell
  | .config => fun _ m => m
  | .fft => fftBody false
  | .ifft => fftBody true
  | .fftReal => fftRealBody
  | .ifftReal => ifftRealBody
  | .bitrev => bitrevBody
  | .bflyFwd => bflyBody false
  | .bflyInv => bflyBody true
  | .combine => combineBody
  | .split => splitBody

/-- Every register a host can write, and every state component of FFTBP but STATUS and the configuration, is as before:
"The engine writes only STATUS, CFG_N and CFG_NBITS" (10_state.md R28), beside ACTIVE, data memory and the host's
marks on buffers. -/
abbrev State.SameHostRegs (s t : State) : Prop :=
  t.size = s.size ∧ t.srcAddr = s.srcAddr ∧ t.srcLen = s.srcLen ∧ t.dstAddr = s.dstAddr ∧ t.dstLen = s.dstLen ∧
    t.irqEn = s.irqEn ∧ t.twIdx = s.twIdx ∧ t.brIdx = s.brIdx

/-- The configuration is as before. -/
abbrev State.SameConfig (s t : State) : Prop :=
  t.configured = s.configured ∧ t.cfgN = s.cfgN ∧ t.cfgNbits = s.cfgNbits

/-- The host's side and the platform are as before, but for how far the host has got with a completion. -/
abbrev State.SameHostSide (s t : State) : Prop :=
  t.params = s.params ∧ t.program = s.program ∧ t.schedule = s.schedule ∧ t.responses = s.responses ∧
    t.hostWrites = s.hostWrites ∧ t.freeCount = s.freeCount

/-- The command has completed with this error code: the effect of 60_exceptions.md R151 on STATUS and ACTIVE. OVERRUN is not
touched (R163). -/
abbrev State.CompletedFrom (s t : State) (e : ErrCode) : Prop :=
  t.err = e ∧ t.busy = false ∧ t.done = true ∧ t.active = Option.none ∧ t.overrun = s.overrun

/-- The magnitude bits w are those of the finite binary32 magnitude nearest to m / 2^p, a tie going to the even significand
(00_scope.md R15): distances are compared in units of 2^-149 / 2^p. -/
abbrev NearestEven (w m p : Nat) : Prop :=
  ∀ v, v < infMag →
    ((m * 2 ^ 149 : Int) - (fMag (BitVec.ofNat 32 w) : Int) * 2 ^ p).natAbs ≤
        ((m * 2 ^ 149 : Int) - (fMag (BitVec.ofNat 32 v) : Int) * 2 ^ p).natAbs ∧
      (((m * 2 ^ 149 : Int) - (fMag (BitVec.ofNat 32 w) : Int) * 2 ^ p).natAbs =
          ((m * 2 ^ 149 : Int) - (fMag (BitVec.ofNat 32 v) : Int) * 2 ^ p).natAbs →
        v ≠ w → w % 2 = 0)

/-- The word is RT(x): +0 for an exact 0, and otherwise the finite binary32 datum nearest to x, with x's sign, a tie going to
the even significand (40_construction.md R104). -/
abbrev IsTableEntry (w : Word) (x : ℝ) : Prop :=
  (x = 0 → w = 0) ∧
  (x ≠ 0 → fExp w ≠ 255 ∧ (fSign w = true ↔ x < 0) ∧
    ∀ v, fExp v ≠ 255 →
      |x - (fValue w : ℝ) / 2 ^ 149| ≤ |x - (fValue v : ℝ) / 2 ^ 149| ∧
      (|x - (fValue w : ℝ) / 2 ^ 149| = |x - (fValue v : ℝ) / 2 ^ 149| → fValue v ≠ fValue w → fFrac w % 2 = 0))

/-- Every byte outside [lo, hi) reads as before. -/
abbrev SameOutside (lo hi : Nat) (m m' : List Host.Cell) : Prop :=
  ∀ a, ¬(lo ≤ a ∧ a < hi) → readByte m' a = readByte m a

/-- Every byte of data memory reads as before. -/
abbrev SameMem (m m' : List Host.Cell) : Prop := ∀ a, readByte m' a = readByte m a

end Sys2Proof.Machine
end

