-- ==== Sys2Proof/Certificates/Slice0/Obligations.lean ====
section
/-! DEFINITION. The statements for the provers, in the order of the spec's files. -/

open Sys2Proof Sys2Proof.Machine

/-! ### 00_scope.md: bit reversal and binary32 -/

/-- 00_scope.md R13; the last clause, that it is an involution, is the spec's own inference there. -/
def Obligations.BitReversalReversesEveryBit : Prop :=
  ∀ l i, i < 2 ^ l →
    revBits l i < 2 ^ l ∧
    (∀ b, b < l → (revBits l i).testBit b = i.testBit (l - 1 - b)) ∧
    revBits 0 0 = 0 ∧
    revBits l (revBits l i) = i

/-- 00_scope.md R15, with the sign. The least magnitude that rounds to 2^128 is (2^25 - 1) * 2^103. -/
def Obligations.RoundingIsToNearestEven : Prop :=
  ∀ (negative : Bool) (m p : Nat), 0 < m →
    fSign (rn32 negative m p) = negative ∧
    (rn32 negative m p).toNat % 2 ^ 31 ≤ infMag ∧
    ((rn32 negative m p).toNat % 2 ^ 31 = infMag ↔ (2 ^ 25 - 1) * 2 ^ 103 * 2 ^ p ≤ m) ∧
    ((rn32 negative m p).toNat % 2 ^ 31 < infMag → NearestEven ((rn32 negative m p).toNat % 2 ^ 31) m p)

/-- 00_scope.md R16, its five cases and fsub. -/
def Obligations.AdditionFollowsItsFiveCases : Prop :=
  ∀ a b : Word,
    (fIsNaN a = true ∨ fIsNaN b = true → fadd a b = 0x7FC00000) ∧
    (fIsInf a = true → fIsInf b = true → fadd a b = if fSign a = fSign b then a else 0x7FC00000) ∧
    (fIsInf a = true → fExp b ≠ 255 → fadd a b = a) ∧
    (fExp a ≠ 255 → fIsInf b = true → fadd a b = b) ∧
    (fExp a ≠ 255 → fExp b ≠ 255 → fValue a + fValue b ≠ 0 →
      fadd a b = rn32 (decide (fValue a + fValue b < 0)) (fValue a + fValue b).natAbs 149) ∧
    (fExp a ≠ 255 → fExp b ≠ 255 → fValue a + fValue b = 0 →
      fadd a b = if a = 0x80000000 ∧ b = 0x80000000 then 0x80000000 else 0x00000000) ∧
    fsub a b = fadd a (fneg b)

/-- 00_scope.md R17, its five cases, and that halving is exact unless a bit of a subnormal result is lost. -/
def Obligations.MultiplicationFollowsItsFiveCases : Prop :=
  ∀ a b : Word,
    (fIsNaN a = true ∨ fIsNaN b = true → fmul a b = 0x7FC00000) ∧
    (fIsInf a = true → fIsZero b = true → fmul a b = 0x7FC00000) ∧
    (fIsZero a = true → fIsInf b = true → fmul a b = 0x7FC00000) ∧
    (fIsInf a = true → fIsNaN b = false → fIsZero b = false → fmul a b = fPack (fSign a ^^ fSign b) infMag) ∧
    (fIsInf b = true → fIsNaN a = false → fIsZero a = false → fmul a b = fPack (fSign a ^^ fSign b) infMag) ∧
    (fIsZero a = true → fExp b ≠ 255 → fmul a b = fPack (fSign a ^^ fSign b) 0) ∧
    (fIsZero b = true → fExp a ≠ 255 → fmul a b = fPack (fSign a ^^ fSign b) 0) ∧
    (fExp a ≠ 255 → fExp b ≠ 255 → fIsZero a = false → fIsZero b = false →
      fmul a b = rn32 (fSign a ^^ fSign b) (fMag a * fMag b) 298) ∧
    (fExp b ≠ 255 → (2 ≤ fExp b ∨ fMag b % 2 = 0) → 2 * fValue (fmul half b) = fValue b)

/-- 00_scope.md R18: the sign bit flips, of a NaN too, and nothing else. -/
def Obligations.NegationFlipsTheSignOfAnyWord : Prop :=
  ∀ a : Word,
    fSign (fneg a) = !fSign a ∧ (fneg a).toNat % 2 ^ 31 = a.toNat % 2 ^ 31 ∧ fValue (fneg a) = -fValue a ∧
      fneg (fneg a) = a

/-- 00_scope.md R19, the arithmetic half. -/
def Obligations.NaNResultsAreCanonical : Prop :=
  ∀ a b : Word,
    (fIsNaN (fadd a b) = true → fadd a b = 0x7FC00000) ∧
    (fIsNaN (fsub a b) = true → fsub a b = 0x7FC00000) ∧
    (fIsNaN (fmul a b) = true → fmul a b = 0x7FC00000)

/-! ### 10_state.md and 70_reset_and_hazards.md: reset -/

/-- 10_state.md section 4; the values of the parameters, of memory and of the host's side at reset are the model's choice
(log entries 3, 4, 7 and 13), and nothing is said of them but PARAM's default. -/
def Obligations.ResetStateReadsAsTheTableSays : Prop :=
  (∀ r : Reg, readReg State.reset r =
    match r with
    | .id => 0x46465401
    | .param => 0x00000010
    | _ => 0x00000000) ∧
  State.reset.active = none ∧ irq State.reset = false

/-- 70_reset_and_hazards.md R166, R167: the RESET event from any state that meets the invariant. Memory is unchanged while BUSY = 0, and
outside the destination of an aborted command, whatever its checks would have found. That aborting an illegal word, or a command
with no configured N, changes no byte is the model's reading, which R167 does not state (log entry 5). -/
def Obligations.ResetEventClearsTheMachine : Prop :=
  ∀ (s : State) (rest : List Turn), s.Inv → s.schedule = .reset :: rest →
    ∃ t, step s = .next t ∧
      (∀ r : Reg, readReg t r = readReg { State.reset with params := s.params } r) ∧
      t.active = none ∧ irq t = false ∧ t.params = s.params ∧
      (s.busy = false → t.mem = s.mem) ∧
      ((∀ a i, s.active = some a → decode a.word = .ok i → i = .config ∨ s.configured = false) → t.mem = s.mem) ∧
      (∀ a i, s.active = some a → decode a.word = .ok i →
        SameOutside a.op.dstAddr.toNat (a.op.dstAddr.toNat + 4 * (usedWords i s.cfgN.toNat).2) s.mem t.mem)

/-- 70_reset_and_hazards.md R167: after a RESET that aborts a configured buffer command, whatever its checks would have found, each
word of its destination used region holds a value of its own that nothing constrains (log entry 7), and a distinct source is
unchanged. Where a command that would have reported ALIAS_ERROR or RANGE_ERROR has a destination that overlaps a distinct
source or passes the address space, the bytes of the source stay and those past the space do not exist (log entry 5). -/
def Obligations.AbortLeavesFreeWordsAndTheSource : Prop :=
  ∀ (s : State) (a : Active) (i : Instr), s.Inv → s.active = some a → decode a.word = .ok i → i ≠ .config →
    s.configured = true →
    let sa := a.op.srcAddr.toNat
    let da := a.op.dstAddr.toNat
    let su := (usedWords i s.cfgN.toNat).1
    let du := (usedWords i s.cfgN.toNat).2
    (∀ k b, k < du → b < 4 → da + 4 * k + b < 2 ^ 32 →
      (sa = da ∨ ¬(sa ≤ da + 4 * k + b ∧ da + 4 * k + b < sa + 4 * su)) →
      readByte (applyReset s).mem (da + 4 * k + b) = (Config.freeWord (s.freeCount + k)).extractLsb' (8 * b) 8) ∧
    (s.ChecksMet i a.op → ∀ k, k < du → getW (applyReset s).mem da k = Config.freeWord (s.freeCount + k)) ∧
    (applyReset s).freeCount = s.freeCount + du ∧
    (sa ≠ da → ∀ x, sa ≤ x → x < sa + 4 * su → readByte (applyReset s).mem x = readByte s.mem x)

/-! ### 10_state.md: registers -/

/-- 10_state.md R31, and the codes of 60_exceptions.md R153: the fields of a read of STATUS; and in every state ID reads its constant
(R29), PARAM the LOG2_NMAX of this synthesis, with zeros above bit 4 (R30), and CMD 0 (R32). -/
def Obligations.StatusReadsItsFields : Prop :=
  ∀ s : State,
    let v := readReg s .status
    v.getLsbD 0 = s.busy ∧ v.getLsbD 1 = s.done ∧ v.getLsbD 2 = s.configured ∧ v.getLsbD 3 = s.overrun ∧
      v.extractLsb' 4 4 = 0 ∧ v.extractLsb' 12 20 = 0 ∧
      (v.extractLsb' 8 4).toNat =
        (match s.err with
        | .none => 0
        | .constructionError => 1
        | .sizeMismatch => 2
        | .illegalCommand => 3
        | .notConfigured => 4
        | .alignError => 5
        | .rangeError => 6
        | .aliasError => 7) ∧
      (s.Inv → s.busy = true → v.getLsbD 1 = false ∧ v.extractLsb' 8 4 = 0) ∧
      readReg s .id = 0x46465401 ∧ readReg s .cmd = 0x00000000 ∧
      (s.params.wellFormed = true → (readReg s .param).toNat = s.params.log2NMax)

/-- 10_state.md R31: a write of v to STATUS clears DONE where v[1] = 1 and OVERRUN where v[3] = 1 and does nothing else. -/
def Obligations.StatusWriteClearsOnlyDoneAndOverrun : Prop :=
  ∀ (s : State) (rest : List HostOp) (v : Word),
    s.params.base % 4 = 0 → s.program = wr s.params .status v :: rest →
    hostStep s = .next { s with
      program := rest
      done := if v.getLsbD 1 = true then false else s.done
      overrun := if v.getLsbD 3 = true then false else s.overrun }

/-- 10_state.md R33, R36 to R42: a register of type RW reads back what was last written, IRQ_EN its bit 0 only, whatever BUSY
is. -/
def Obligations.WritableRegistersReadBack : Prop :=
  ∀ (s : State) (rest : List HostOp) (v : Word) (r : Reg), s.params.base % 4 = 0 →
    r ∈ [Reg.size, .srcAddr, .srcLen, .dstAddr, .dstLen, .irqEn, .twIdx, .brIdx] →
    s.program = wr s.params r v :: rest →
    ∃ t, hostStep s = .next t ∧ t.program = rest ∧ readReg t r = (if r = .irqEn then v &&& 1 else v) ∧
      t.busy = s.busy ∧ t.done = s.done ∧ t.active = s.active ∧ t.mem = s.mem ∧ s.SameConfig t

/-- 10_state.md R44(b): a register write changes only the register written; for CMD it changes STATUS. The read ports show what
the index registers select (R41, R42). -/
def Obligations.RegisterWriteChangesOnlyItsRegister : Prop :=
  ∀ (r : Reg) (v : Word) (s t : State), writeReg r v s = .next t →
    (∀ x : Reg, x ≠ r → (r = .cmd → x ≠ .status) → (r = .twIdx → x ≠ .twCos ∧ x ≠ .twSin) → (r = .brIdx → x ≠ .brVal) →
      readReg t x = readReg s x) ∧
    t.mem = s.mem ∧ t.params = s.params ∧ s.SameConfig t ∧ (r ≠ .cmd → t.active = s.active)

/-- 10_state.md R44(a): a register read transaction returns the register's value and has no side effect on FFTBP or on memory.
-/
def Obligations.RegisterReadHasNoSideEffect : Prop :=
  ∀ (s : State) (r : Reg), s.params.base % 4 = 0 →
    ∃ t, busReadReg (s.params.base + r.offset) 4 s = .next t ∧ t.responses = readReg s r :: s.responses ∧
      (∀ x : Reg, readReg t x = readReg s x) ∧ t.active = s.active ∧ t.mem = s.mem ∧ t.hostWrites = s.hostWrites ∧
      t.program = s.program

/-- 10_state.md R44(e): a register access in the block of another width or alignment is a fault of the host step. -/
def Obligations.OtherRegisterAccessesFault : Prop :=
  ∀ (s : State) (addr width : Nat) (v : Word),
    s.params.base ≤ addr → addr ≤ s.params.base + 0xFF → (width ≠ 4 ∨ addr % 4 ≠ 0) →
    busReadReg addr width s = .fault .registerAccess ∧ busWriteReg addr width v s = .fault .registerAccess

/-- 10_state.md R43: reserved offsets read 0 and ignore writes, with no side effect. -/
def Obligations.ReservedOffsetsReadZeroAndIgnoreWrites : Prop :=
  ∀ (s : State) (off : Nat) (v : Word), s.params.base % 4 = 0 → off % 4 = 0 → 0x44 ≤ off → off ≤ 0xFC →
    busReadReg (s.params.base + off) 4 s = .next { s with responses := 0x00000000 :: s.responses } ∧
    busWriteReg (s.params.base + off) 4 v s = .next s

/-- 10_state.md R34, 40_construction.md R101, 70_reset_and_hazards.md R173(b): the configuration changes only at the completion
of a successful CONFIG and at RESET. -/
def Obligations.OnlyConfigAndResetChangeTheConfiguration : Prop :=
  ∀ s t : State, step s = .next t →
    s.SameConfig t ∨
    (∃ rest, s.schedule = .reset :: rest) ∨
    (∃ a, s.busy = true ∧ s.active = some a ∧ a.word = 0x00000001 ∧ t.busy = false ∧ t.err = .none ∧
      t.configured = true ∧ t.cfgN = a.op.size)

/-! ### 20_memory.md -/

/-- 20_memory.md R47, R48: words are little-endian, and a word write changes no other byte. That a write keeps the canonical form of
the memory list is a clause about the model's own representation (log entry 4). -/
def Obligations.WordsAreLittleEndian : Prop :=
  ∀ (m : List Host.Cell) (a : Nat) (v : Word),
    (∀ b, b < 4 → (readWord m a).extractLsb' (8 * b) 8 = readByte m (a + b)) ∧
    (memWf m = true → a + 4 ≤ 2 ^ 32 →
      (∀ b, b < 4 → readByte (writeWord m a v) (a + b) = v.extractLsb' (8 * b) 8) ∧
      (∀ x, ¬(a ≤ x ∧ x < a + 4) → readByte (writeWord m a v) x = readByte m x) ∧
      memWf (writeWord m a v) = true)

/-- 30_encoding.md R75, 20_memory.md R55: a host word write to free, normal memory is followed by a word read that returns it, and by
byte reads that return its bytes. -/
def Obligations.HostWordWriteReadsBack : Prop :=
  ∀ (s : State) (a v : Word), memWf s.mem = true → a.toNat % 4 = 0 → s.hazards = [] → s.params.notNormal = [] →
    ∃ t, busMemWrite a v s = .next t ∧ busMemRead a t = .next (respond v t) ∧
      (∀ b, b < 4 → busByteRead (a + BitVec.ofNat 32 b) t = .next (respond ((v.extractLsb' (8 * b) 8).setWidth 32) t)) ∧
      SameOutside a.toNat (a.toNat + 4) s.mem t.mem ∧ t.active = s.active ∧ (∀ r : Reg, readReg t r = readReg s r)

/-- 20_memory.md R58, 70_reset_and_hazards.md R170, 60_exceptions.md R165(e), with the word accesses of 30_encoding.md R75 and byte
accesses: while a command is active, a host write to either used region and a host read of the destination are faults of the
host, if a single byte is shared; a read of a distinct source returns it. -/
def Obligations.BuffersInUseAreClosedToTheHost : Prop :=
  ∀ (s : State) (a : Active) (src dst : Region) (x : Word), s.Inv → s.active = some a →
    commandRegions s a.word a.op = some (src, dst) →
    (regionHas src x.toNat = true ∨ regionHas dst x.toNat = true →
      ∀ v : Byte, busByteWrite x v s = .fault .bufferInUse) ∧
    (regionHas dst x.toNat = true → busByteRead x s = .fault .bufferInUse) ∧
    (x.toNat % 4 = 0 → (∃ b, b < 4 ∧ (regionHas src (x.toNat + b) = true ∨ regionHas dst (x.toNat + b) = true)) →
      ∀ v : Word, busMemWrite x v s = .fault .bufferInUse) ∧
    (x.toNat % 4 = 0 → (∃ b, b < 4 ∧ regionHas dst (x.toNat + b) = true) → busMemRead x s = .fault .bufferInUse) ∧
    (s.hazards = [{ src := src, dst := dst, phase := .running, invalidated := false }] → s.params.notNormal = [] →
      src.base ≠ dst.base →
      (regionHas dst x.toNat = false → busByteRead x s = .next (respond ((readByte s.mem x.toNat).setWidth 32) s)) ∧
      (x.toNat % 4 = 0 → (∀ b, b < 4 → regionHas dst (x.toNat + b) = false) →
        busMemRead x s = .next (respond (readWord s.mem x.toNat) s)))

/-- 20_memory.md R56, 70_reset_and_hazards.md R170: what the engine reads at completion is what the host had written before the
accepted CMD write: no step of the host changes a byte of the active command's buffers, nor the command. -/
def Obligations.HostCannotDisturbAnActiveCommand : Prop :=
  ∀ (s t : State) (a : Active) (src dst : Region), s.Inv → s.active = some a →
    commandRegions s a.word a.op = some (src, dst) → hostStep s = .next t →
    t.active = some a ∧ s.SameConfig t ∧
      ∀ x, (regionHas src x = true ∨ regionHas dst x = true) → readByte t.mem x = readByte s.mem x

/-- 20_memory.md R53(a), R49, 10_state.md R28: the frame of every command. Outside the destination used region, computed as the
command computes it, every byte reads as before; an error leaves all of memory and the configuration; only CONFIG writes the
configuration; when sa != da no byte of the source used region is written. -/
def Obligations.CommandsChangeOnlyTheirDestination : Prop :=
  ∀ (i : Instr) (s t : State) (a : Active), s.Inv → s.active = some a → exec i s = .next t →
    s.CompletedFrom t t.err ∧ s.SameHostRegs t ∧ s.SameHostSide t ∧
    (i ≠ .config ∨ t.err ≠ .none → s.SameConfig t) ∧
    (i = .config ∨ t.err ≠ .none → t.mem = s.mem) ∧
    SameOutside a.op.dstAddr.toNat (a.op.dstAddr.toNat + 4 * (usedWords i s.cfgN.toNat).2) s.mem t.mem ∧
    (a.op.srcAddr ≠ a.op.dstAddr → ∀ x, a.op.srcAddr.toNat ≤ x →
      x < a.op.srcAddr.toNat + 4 * (usedWords i s.cfgN.toNat).1 → readByte t.mem x = readByte s.mem x)

/-- 20_memory.md R53(c), 41_complex_transforms.md R122(b), 42_real_transforms.md R141: the words a buffer command leaves in its
destination are a function of the source words it reads alone. Two runs, each in place or between disjoint buffers, whose
sources hold the same words (for SPLIT and IFFT_REAL but for words 1 and N+1) leave the same words. -/
def Obligations.ResultDependsOnlyOnTheSourceWords : Prop :=
  ∀ (i : Instr) (g g' : Geometry) (m m' : List Host.Cell), i ≠ .config →
    1 ≤ g.nBits → g.n = 2 ^ g.nBits → g'.nBits = g.nBits → g'.n = g.n →
    memWf m = true → memWf m' = true →
    g.da + 4 * (usedWords i g.n).2 ≤ 2 ^ 32 → g'.da + 4 * (usedWords i g.n).2 ≤ 2 ^ 32 →
    InPlaceOrDisjoint g.sa (usedWords i g.n).1 g.da (usedWords i g.n).2 →
    InPlaceOrDisjoint g'.sa (usedWords i g.n).1 g'.da (usedWords i g.n).2 →
    (∀ k, k < (usedWords i g.n).1 → (i = .split ∨ i = .ifftReal → k ≠ 1 ∧ k ≠ g.n + 1) →
      getW m g.sa k = getW m' g'.sa k) →
    ∀ k, k < (usedWords i g.n).2 → getW (bodyOf i g m) g.da k = getW (bodyOf i g' m') g'.da k

/-! ### 30_encoding.md -/

/-- 30_encoding.md section 1: the sixteen words with zero reserved bits. -/
def Obligations.OpcodeMapWordsDecode : Prop :=
  decode 0x00000001 = .ok .config ∧ decode 0x00000002 = .ok .fft ∧ decode 0x00000003 = .ok .ifft ∧
  decode 0x00000004 = .ok .fftReal ∧ decode 0x00000005 = .ok .ifftReal ∧ decode 0x00000006 = .ok .bitrev ∧
  decode 0x00000007 = .ok .bflyFwd ∧ decode 0x00000008 = .ok .bflyInv ∧ decode 0x00000009 = .ok .combine ∧
  decode 0x0000000A = .ok .split ∧
  ∀ w ∈ ([0x00000000, 0x0000000B, 0x0000000C, 0x0000000D, 0x0000000E, 0x0000000F] : List Word),
    decode w = .error .reservedOpcode

/-- 30_encoding.md R67, R68, R70, R71: each command has exactly one word, of all 2^32, and every other word is rejected. -/
def Obligations.EachCommandHasExactlyOneWord : Prop :=
  (∀ (w : Word) (i : Instr), decode w = .ok i ↔ w = encode i) ∧
  ∀ w : Word, (∃ r, decode w = .error r) ↔
    (w.extractLsb' 4 28 ≠ 0 ∨ (w.extractLsb' 0 4).toNat ∈ [0x0, 0xB, 0xC, 0xD, 0xE, 0xF])

/-- 30_encoding.md R69, 60_exceptions.md R157: an illegal word is accepted like any word, and completes with ILLEGAL_COMMAND and no
memory access, whatever CONFIGURED and the operand registers are. -/
def Obligations.IllegalWordsAreAcceptedAndCompleteWithCodeThree : Prop :=
  ∀ w : Word, (w.extractLsb' 4 28 ≠ 0 ∨ (w.extractLsb' 0 4).toNat ∈ [0x0, 0xB, 0xC, 0xD, 0xE, 0xF]) →
    (∀ s : State, s.busy = false → submit w s = .next (accept w s)) ∧
    (∀ (s : State) (a : Active), s.busy = true → s.active = some a → a.word = w →
      ∃ t, engineStep s = .next t ∧ s.CompletedFrom t .illegalCommand ∧ t.mem = s.mem ∧ s.SameConfig t ∧
        s.SameHostRegs t)

/-- 30_encoding.md R77: WAIT reads STATUS, ends once the value read has BUSY = 0, and otherwise repeats. -/
def Obligations.WaitRepeatsWhileBusy : Prop :=
  ∀ (s : State) (rest : List HostOp), s.program = .wait :: rest →
    ∃ t, hostStep s = .next t ∧ t.responses = statusWord s :: s.responses ∧
      t.program = (if s.busy = true then .wait :: rest else rest) ∧
      (∀ r : Reg, readReg t r = readReg s r) ∧ t.active = s.active ∧ t.mem = s.mem

/-! ### 40_construction.md -/

/-- 40_construction.md R100, R101, 60_exceptions.md R161: CONFIG accepts exactly the powers of two 2^k with 1 <= k <= LOG2_NMAX, and
leaves the configuration alone otherwise. -/
def Obligations.ConfigAcceptsExactlyThePowersOfTwo : Prop :=
  ∀ (s : State) (a : Active), s.active = some a → s.params.wellFormed = true →
    (∀ k, 1 ≤ k → k ≤ s.params.log2NMax → a.op.size.toNat = 2 ^ k →
      ∃ t, exec .config s = .next t ∧ s.CompletedFrom t .none ∧ t.configured = true ∧ t.cfgN = a.op.size ∧
        t.cfgNbits.toNat = k ∧ t.mem = s.mem ∧ s.SameHostRegs t ∧ s.SameHostSide t) ∧
    ((¬∃ k, 1 ≤ k ∧ k ≤ s.params.log2NMax ∧ a.op.size.toNat = 2 ^ k) →
      ∃ t, exec .config s = .next t ∧ s.CompletedFrom t .constructionError ∧ s.SameConfig t ∧ t.mem = s.mem ∧
        s.SameHostRegs t ∧ s.SameHostSide t)

/-- 40_construction.md R103, R104: every table entry is the correctly rounded exact cosine or sine. -/
def Obligations.TwiddleTablesAreCorrectlyRounded : Prop :=
  ∀ nBits i, 1 ≤ nBits → i < 2 ^ (nBits - 1) →
    IsTableEntry (cosF nBits i) (Real.cos (2 * Real.pi * i / 2 ^ (nBits - 1))) ∧
    IsTableEntry (sinF nBits i) (Real.sin (-(2 * Real.pi * i / 2 ^ (nBits - 1)))) ∧
    IsTableEntry (cosH nBits i) (Real.cos (2 * Real.pi * i / 2 ^ nBits)) ∧
    IsTableEntry (sinH nBits i) (Real.sin (-(2 * Real.pi * i / 2 ^ nBits)))

/-- 40_construction.md R105: what the ROM of N_MAX = 2^p entries holds, and that for a configured N it serves the logical tables by
stride h = N_MAX/N. The model defines the logical tables by R103, so that the strided words equal them, and that every index is
below N_MAX, are what R105 itself infers from R103 and R104. -/
def Obligations.RomStridesServeTheTables : Prop :=
  (∀ p j, j < 2 ^ p →
    IsTableEntry (romC p j) (Real.cos (2 * Real.pi * j / 2 ^ p)) ∧
    IsTableEntry (romS p j) (Real.sin (-(2 * Real.pi * j / 2 ^ p)))) ∧
  ∀ p nBits i, 1 ≤ nBits → nBits ≤ p → i < 2 ^ (nBits - 1) →
    let h := 2 ^ p / 2 ^ nBits
    2 * h * i < 2 ^ p ∧
    cosF nBits i = romC p (2 * h * i) ∧ sinF nBits i = romS p (2 * h * i) ∧
    cosH nBits i = romC p (h * i) ∧ sinH nBits i = romS p (h * i)

/-- 40_construction.md R109(a) to (d). -/
def Obligations.TableIdentities : Prop :=
  ∀ nBits, 1 ≤ nBits →
    let m := 2 ^ (nBits - 1)
    (∀ i, 2 * i < m → cosF nBits i = cosH nBits (2 * i) ∧ sinF nBits i = sinH nBits (2 * i)) ∧
    (cosF nBits 0 = 0x3F800000 ∧ cosH nBits 0 = 0x3F800000 ∧ sinF nBits 0 = 0 ∧ sinH nBits 0 = 0) ∧
    (∀ i, 0 < i → i < m → 2 * i ≠ m → cosH nBits (m - i) = fneg (cosH nBits i) ∧ sinH nBits (m - i) = sinH nBits i) ∧
    (2 ≤ m → cosH nBits (m / 2) = 0 ∧ sinH nBits (m / 2) = 0xBF800000)

/-- 40_construction.md R107, R108: what the read ports return, at any time and with no side effect on FFTBP. -/
def Obligations.ReadPortsShowTheTables : Prop :=
  ∀ s : State, s.params.base % 4 = 0 →
    (∃ t, busReadReg (s.params.base + 0x34) 4 s = .next t ∧ t.active = s.active ∧ t.mem = s.mem ∧
      (∀ r : Reg, readReg t r = readReg s r) ∧
      t.responses =
        (if s.configured = false ∨ s.cfgN.toNat / 2 ≤ s.twIdx.toNat % 2 ^ 31 then 0
        else if s.twIdx.toNat < 2 ^ 31 then cosF s.cfgNbits.toNat (s.twIdx.toNat % 2 ^ 31)
        else cosH s.cfgNbits.toNat (s.twIdx.toNat % 2 ^ 31)) :: s.responses) ∧
    (∃ t, busReadReg (s.params.base + 0x38) 4 s = .next t ∧ t.active = s.active ∧ t.mem = s.mem ∧
      (∀ r : Reg, readReg t r = readReg s r) ∧
      t.responses =
        (if s.configured = false ∨ s.cfgN.toNat / 2 ≤ s.twIdx.toNat % 2 ^ 31 then 0
        else if s.twIdx.toNat < 2 ^ 31 then sinF s.cfgNbits.toNat (s.twIdx.toNat % 2 ^ 31)
        else sinH s.cfgNbits.toNat (s.twIdx.toNat % 2 ^ 31)) :: s.responses) ∧
    (∃ t, busReadReg (s.params.base + 0x40) 4 s = .next t ∧ t.active = s.active ∧ t.mem = s.mem ∧
      (∀ r : Reg, readReg t r = readReg s r) ∧
      t.responses =
        (if s.configured = false ∨ s.cfgN.toNat / 2 ≤ s.brIdx.toNat then 0
        else BitVec.ofNat 32 (revBits (s.cfgNbits.toNat - 1) s.brIdx.toNat)) :: s.responses)

/-! ### 41_complex_transforms.md -/

/-- 41_complex_transforms.md R115, R111: BITREV completes and leaves C(da, i) = C_old(sa, rev_L(i)), in place or not. -/
def Obligations.BitrevPermutesEveryElement : Prop :=
  ∀ (s : State) (a : Active), s.Inv → s.active = some a → s.MayRun .bitrev a.op →
    ∃ t, exec .bitrev s = .next t ∧ s.CompletedFrom t .none ∧
      ∀ i, i < s.cfgN.toNat / 2 →
        getC t.mem a.op.dstAddr.toNat i = getC s.mem a.op.srcAddr.toNat (revBits (s.cfgNbits.toNat - 1) i)

/-- 41_complex_transforms.md R116, R117: BFLY_FWD and BFLY_INV complete with COPY and then STAGES. -/
def Obligations.ButterflyCommandsCopyThenRunTheStages : Prop :=
  ∀ (s : State) (a : Active), s.active = some a →
    let sa := a.op.srcAddr.toNat
    let da := a.op.dstAddr.toNat
    let n := s.cfgN.toNat
    (s.MayRun .bflyFwd a.op → exec .bflyFwd s = .next (complete .none
      { s with mem := stages s.cfgNbits.toNat (n / 2) da false (copyWords sa da n s.mem) })) ∧
    (s.MayRun .bflyInv a.op → exec .bflyInv s = .next (complete .none
      { s with mem := stages s.cfgNbits.toNat (n / 2) da true (copyWords sa da n s.mem) }))

/-- 41_complex_transforms.md R118, R119: FFT and IFFT complete with PERMUTE and then STAGES, and no scaling. -/
def Obligations.FftAndIfftPermuteThenRunTheStages : Prop :=
  ∀ (s : State) (a : Active), s.active = some a →
    let sa := a.op.srcAddr.toNat
    let da := a.op.dstAddr.toNat
    let n := s.cfgN.toNat
    let nBits := s.cfgNbits.toNat
    (s.MayRun .fft a.op → exec .fft s = .next (complete .none
      { s with mem := stages nBits (n / 2) da false (permute (nBits - 1) (n / 2) sa da s.mem) })) ∧
    (s.MayRun .ifft a.op → exec .ifft s = .next (complete .none
      { s with mem := stages nBits (n / 2) da true (permute (nBits - 1) (n / 2) sa da s.mem) }))

/-- 41_complex_transforms.md R110: COPY moves n words bit for bit, and does nothing else; in place it does nothing. -/
def Obligations.CopyMovesWordsBitForBit : Prop :=
  ∀ (sa da n : Nat) (m : List Host.Cell), memWf m = true → da + 4 * n ≤ 2 ^ 32 → InPlaceOrDisjoint sa n da n →
    (∀ k, k < n → getW (copyWords sa da n m) da k = getW m sa k ∧ getW (copyWords sa da n m) sa k = getW m sa k) ∧
    SameOutside da (da + 4 * n) m (copyWords sa da n m) ∧ (sa = da → copyWords sa da n m = m)

/-- 41_complex_transforms.md R113, R114: within one stage every butterfly works on the values from before the stage, and the pairs
cover every element, so the butterflies may run in any order; and STAGES is stage 1, then 2, ..., then L: wherever f 0 is the
memory before and f (s + 1) is what stage s + 1 makes of f s, STAGES leaves f L, and for L = 0 the memory as it was. -/
def Obligations.StageAppliesEveryButterflyOnce : Prop :=
  (∀ (nBits points da : Nat) (inverse : Bool) (m : List Host.Cell) (f : Nat → List Host.Cell),
    f 0 = m → (∀ s, s < nBits - 1 → f (s + 1) = stage nBits points da inverse (s + 1) (f s)) →
    stages nBits points da inverse m = f (nBits - 1)) ∧
  ∀ (nBits da s : Nat) (inverse : Bool) (m : List Host.Cell), 1 ≤ s → s ≤ nBits - 1 → memWf m = true →
    da + 4 * 2 ^ nBits ≤ 2 ^ 32 →
    (∀ block j, block < 2 ^ (nBits - 1) / 2 ^ s → j < 2 ^ (s - 1) →
      let lo := block * 2 ^ s + j
      let hi := lo + 2 ^ (s - 1)
      let k := j * (2 ^ (nBits - 1) / 2 ^ s)
      let wi := if inverse = true then fneg (sinF nBits k) else sinF nBits k
      let out := butterfly (getC m da lo) (getC m da hi) (cosF nBits k) wi
      getC (stage nBits (2 ^ (nBits - 1)) da inverse s m) da lo = out.1 ∧
        getC (stage nBits (2 ^ (nBits - 1)) da inverse s m) da hi = out.2) ∧
    (∀ e, e < 2 ^ (nBits - 1) → ∃ block j, block < 2 ^ (nBits - 1) / 2 ^ s ∧ j < 2 ^ (s - 1) ∧
      (e = block * 2 ^ s + j ∨ e = block * 2 ^ s + j + 2 ^ (s - 1)))

/-- 41_complex_transforms.md R112, R118, R119 at N = 4: one butterfly, whose twiddle (1, 0) is multiplied like any other, with -0
for the inverse. -/
def Obligations.TwoPointTransformIsOneButterfly : Prop :=
  ∀ (inverse : Bool) (sa da : Nat) (m : List Host.Cell), memWf m = true → da + 16 ≤ 2 ^ 32 → InPlaceOrDisjoint sa 4 da 4 →
    let g : Geometry := { sa := sa, da := da, n := 4, nBits := 2 }
    let w : Nat → Word := getW m sa
    let wi : Word := if inverse = true then 0x80000000 else 0x00000000
    let tr := fsub (fmul 0x3F800000 (w 2)) (fmul wi (w 3))
    let ti := fadd (fmul 0x3F800000 (w 3)) (fmul wi (w 2))
    getC (fftBody inverse g m) da 0 = (fadd (w 0) tr, fadd (w 1) ti) ∧
      getC (fftBody inverse g m) da 1 = (fsub (w 0) tr, fsub (w 1) ti)

/-- 41_complex_transforms.md R118 corner case, R122(d): at N = 2 FFT, IFFT, BFLY_FWD, BFLY_INV and BITREV copy the pair bit for
bit. -/
def Obligations.OnePointTransformsCopyThePair : Prop :=
  ∀ (i : Instr) (sa da : Nat) (m : List Host.Cell), i ∈ [Instr.fft, .ifft, .bitrev, .bflyFwd, .bflyInv] →
    memWf m = true → da + 8 ≤ 2 ^ 32 → InPlaceOrDisjoint sa 2 da 2 →
    ∀ k, k < 2 → getW (bodyOf i { sa := sa, da := da, n := 2, nBits := 1 } m) da k = getW m sa k

/-- 41_complex_transforms.md R122(a): FFT leaves what BITREV and then BFLY_FWD in place on its result leave, and IFFT what BITREV
and then BFLY_INV leave. -/
def Obligations.TransformsAreBitrevThenButterflies : Prop :=
  ∀ (s t : State) (a : Active), s.Inv → s.active = some a → s.MayRun .bitrev a.op → exec .bitrev s = .next t →
    let again : State :=
      { t with busy := true, done := false
               active := some { word := 0x00000007, op := { a.op with srcAddr := a.op.dstAddr, srcLen := a.op.dstLen } } }
    (∃ u v, exec .bflyFwd again = .next u ∧ exec .fft s = .next v ∧ u.err = .none ∧ v.err = .none ∧ u.mem = v.mem) ∧
    (∃ u v, exec .bflyInv again = .next u ∧ exec .ifft s = .next v ∧ u.err = .none ∧ v.err = .none ∧ u.mem = v.mem)

/-! ### 42_real_transforms.md -/

/-- 42_real_transforms.md R143, R140: COMBINE completes; each pair of bins i and M-i is that of the original elements, the middle
bin keeps the second result, the boundary bins are the sum and the difference of element 0, and words 1 and N+1 are +0. -/
def Obligations.CombineGivesTheRealSpectrum : Prop :=
  ∀ (s : State) (a : Active), s.Inv → s.active = some a → s.MayRun .combine a.op →
    let n := s.cfgN.toNat
    let m := n / 2
    let z : Nat → Word × Word := getC s.mem a.op.srcAddr.toNat
    ∃ t, exec .combine s = .next t ∧ s.CompletedFrom t .none ∧
      (∀ i, 1 ≤ i → 2 * i < m →
        let out := combinePair (z i) (z (m - i)) (cosH s.cfgNbits.toNat i) (sinH s.cfgNbits.toNat i)
        getC t.mem a.op.dstAddr.toNat i = out.1 ∧ getC t.mem a.op.dstAddr.toNat (m - i) = out.2) ∧
      (2 ≤ m → getC t.mem a.op.dstAddr.toNat (m / 2) =
        (combinePair (z (m / 2)) (z (m / 2)) (cosH s.cfgNbits.toNat (m / 2)) (sinH s.cfgNbits.toNat (m / 2))).2) ∧
      getW t.mem a.op.dstAddr.toNat 0 = fadd (z 0).1 (z 0).2 ∧
      getW t.mem a.op.dstAddr.toNat n = fsub (z 0).1 (z 0).2 ∧
      getW t.mem a.op.dstAddr.toNat 1 = 0x00000000 ∧ getW t.mem a.op.dstAddr.toNat (n + 1) = 0x00000000

/-- 42_real_transforms.md R144, R141: SPLIT completes; each pair of elements i and M-i is that of the original bins, the middle
element keeps the second result, and element 0 is half the sum and half the difference of words 0 and N. -/
def Obligations.SplitGivesTheFoldedSpectrum : Prop :=
  ∀ (s : State) (a : Active), s.Inv → s.active = some a → s.MayRun .split a.op →
    let n := s.cfgN.toNat
    let m := n / 2
    let x : Nat → Word × Word := getC s.mem a.op.srcAddr.toNat
    let w : Nat → Word := getW s.mem a.op.srcAddr.toNat
    ∃ t, exec .split s = .next t ∧ s.CompletedFrom t .none ∧
      (∀ i, 1 ≤ i → 2 * i < m →
        let out := splitPair (x i) (x (m - i)) (cosH s.cfgNbits.toNat i) (sinH s.cfgNbits.toNat i)
        getC t.mem a.op.dstAddr.toNat i = out.1 ∧ getC t.mem a.op.dstAddr.toNat (m - i) = out.2) ∧
      (2 ≤ m → getC t.mem a.op.dstAddr.toNat (m / 2) =
        (splitPair (x (m / 2)) (x (m / 2)) (cosH s.cfgNbits.toNat (m / 2)) (sinH s.cfgNbits.toNat (m / 2))).2) ∧
      getC t.mem a.op.dstAddr.toNat 0 = (fmul half (fadd (w 0) (w n)), fmul half (fsub (w 0) (w n)))

/-- 42_real_transforms.md R145, R146: FFT_REAL and IFFT_REAL complete with their sequences of primitives. -/
def Obligations.RealTransformsRunTheirPrimitives : Prop :=
  ∀ (s : State) (a : Active), s.active = some a →
    let sa := a.op.srcAddr.toNat
    let da := a.op.dstAddr.toNat
    let n := s.cfgN.toNat
    let nBits := s.cfgNbits.toNat
    (s.MayRun .fftReal a.op → exec .fftReal s = .next (complete .none
      { s with mem := combineInPlace nBits n da
                 (stages nBits (n / 2) da false (permute (nBits - 1) (n / 2) sa da s.mem)) })) ∧
    (s.MayRun .ifftReal a.op → exec .ifftReal s = .next (complete .none
      { s with mem := stages nBits (n / 2) da true
                 (permute (nBits - 1) (n / 2) da da (splitSpectrum nBits n sa da s.mem)) }))

/-- 42_real_transforms.md R149(a), R143, R144: FFT_REAL into any buffer leaves the words that COMBINE leaves from the result of FFT,
and IFFT_REAL those that IFFT leaves from the result of SPLIT, whatever buffers lie between, in place or not. -/
def Obligations.RealTransformsAreCompositions : Prop :=
  ∀ (nBits n sa mid da out : Nat) (m : List Host.Cell), 1 ≤ nBits → n = 2 ^ nBits → memWf m = true →
    mid + 4 * (n + 2) ≤ 2 ^ 32 → da + 4 * (n + 2) ≤ 2 ^ 32 → out + 4 * (n + 2) ≤ 2 ^ 32 →
    InPlaceOrDisjoint sa (n + 2) mid (n + 2) → InPlaceOrDisjoint mid (n + 2) da (n + 2) →
    InPlaceOrDisjoint sa (n + 2) out (n + 2) →
    let first : Geometry := { sa := sa, da := mid, n := n, nBits := nBits }
    let second : Geometry := { sa := mid, da := da, n := n, nBits := nBits }
    let whole : Geometry := { sa := sa, da := out, n := n, nBits := nBits }
    (∀ k, k < n + 2 → getW (fftRealBody whole m) out k = getW (combineBody second (fftBody false first m)) da k) ∧
    (∀ k, k < n → getW (ifftRealBody whole m) out k = getW (fftBody true second (splitBody first m)) da k)

/-- 42_real_transforms.md R145 corner case, R149(b): FFT_REAL leaves words 1 and N+1 exactly +0 for any input, NaN and infinity
included, and for N = 2 the sum and the difference. -/
def Obligations.RealTransformForcesItsZeros : Prop :=
  ∀ (s t : State) (a : Active), s.Inv → s.active = some a → exec .fftReal s = .next t → t.err = .none →
    getW t.mem a.op.dstAddr.toNat 1 = 0x00000000 ∧
    getW t.mem a.op.dstAddr.toNat (s.cfgN.toNat + 1) = 0x00000000 ∧
    (s.cfgN = 2 →
      getW t.mem a.op.dstAddr.toNat 0 =
        fadd (getW s.mem a.op.srcAddr.toNat 0) (getW s.mem a.op.srcAddr.toNat 1) ∧
      getW t.mem a.op.dstAddr.toNat 2 =
        fsub (getW s.mem a.op.srcAddr.toNat 0) (getW s.mem a.op.srcAddr.toNat 1))

/-! ### 60_exceptions.md -/

/-- 60_exceptions.md R150: a CMD write while BUSY = 1 is dropped with OVERRUN set; any other, once the host's ordering duties of
70_reset_and_hazards.md R171 are met, is accepted, whatever its word, and snapshots the operands. -/
def Obligations.AcceptedCommandSnapshotsTheOperands : Prop :=
  ∀ (s : State) (rest : List HostOp) (w : Word), s.params.base % 4 = 0 → s.program = wr s.params .cmd w :: rest →
    (s.busy = true → hostStep s = .next { s with program := rest, overrun := true }) ∧
    (s.busy = false → orderingOwed s w = false →
    ∃ t, hostStep s = .next t ∧ t.program = rest ∧
      t.active = some { word := w, op := { size := s.size, srcAddr := s.srcAddr, srcLen := s.srcLen,
                                           dstAddr := s.dstAddr, dstLen := s.dstLen } } ∧
      t.busy = true ∧ t.done = false ∧ t.err = .none ∧ t.overrun = s.overrun ∧ s.SameConfig t ∧ s.SameHostRegs t ∧
      t.mem = s.mem)

/-- 60_exceptions.md R163: a CMD write while BUSY = 1 is dropped and sets OVERRUN, and changes nothing else; OVERRUN stays 1 over every
step but a RESET and a host write to STATUS with bit 3 set; it raises no interrupt. -/
def Obligations.CmdWriteWhileBusyOnlySetsOverrun : Prop :=
  (∀ (s : State) (rest : List HostOp) (w : Word), s.params.base % 4 = 0 → s.program = wr s.params .cmd w :: rest →
    s.busy = true → hostStep s = .next { s with program := rest, overrun := true }) ∧
  (∀ s t : State, step s = .next t → s.overrun = true →
    t.overrun = true ∨ (∃ rest, s.schedule = .reset :: rest) ∨
      ∃ v rest, s.program = wr s.params .status v :: rest ∧ t.program = rest ∧ v.getLsbD 3 = true) ∧
  (∀ (s t : State) (i : Instr), exec i s = .next t → t.overrun = s.overrun) ∧
  (∀ s : State, irq { s with overrun := true } = irq s)

/-- 60_exceptions.md R151, 70_reset_and_hazards.md R168: with its buffers in normal memory, an active command completes in the next
step of the engine, and once the schedule is used up that step is the machine's next. -/
def Obligations.ActiveCommandCompletes : Prop :=
  ∀ (s : State), s.Inv → s.busy = true → s.params.notNormal = [] →
    ∃ t, engineStep s = .next t ∧ t.busy = false ∧ t.done = true ∧ t.active = none ∧
      (s.schedule = [] → step s = .next t)

/-- 60_exceptions.md R152, 70_reset_and_hazards.md R172, 10_state.md R45: the active command uses its snapshot. Other values in the
operand registers change neither its error code, nor memory, nor the configuration it leaves. -/
def Obligations.ActiveCommandIgnoresTheOperandRegisters : Prop :=
  ∀ (i : Instr) (s t : State) (size srcAddr srcLen dstAddr dstLen : Word), exec i s = .next t →
    exec i { s with size := size, srcAddr := srcAddr, srcLen := srcLen, dstAddr := dstAddr, dstLen := dstLen } =
      .next { t with size := size, srcAddr := srcAddr, srcLen := srcLen, dstAddr := dstAddr, dstLen := dstLen }

/-- 60_exceptions.md R152: an error changes STATUS and discards ACTIVE, and nothing else. -/
def Obligations.ErrorsChangeOnlyStatus : Prop :=
  ∀ (i : Instr) (s t : State), exec i s = .next t → t.err ≠ .none →
    t.busy = false ∧ t.done = true ∧ t.active = none ∧ t.mem = s.mem ∧ s.SameConfig t ∧ s.SameHostRegs t ∧
      s.SameHostSide t ∧ t.overrun = s.overrun ∧ ∀ r : Reg, r ≠ .status → readReg t r = readReg s r

/-- 60_exceptions.md R154 to R160, 30_encoding.md R73, 20_memory.md R50 to R52: a command other than CONFIG reports the first check
that fails, in this order, with the used regions of the table of 20_memory.md R49. -/
def Obligations.FirstFailingCheckIsReported : Prop :=
  (∀ (i : Instr) (n : Nat),
    match i with
    | .config => usedWords i n = (0, 0)
    | .fft | .ifft | .bitrev | .bflyFwd | .bflyInv => usedWords i n = (n, n)
    | .fftReal | .combine => usedWords i n = (n, n + 2)
    | .ifftReal | .split => usedWords i n = (n + 2, n)) ∧
  ∀ (i : Instr) (s : State) (a : Active), i ≠ .config → s.active = some a →
    let n := s.cfgN.toNat
    let sa := a.op.srcAddr.toNat
    let da := a.op.dstAddr.toNat
    let su := (usedWords i n).1
    let du := (usedWords i n).2
    let report (e : ErrCode) : Prop := ∃ t, exec i s = .next t ∧ s.CompletedFrom t e ∧ t.mem = s.mem
    let lengths := LengthContract i a.op.srcLen.toNat a.op.dstLen.toNat n
    let aligned := sa % 4 = 0 ∧ da % 4 = 0
    let overlapping := sa ≠ da ∧ sa < da + 4 * du ∧ da < sa + 4 * su
    (s.configured = false → report .notConfigured) ∧
    (s.configured = true → ¬lengths → report .sizeMismatch) ∧
    (s.configured = true → lengths → ¬aligned → report .alignError) ∧
    (s.configured = true → lengths → aligned → ¬InDmaWindow s.params sa su da du → report .rangeError) ∧
    (s.configured = true → lengths → aligned → InDmaWindow s.params sa su da du → overlapping → report .aliasError) ∧
    (s.configured = true → lengths → aligned → InDmaWindow s.params sa su da du → ¬overlapping → s.ChecksMet i a.op)

/-- 60_exceptions.md R162(d), 93_implementation_defined.md behaviours 9 and 10: a command that passes its checks stops only where a
used region is not normal memory, and then with a fault of the engine. -/
def Obligations.CommandsStopOnlyOutsideNormalMemory : Prop :=
  ∀ (i : Instr) (s : State) (a : Active), s.active = some a →
    (∀ f, exec i s = .fault f ↔ i ≠ .config ∧ f = .engineBusError ∧ s.ChecksMet i a.op ∧ touchesNotNormal s i a.op = true) ∧
    ∀ r, exec i s ≠ .refused r

/-- 60_exceptions.md R164: IRQ is the level DONE AND DONE_IE: a completion raises it when enabled, with an error or not; enabling
afterwards raises it at once; ACK, acceptance, disabling and RESET lower it. -/
def Obligations.InterruptIsTheLevelOfDoneAndEnable : Prop :=
  (∀ s : State, irqOutput s = (s.params.irqLine, s.done && s.irqEn)) ∧
  (∀ (i : Instr) (s t : State), exec i s = .next t → irq t = s.irqEn) ∧
  (∀ (s t : State) (v : Word), writeReg .irqEn v s = .next t → t.done = s.done ∧ irq t = (s.done && v.getLsbD 0)) ∧
  (∀ (s t : State) (v : Word), v.getLsbD 1 = true → writeReg .status v s = .next t → t.done = false ∧ irq t = false) ∧
  (∀ (s t : State) (w : Word), s.busy = false → submit w s = .next t → t.done = false ∧ irq t = false) ∧
  (∀ s : State, (applyReset s).done = false ∧ (applyReset s).irqEn = false ∧ irq (applyReset s) = false)

/-! ### 70_reset_and_hazards.md, and the whole machine -/

/-- 60_exceptions.md R151, R154: the engine's step runs the decoded active command. That the engine moves when the schedule is used up
is the model's choice of order (log entry 1), and that `withFetchWord` stands for an accepted CMD write is its choice too (log
entry 12). -/
def Obligations.StepRunsTheDecodedCommand : Prop :=
  (∀ (s : State) (a : Active) (i : Instr), s.busy = true → s.active = some a → decode a.word = .ok i →
    (s.schedule = [] → step s = exec i s) ∧
    ∀ rest, s.schedule = .engine :: rest → step s = exec i { s with schedule := rest }) ∧
  (∀ (s : State) (i : Instr), step (s.withFetchWord 32 (encode i).toNat) = exec i (s.withFetchWord 32 (encode i).toNat))

/-- 70_reset_and_hazards.md R171(a), (c), 20_memory.md R56, R63: a CMD write accepted while the source holds a host write not yet
made visible, or the destination one with no fence since, has no outcome; on a coherent platform a fence discharges the duty; on
another a clean and then a fence do, and neither a fence alone nor a clean after the fence does. How the writes are tracked is
the model's (log entries 8 and 9). -/
def Obligations.InputWritesMustBeFencedBeforeCmd : Prop :=
  (∀ (s : State) (w : Word) (src dst : Region) (h : HostWrite), s.busy = false →
    commandRegions s w (snapshot s) = some (src, dst) → h ∈ s.hostWrites →
    (regionsMeet h.region src = true → submit w s = .fault .missingOrdering) ∧
    (regionsMeet h.region dst = true → h.fenced = false → submit w s = .fault .missingOrdering) ∧
    (s.params.coherent = false → h.cleaned = false → regionsMeet h.region src = true →
      submit w (hostFence s) = .fault .missingOrdering ∧
      submit w (hostCacheClean (hostFence s)) = .fault .missingOrdering)) ∧
  (∀ (s : State) (w : Word), s.busy = false →
    (s.params.coherent = true → submit w (hostFence s) = .next (accept w (hostFence s))) ∧
    submit w (hostFence (hostCacheClean s)) = .next (accept w (hostFence (hostCacheClean s))))

/-- 20_memory.md R57, R63, 70_reset_and_hazards.md R171(b), (c), R174, 60_exceptions.md R165(a): once the engine is idle, a read of
STATUS and then a fence open every buffer to the host on a coherent platform; on another an invalidate must come between, and
without it a destination stays closed; after the read alone it is still closed; and taking the IRQ is the same observation. How
the marks are kept is the model's (log entries 8, 9 and 15). -/
def Obligations.ObservationAndFenceOpenTheBuffers : Prop :=
  ∀ s : State, s.Inv → s.busy = false →
    let observed := hostReadReg .status s
    (s.params.coherent = true → (hostFence observed).hazards = []) ∧
    (s.params.coherent = false → (hostFence (hostCacheInvalidate observed)).hazards = []) ∧
    (∀ h ∈ s.hazards, ∀ x : Word, regionHas h.dst x.toNat = true →
      busByteRead x observed = .fault .missingOrdering ∧
      (s.params.coherent = false → h.invalidated = false →
        busByteRead x (hostFence observed) = .fault .missingOrdering)) ∧
    (∀ rest, s.program = .takeIrq :: rest →
      (irq s = false → hostStep s = .next s) ∧
      (irq s = true → ∃ t, hostStep s = .next t ∧ t.program = rest ∧ t.hazards = observed.hazards ∧ t.mem = s.mem ∧
        t.hostWrites = s.hostWrites ∧ ∀ r : Reg, readReg t r = readReg s r))

/-- 20_memory.md R53, 70_reset_and_hazards.md R167, R174: whatever step is taken, a byte of data memory changes only where the host's own
memory write puts it, in the destination used region of a command the engine completes without error, or in that of a
configured buffer command a RESET aborts, whatever its checks would have found; and never in a distinct source. That an abort of an
illegal word, or of a command with no configured N, changes no byte, and that the bytes a destination shares with a distinct
source stay when a command that would have reported ALIAS_ERROR is aborted, are the model's (log entry 5). -/
def Obligations.MemoryChangesOnlyWhereTheRulesSay : Prop :=
  ∀ (s t : State) (x : Nat), s.Inv → step s = .next t → readByte t.mem x ≠ readByte s.mem x →
    (∃ rest a v, s.program = .memWrite a v :: rest ∧ a.toNat ≤ x ∧ x < a.toNat + 4 ∧ t.program = rest) ∨
    (∃ rest a v, s.program = .byteWrite a v :: rest ∧ x = a.toNat ∧ t.program = rest) ∨
    (∃ a i, s.busy = true ∧ s.active = some a ∧ decode a.word = .ok i ∧ i ≠ .config ∧ s.configured = true ∧
      (s.ChecksMet i a.op ∨ ∃ rest, s.schedule = .reset :: rest) ∧
      regionHas (usedRegions s.cfgN.toNat i a.op).2 x = true ∧
      (a.op.srcAddr ≠ a.op.dstAddr → regionHas (usedRegions s.cfgN.toNat i a.op).1 x = false) ∧ t.active = none)

/-- The invariant of the machine is kept by every step from every state that meets it: canonical memory, legal parameters, CFG_N =
2^CFG_NBITS within bounds or no configuration (10_state.md R34, R35), ACTIVE present exactly while BUSY = 1, BUSY = 1
implies DONE = 0 and ERR = 0 (R26, R31), buffers in use marked (70_reset_and_hazards.md R170). No step changes a parameter
(00_scope.md R6, R7; log entry 3). -/
def Obligations.EveryStepKeepsTheInvariant : Prop :=
  ∀ s t : State, s.Inv → step s = .next t → t.Inv ∧ t.params = s.params

/-- The invariant holds right after reset. -/
def Obligations.ResetMeetsTheInvariant : Prop := State.reset.Inv

/-- 70_reset_and_hazards.md R175: when the host has executed its last line and BUSY = 0, nothing moves but a scheduled RESET. -/
def Obligations.AnEndedRunStaysEnded : Prop :=
  ∀ s : State, s.runEnded →
    (s.schedule = [] → step s = .next s) ∧
    (∀ turn rest, s.schedule = turn :: rest → turn ≠ .reset → step s = .next { s with schedule := rest })
end

