-- ==== Sys2Proof/Laws/Memory.lean ====
section
/-! SUPPORT. Laws of data memory: read after write, the canonical form is kept and unique, and what a run of word writes
inside one region can do. -/

namespace Sys2Proof.Machine

/-! ### Bytes -/

theorem memWfFrom_mono {lo lo' : Nat} {m : List Host.Cell} (h : memWfFrom lo m = true) (hle : lo' ≤ lo) :
    memWfFrom lo' m = true := by
  cases m with
  | nil => rfl
  | cons c r =>
    obtain ⟨x, b⟩ := c
    simp only [memWfFrom, Bool.and_eq_true, decide_eq_true_eq] at h ⊢
    exact ⟨⟨⟨by omega, h.1.1.2⟩, h.1.2⟩, h.2⟩

/-- A byte below every listed address reads as unlisted. -/
theorem readByte_below {lo a : Nat} {m : List Host.Cell} (h : memWfFrom lo m = true) (ha : a < lo) :
    readByte m a = unlistedByte := by
  cases m with
  | nil => rfl
  | cons c r =>
    obtain ⟨x, b⟩ := c
    simp only [memWfFrom, Bool.and_eq_true, decide_eq_true_eq] at h
    simp only [readByte]
    rw [if_neg (by omega), if_pos (by omega)]

theorem readByte_consByte {a x : Nat} {v : Byte} {m : List Host.Cell} (h : memWfFrom (a + 1) m = true) :
    readByte (consByte a v m) x = if x = a then v else readByte m x := by
  unfold consByte
  by_cases hv : v = unlistedByte
  · rw [if_pos hv]
    by_cases hx : x = a
    · rw [if_pos hx, readByte_below h (by omega), hv]
    · rw [if_neg hx]
  · rw [if_neg hv]
    by_cases hx : x = a
    · simp [readByte, hx]
    · rw [if_neg hx]
      simp only [readByte]
      rw [if_neg (Ne.symm hx)]
      by_cases hlt : x < a
      · rw [if_pos hlt, readByte_below h (by omega)]
      · rw [if_neg hlt]

/-- Read after write of a byte, at the same and at any other address. -/
theorem readByte_writeByte {lo a x : Nat} {v : Byte} {m : List Host.Cell} (h : memWfFrom lo m = true) :
    readByte (writeByte m a v) x = if x = a then v else readByte m x := by
  induction m generalizing lo with
  | nil => exact readByte_consByte (m := []) rfl
  | cons c r ih =>
    obtain ⟨y, b⟩ := c
    simp only [memWfFrom, Bool.and_eq_true, decide_eq_true_eq] at h
    unfold writeByte
    by_cases hy : y = a
    · subst hy
      rw [if_pos rfl, readByte_consByte h.2]
      by_cases hx : x = y
      · simp [hx]
      · simp only [readByte, if_neg hx, if_neg (Ne.symm hx)]
        by_cases hlt : x < y
        · rw [if_pos hlt, readByte_below h.2 (by omega)]
        · rw [if_neg hlt]
    · rw [if_neg hy]
      by_cases hlt : a < y
      · rw [if_pos hlt]
        refine readByte_consByte ?_
        simp only [memWfFrom, Bool.and_eq_true, decide_eq_true_eq]
        exact ⟨⟨⟨by omega, h.1.1.2⟩, h.1.2⟩, h.2⟩
      · rw [if_neg hlt]
        simp only [readByte]
        rw [ih h.2]
        by_cases hxy : y = x
        · rw [if_pos hxy, if_neg (by omega), if_pos hxy]
        · rw [if_neg hxy, if_neg hxy]
          by_cases hxlt : x < y
          · rw [if_pos hxlt, if_neg (by omega), if_pos hxlt]
          · rw [if_neg hxlt, if_neg hxlt]

theorem memWfFrom_consByte {lo a : Nat} {v : Byte} {m : List Host.Cell} (hlo : lo ≤ a) (ha : a < 2 ^ 32)
    (h : memWfFrom (a + 1) m = true) : memWfFrom lo (consByte a v m) = true := by
  unfold consByte
  by_cases hv : v = unlistedByte
  · rw [if_pos hv]
    exact memWfFrom_mono h (by omega)
  · rw [if_neg hv]
    simp only [memWfFrom, Bool.and_eq_true, decide_eq_true_eq]
    exact ⟨⟨⟨hlo, ha⟩, hv⟩, h⟩

theorem memWfFrom_writeByte {lo a : Nat} {v : Byte} {m : List Host.Cell} (hlo : lo ≤ a) (ha : a < 2 ^ 32)
    (h : memWfFrom lo m = true) : memWfFrom lo (writeByte m a v) = true := by
  induction m generalizing lo with
  | nil => exact memWfFrom_consByte hlo ha rfl
  | cons c r ih =>
    obtain ⟨y, b⟩ := c
    have h' := h
    simp only [memWfFrom, Bool.and_eq_true, decide_eq_true_eq] at h
    unfold writeByte
    by_cases hy : y = a
    · subst hy
      rw [if_pos rfl]
      exact memWfFrom_consByte hlo ha h.2
    · rw [if_neg hy]
      by_cases hlt : a < y
      · rw [if_pos hlt]
        refine memWfFrom_consByte hlo ha ?_
        simp only [memWfFrom, Bool.and_eq_true, decide_eq_true_eq]
        exact ⟨⟨⟨by omega, h.1.1.2⟩, h.1.2⟩, h.2⟩
      · rw [if_neg hlt]
        simp only [memWfFrom, Bool.and_eq_true, decide_eq_true_eq]
        exact ⟨h.1, ih (by omega) h.2⟩

/-- A write inside the address space keeps the canonical form. -/
theorem memWf_writeByte {a : Nat} {v : Byte} {m : List Host.Cell} (ha : a < 2 ^ 32) (h : memWf m = true) :
    memWf (writeByte m a v) = true :=
  memWfFrom_writeByte (Nat.zero_le a) ha h

theorem memWfFrom_ext {lo : Nat} {m m' : List Host.Cell} (h : memWfFrom lo m = true) (h' : memWfFrom lo m' = true)
    (hr : ∀ a, readByte m a = readByte m' a) : m = m' := by
  induction m generalizing lo m' with
  | nil =>
    cases m' with
    | nil => rfl
    | cons c r =>
      obtain ⟨y, b⟩ := c
      simp only [memWfFrom, Bool.and_eq_true, decide_eq_true_eq] at h'
      have := hr y
      simp only [readByte, if_pos] at this
      exact absurd this.symm h'.1.2
  | cons c r ih =>
    obtain ⟨x, b⟩ := c
    simp only [memWfFrom, Bool.and_eq_true, decide_eq_true_eq] at h
    cases m' with
    | nil =>
      have := hr x
      simp only [readByte, if_pos] at this
      exact absurd this h.1.2
    | cons c' r' =>
      obtain ⟨y, b'⟩ := c'
      simp only [memWfFrom, Bool.and_eq_true, decide_eq_true_eq] at h'
      have hxy : x = y := by
        rcases Nat.lt_trichotomy x y with hlt | heq | hgt
        · have := hr x
          simp only [readByte, if_pos, if_neg (Nat.ne_of_gt hlt), if_pos hlt] at this
          exact absurd this h.1.2
        · exact heq
        · have := hr y
          simp only [readByte, if_pos, if_neg (Nat.ne_of_gt hgt), if_pos hgt] at this
          exact absurd this.symm h'.1.2
      subst hxy
      have hb : b = b' := by simpa [readByte] using hr x
      have hrest : r = r' := by
        refine ih h.2 h'.2 fun a => ?_
        by_cases ha : a ≤ x
        · rw [readByte_below h.2 (by omega), readByte_below h'.2 (by omega)]
        · have := hr a
          simp only [readByte] at this
          rwa [if_neg (by omega), if_neg (by omega), if_neg (by omega), if_neg (by omega)] at this
      rw [hb, hrest]

/-! ### Words -/

/-- A word write unfolds to its four byte writes, the lowest address first. -/
theorem writeWord_eq (m : List Host.Cell) (a : Nat) (v : Word) :
    writeWord m a v =
      writeByte (writeByte (writeByte (writeByte m a (byteOf v 0)) (a + 1) (byteOf v 1)) (a + 2) (byteOf v 2))
        (a + 3) (byteOf v 3) := rfl

theorem memWf_writeWord {a : Nat} {v : Word} {m : List Host.Cell} (ha : a + 4 ≤ 2 ^ 32) (h : memWf m = true) :
    memWf (writeWord m a v) = true := by
  rw [writeWord_eq]
  exact memWf_writeByte (by omega) (memWf_writeByte (by omega) (memWf_writeByte (by omega) (memWf_writeByte (by omega) h)))

/-- A word write changes no byte outside its four. -/
theorem readByte_writeWord_other {a x : Nat} {v : Word} {m : List Host.Cell} (ha : a + 4 ≤ 2 ^ 32) (h : memWf m = true)
    (hx : ¬(a ≤ x ∧ x < a + 4)) : readByte (writeWord m a v) x = readByte m x := by
  rw [writeWord_eq]
  have h0 : memWf (writeByte m a (byteOf v 0)) = true := memWf_writeByte (by omega) h
  have h1 := memWf_writeByte (a := a + 1) (v := byteOf v 1) (by omega) h0
  have h2 := memWf_writeByte (a := a + 2) (v := byteOf v 2) (by omega) h1
  rw [readByte_writeByte h2, if_neg (by omega), readByte_writeByte h1, if_neg (by omega), readByte_writeByte h0,
    if_neg (by omega), readByte_writeByte h, if_neg (by omega)]

/-- The bytes a word write stores, byte b of the word at address a + b. -/
theorem readByte_writeWord_same {a b : Nat} {v : Word} {m : List Host.Cell} (ha : a + 4 ≤ 2 ^ 32) (h : memWf m = true)
    (hb : b < 4) : readByte (writeWord m a v) (a + b) = byteOf v b := by
  rw [writeWord_eq]
  have h0 : memWf (writeByte m a (byteOf v 0)) = true := memWf_writeByte (by omega) h
  have h1 := memWf_writeByte (a := a + 1) (v := byteOf v 1) (by omega) h0
  have h2 := memWf_writeByte (a := a + 2) (v := byteOf v 2) (by omega) h1
  rw [readByte_writeByte h2, readByte_writeByte h1, readByte_writeByte h0, readByte_writeByte h]
  have : b = 0 ∨ b = 1 ∨ b = 2 ∨ b = 3 := by omega
  rcases this with rfl | rfl | rfl | rfl <;> simp

/-- The four bytes of a word make the word. -/
theorem bytes_append (v : Word) : byteOf v 3 ++ byteOf v 2 ++ byteOf v 1 ++ byteOf v 0 = v := by
  unfold byteOf
  ext i hi
  simp only [BitVec.getElem_append, BitVec.getElem_extractLsb']
  split
  · rw [BitVec.getLsbD_eq_getElem (by omega)]; congr 1; omega
  · split
    · rw [BitVec.getLsbD_eq_getElem (by omega)]; congr 1; omega
    · split
      · rw [BitVec.getLsbD_eq_getElem (by omega)]; congr 1; omega
      · rw [BitVec.getLsbD_eq_getElem (by omega)]; congr 1; omega

theorem readWord_writeWord_same {a : Nat} {v : Word} {m : List Host.Cell} (ha : a + 4 ≤ 2 ^ 32) (h : memWf m = true) :
    readWord (writeWord m a v) a = v := by
  have hb := fun b (hb : b < 4) => readByte_writeWord_same (v := v) (m := m) ha h hb
  unfold readWord
  rw [hb 3 (by omega), hb 2 (by omega), hb 1 (by omega)]
  have := hb 0 (by omega)
  rw [Nat.add_zero] at this
  rw [this]
  exact bytes_append v

/-- Words read equal where their four bytes do. -/
theorem readWord_congr {m m' : List Host.Cell} {a : Nat}
    (h : ∀ x, a ≤ x → x < a + 4 → readByte m' x = readByte m x) : readWord m' a = readWord m a := by
  unfold readWord
  rw [h a (by omega) (by omega), h (a + 1) (by omega) (by omega), h (a + 2) (by omega) (by omega),
    h (a + 3) (by omega) (by omega)]

theorem readWord_writeWord_other {a x : Nat} {v : Word} {m : List Host.Cell} (ha : a + 4 ≤ 2 ^ 32) (h : memWf m = true)
    (hx : x + 4 ≤ a ∨ a + 4 ≤ x) : readWord (writeWord m a v) x = readWord m x :=
  readWord_congr fun _ _ _ => readByte_writeWord_other ha h (by omega)

/-! ### What a run of writes inside a region can do -/

/-- `m'` is a canonical memory that reads as `m` outside [lo, hi). Every primitive is of this shape. -/
def Confined (lo hi : Nat) (m m' : List Host.Cell) : Prop :=
  memWf m' = true ∧ ∀ a, ¬(lo ≤ a ∧ a < hi) → readByte m' a = readByte m a

theorem Confined.refl {lo hi : Nat} {m : List Host.Cell} (h : memWf m = true) : Confined lo hi m m :=
  ⟨h, fun _ _ => rfl⟩

theorem Confined.trans {lo hi : Nat} {m m' m'' : List Host.Cell} (h : Confined lo hi m m') (h' : Confined lo hi m' m'') :
    Confined lo hi m m'' :=
  ⟨h'.1, fun a ha => (h'.2 a ha).trans (h.2 a ha)⟩

theorem Confined.mono {lo hi lo' hi' : Nat} {m m' : List Host.Cell} (h : Confined lo hi m m') (hl : lo' ≤ lo)
    (hh : hi ≤ hi') : Confined lo' hi' m m' :=
  ⟨h.1, fun a ha => h.2 a (by omega)⟩

theorem Confined.writeWord {lo hi a : Nat} {v : Word} {m m' : List Host.Cell} (h : Confined lo hi m m') (hhi : hi ≤ 2 ^ 32)
    (hl : lo ≤ a) (hh : a + 4 ≤ hi) : Confined lo hi m (writeWord m' a v) :=
  ⟨memWf_writeWord (by omega) h.1, fun x hx =>
    (readByte_writeWord_other (by omega) h.1 (by omega)).trans (h.2 x hx)⟩

/-- Word k of a buffer of n words is written inside the buffer. -/
theorem Confined.setW {base n k : Nat} {v : Word} {m m' : List Host.Cell} (h : Confined base (base + 4 * n) m m')
    (hn : base + 4 * n ≤ 2 ^ 32) (hk : k < n) : Confined base (base + 4 * n) m (setW m' base k v) :=
  h.writeWord hn (by omega) (by omega)

/-- Complex element k of a buffer of n words is written inside the buffer. -/
theorem Confined.setC {base n k : Nat} {z : Word × Word} {m m' : List Host.Cell}
    (h : Confined base (base + 4 * n) m m') (hn : base + 4 * n ≤ 2 ^ 32) (hk : 2 * k + 1 < n) :
    Confined base (base + 4 * n) m (setC m' base k z) :=
  (h.setW hn (by omega)).setW hn hk

/-- A loop of confined turns is confined. -/
theorem Confined.forUpTo {lo hi n : Nat} {f : Nat → List Host.Cell → List Host.Cell} {m m' : List Host.Cell}
    (h : Confined lo hi m m')
    (hf : ∀ i, i < n → ∀ x, Confined lo hi m x → Confined lo hi m (f i x)) :
    Confined lo hi m (Sys2Proof.forUpTo n f m') := by
  induction n with
  | zero => exact h
  | succ n ih => exact hf n (by omega) _ (ih fun i hi' => hf i (by omega))

/-- Words that lie outside the region read as before. -/
theorem Confined.getW_outside {lo hi base k : Nat} {m m' : List Host.Cell} (h : Confined lo hi m m')
    (hk : base + 4 * k + 4 ≤ lo ∨ hi ≤ base + 4 * k) : getW m' base k = getW m base k :=
  readWord_congr fun x _ _ => h.2 x (by omega)

/-! ### Words of one buffer -/

theorem getW_setW {base k j : Nat} {v : Word} {m : List Host.Cell} (hk : base + 4 * k + 4 ≤ 2 ^ 32) (h : memWf m = true) :
    getW (setW m base k v) base j = if j = k then v else getW m base j := by
  by_cases hj : j = k
  · rw [if_pos hj, hj]
    exact readWord_writeWord_same hk h
  · rw [if_neg hj]
    exact readWord_writeWord_other hk h (by omega)

theorem memWf_setW {base k : Nat} {v : Word} {m : List Host.Cell} (hk : base + 4 * k + 4 ≤ 2 ^ 32) (h : memWf m = true) :
    memWf (setW m base k v) = true :=
  memWf_writeWord hk h

theorem getC_setC {base k j : Nat} {z : Word × Word} {m : List Host.Cell} (hk : base + 8 * k + 8 ≤ 2 ^ 32)
    (h : memWf m = true) : getC (setC m base k z) base j = if j = k then z else getC m base j := by
  have h1 := memWf_setW (v := z.1) (k := 2 * k) (base := base) (by omega) h
  unfold getC setC
  rw [getW_setW (by omega) h1, getW_setW (by omega) h1, getW_setW (by omega) h, getW_setW (by omega) h]
  by_cases hj : j = k
  · subst hj
    simp
  · rw [if_neg (by omega), if_neg (by omega), if_neg (by omega), if_neg (by omega), if_neg hj]

end Sys2Proof.Machine
end

