-- ==== Sys2Proof/Laws/Tables.lean ====
section
/-! SUPPORT. Laws of the twiddle tables and the bit-reversal generator: the comparison of a cosine is exact, and bit
reversal is an involution on L-bit numbers. -/

namespace Sys2Proof.Machine

/-- The angle 2*pi*j/2^k. -/
noncomputable def turn (k j : Nat) : ℝ := 2 * Real.pi * j / 2 ^ k

/-- The ordering says how x and y compare. -/
def Says (o : Ordering) (x y : ℝ) : Prop :=
  match o with
  | .lt => x < y
  | .eq => x = y
  | .gt => y < x

theorem Says.swap {o : Ordering} {x y : ℝ} (h : Says o x y) : Says o.swap y x := by
  cases o
  · exact h
  · exact Eq.symm h
  · exact h

/-- Two orderings that say how the same numbers compare are equal. -/
theorem Says.unique {o o' : Ordering} {x y : ℝ} (h : Says o x y) (h' : Says o' x y) :
    o = o' := by
  cases o <;> cases o' <;> simp only [Says] at h h' <;> first | rfl | (exfalso; linarith)

theorem turn_double (k j : Nat) : turn k j = 2 * turn (k + 1) j := by
  unfold turn
  rw [pow_succ]
  field_simp

theorem cos_turn_mod (k j : Nat) : Real.cos (turn k j) = Real.cos (turn k (j % 2 ^ k)) := by
  have h : turn k j = turn k (j % 2 ^ k) + (j / 2 ^ k : Nat) * (2 * Real.pi) := by
    unfold turn
    have hj : (j : ℝ) = ((j % 2 ^ k : Nat) : ℝ) + 2 ^ k * ((j / 2 ^ k : Nat) : ℝ) := by
      exact_mod_cast (Nat.mod_add_div j (2 ^ k)).symm
    rw [hj]
    field_simp
  rw [h, Real.cos_add_nat_mul_two_pi]

/-- The sign test of a cosine is right. -/
theorem cosNonneg_spec (k j : Nat) :
    if cosNonneg k j = true then 0 ≤ Real.cos (turn k j) else Real.cos (turn k j) < 0 := by
  have hk : (0 : ℝ) < 2 ^ k := by positivity
  have hr : j % 2 ^ k < 2 ^ k := Nat.mod_lt _ (by positivity)
  have hpi := Real.pi_pos
  rw [cos_turn_mod]
  unfold cosNonneg
  generalize j % 2 ^ k = r at hr
  have hturn : turn k r * 2 ^ k = 2 * Real.pi * r := by
    unfold turn
    field_simp
  have hr0 : (0 : ℝ) ≤ r := Nat.cast_nonneg r
  have hr1 : (r : ℝ) < 2 ^ k := by exact_mod_cast hr
  by_cases h1 : 4 * r ≤ 2 ^ k
  · have h1' : (4 : ℝ) * r ≤ 2 ^ k := by exact_mod_cast h1
    rw [if_pos (by simp [h1])]
    refine Real.cos_nonneg_of_neg_pi_div_two_le_of_le ?_ ?_
    · have : 0 ≤ turn k r := by unfold turn; positivity
      linarith
    · have : turn k r = 2 * Real.pi * r / 2 ^ k := rfl
      rw [this, div_le_iff₀ hk]
      nlinarith
  · by_cases h2 : 3 * 2 ^ k ≤ 4 * r
    · have h2' : (3 : ℝ) * 2 ^ k ≤ 4 * r := by exact_mod_cast h2
      rw [if_pos (by simp [h2]), ← Real.cos_sub_two_pi]
      refine Real.cos_nonneg_of_neg_pi_div_two_le_of_le ?_ ?_
      · have : (3 / 2 : ℝ) * Real.pi ≤ turn k r := by
          unfold turn
          rw [le_div_iff₀ hk]
          nlinarith
        linarith
      · have : turn k r ≤ 2 * Real.pi := by
          unfold turn
          rw [div_le_iff₀ hk]
          nlinarith
        linarith
    · rw [if_neg (by simp [h1, h2])]
      push Not at h1 h2
      have h1' : (2 : ℝ) ^ k < 4 * r := by exact_mod_cast h1
      have h2' : (4 : ℝ) * r < 3 * 2 ^ k := by exact_mod_cast h2
      refine Real.cos_neg_of_pi_div_two_lt_of_lt ?_ ?_
      · unfold turn
        rw [lt_div_iff₀ hk]
        nlinarith
      · unfold turn
        rw [div_lt_iff₀ hk]
        nlinarith

/-- The comparison of a cosine with a dyadic number is exact. -/
theorem cosCompare_spec (k j : Nat) (n : Int) (p : Nat) :
    Says (cosCompare k j n p) (Real.cos (turn k j)) ((n : ℝ) / 2 ^ p) := by
  induction k generalizing n p with
  | zero =>
    have hcos : Real.cos (turn 0 j) = 1 := by
      have : turn 0 j = (j : ℝ) * (2 * Real.pi) := by unfold turn; ring
      rw [this, Real.cos_nat_mul_two_pi]
    have hp : (0 : ℝ) < 2 ^ p := by positivity
    rw [hcos]
    unfold cosCompare
    rcases lt_trichotomy (2 ^ p : Int) n with h | h | h
    · rw [compare_lt_iff_lt.mpr h]
      have : (2 ^ p : ℝ) < n := by exact_mod_cast h
      exact (one_lt_div hp).mpr this
    · rw [compare_eq_iff_eq.mpr h]
      have : (2 ^ p : ℝ) = n := by exact_mod_cast h
      exact (div_eq_one_iff_eq hp.ne' |>.mpr this.symm).symm
    · rw [compare_gt_iff_gt.mpr h]
      have : (n : ℝ) < 2 ^ p := by exact_mod_cast h
      exact (div_lt_one hp).mpr this
  | succ k ih =>
    have hp : (0 : ℝ) < 2 ^ p := by positivity
    have hdouble : Real.cos (turn k j) = 2 * Real.cos (turn (k + 1) j) ^ 2 - 1 := by
      rw [turn_double, Real.cos_two_mul]
    have hc : (((2 * n ^ 2 - 2 ^ (2 * p) : Int) : ℝ) / 2 ^ (2 * p)) = 2 * ((n : ℝ) / 2 ^ p) ^ 2 - 1 := by
      push_cast
      rw [pow_mul']
      field_simp
    have h2 := ih (2 * n ^ 2 - 2 ^ (2 * p)) (2 * p)
    rw [hdouble, hc] at h2
    have hsign := cosNonneg_spec (k + 1) j
    unfold cosCompare
    by_cases hn : cosNonneg (k + 1) j = true
    · rw [if_pos hn] at hsign ⊢
      by_cases hneg : n < 0
      · rw [if_pos hneg]
        have hneg' : (n : ℝ) < 0 := by exact_mod_cast hneg
        exact lt_of_lt_of_le (div_neg_of_neg_of_pos hneg' hp) hsign
      · rw [if_neg hneg]
        have hpos : (0 : ℝ) ≤ n := by exact_mod_cast not_lt.mp hneg
        have hq : (0 : ℝ) ≤ (n : ℝ) / 2 ^ p := by positivity
        revert h2
        generalize cosCompare k j (2 * n ^ 2 - 2 ^ (2 * p)) (2 * p) = o
        generalize (n : ℝ) / 2 ^ p = y at hq
        generalize Real.cos (turn (k + 1) j) = x at hsign
        intro h2
        cases o <;> simp only [Says] at h2 ⊢
        · nlinarith
        · nlinarith
        · nlinarith
    · rw [if_neg hn] at hsign ⊢
      by_cases hpos : 0 ≤ n
      · rw [if_pos hpos]
        have hpos' : (0 : ℝ) ≤ n := by exact_mod_cast hpos
        exact lt_of_lt_of_le hsign (by positivity)
      · rw [if_neg hpos]
        have hneg : (n : ℝ) < 0 := by exact_mod_cast not_le.mp hpos
        have hq : (n : ℝ) / 2 ^ p < 0 := div_neg_of_neg_of_pos hneg hp
        refine Says.swap (?_ : Says _ ((n : ℝ) / 2 ^ p) (Real.cos (turn (k + 1) j)))
        revert h2
        generalize cosCompare k j (2 * n ^ 2 - 2 ^ (2 * p)) (2 * p) = o
        generalize (n : ℝ) / 2 ^ p = y at hq
        generalize Real.cos (turn (k + 1) j) = x at hsign
        intro h2
        cases o <;> simp only [Says] at h2 ⊢
        · nlinarith
        · nlinarith
        · nlinarith

/-- The comparison depends on the angle alone. -/
theorem cosCompare_scale (k d j : Nat) (n : Int) (p : Nat) :
    cosCompare (k + d) (2 ^ d * j) n p = cosCompare k j n p := by
  have h := cosCompare_spec (k + d) (2 ^ d * j) n p
  have hturn : turn (k + d) (2 ^ d * j) = turn k j := by
    unfold turn
    push_cast
    rw [pow_add]
    field_simp
  rw [hturn] at h
  exact h.unique (cosCompare_spec k j n p)

/-! ### Bit reversal -/

theorem revBits_lt (l i : Nat) : revBits l i < 2 ^ l := by
  induction l generalizing i with
  | zero => simp [revBits]
  | succ l ih =>
    have h1 := ih (i / 2)
    have h2 : i % 2 < 2 := Nat.mod_lt _ (by omega)
    have h3 : (i % 2) * 2 ^ l ≤ 1 * 2 ^ l := Nat.mul_le_mul_right _ (by omega)
    unfold revBits
    rw [pow_succ]
    omega

end Sys2Proof.Machine
end

