-- ==== Sys2Proof/Laws/Primitives.lean ====
section
/-! SUPPORT. Every primitive and every command's body writes only words of its destination used region, and keeps the
canonical form of memory. -/

namespace Sys2Proof.Machine

/-- The geometry of a configured command whose destination of du words lies in the address space. -/
structure Geometry.Fits (g : Geometry) (du : Nat) : Prop where
  one_le : 1 ≤ g.nBits
  size : g.n = 2 ^ g.nBits
  top : g.da + 4 * du ≤ 2 ^ 32

theorem two_pow_pred {b : Nat} (h : 1 ≤ b) : 2 ^ b = 2 * 2 ^ (b - 1) := by
  obtain ⟨c, rfl⟩ := Nat.exists_eq_add_of_le h
  rw [Nat.add_sub_cancel_left, pow_add, pow_one]

theorem Geometry.Fits.m_eq {g : Geometry} {du : Nat} (h : g.Fits du) : g.m = 2 ^ g.l := by
  unfold Geometry.m Geometry.l
  rw [h.size, two_pow_pred h.one_le]
  omega

theorem Geometry.Fits.n_eq {g : Geometry} {du : Nat} (h : g.Fits du) : g.n = 2 * g.m := by
  unfold Geometry.m
  rw [h.size, two_pow_pred h.one_le]
  omega

theorem Geometry.Fits.mono {g : Geometry} {du du' : Nat} (h : g.Fits du) (hd : du' ≤ du) : g.Fits du' :=
  ⟨h.one_le, h.size, by have := h.top; omega⟩

section
variable {da du : Nat} {m m' : List Host.Cell}

theorem Confined.copyWords {sa n : Nat} (h : Confined da (da + 4 * du) m m') (top : da + 4 * du ≤ 2 ^ 32) (hn : n ≤ du) :
    Confined da (da + 4 * du) m (copyWords sa da n m') := by
  unfold Sys2Proof.Machine.copyWords
  by_cases hs : sa = da
  · rw [if_pos hs]
    exact h
  · rw [if_neg hs]
    exact h.forUpTo fun i hi x hx => hx.setW top (by omega)

theorem Confined.permute {sa l : Nat} (h : Confined da (da + 4 * du) m m') (top : da + 4 * du ≤ 2 ^ 32)
    (hd : 2 * 2 ^ l ≤ du) : Confined da (da + 4 * du) m (permute l (2 ^ l) sa da m') := by
  refine h.forUpTo fun i hi x hx => ?_
  unfold permuteStep
  have hj := revBits_lt l i
  by_cases hle : i ≤ revBits l i
  · simp only [if_pos hle]
    exact (hx.setC top (by omega)).setC top (by omega)
  · simp only [if_neg hle]
    exact hx

theorem stage_index {l s block j : Nat} (hs : s < l) (hb : block < 2 ^ l / 2 ^ (s + 1)) (hj : j < 2 ^ (s + 1) / 2) :
    block * 2 ^ (s + 1) + j + 2 ^ (s + 1) / 2 < 2 ^ l := by
  have hdiv : 2 ^ l / 2 ^ (s + 1) = 2 ^ (l - (s + 1)) := Nat.pow_div (by omega) (by omega)
  have hhalf : 2 ^ (s + 1) / 2 = 2 ^ s := by rw [pow_succ]; omega
  have hpow : 2 ^ (l - (s + 1)) * 2 ^ (s + 1) = 2 ^ l := by rw [← pow_add]; congr 1; omega
  have hmul : (block + 1) * 2 ^ (s + 1) ≤ 2 ^ (l - (s + 1)) * 2 ^ (s + 1) :=
    Nat.mul_le_mul_right _ (by omega)
  have hsucc : (2 : Nat) ^ (s + 1) = 2 * 2 ^ s := by rw [pow_succ]; omega
  rw [hhalf] at hj ⊢
  rw [hpow, Nat.add_mul] at hmul
  omega

theorem Confined.stage {l s nBits : Nat} {inverse : Bool} (h : Confined da (da + 4 * du) m m') (top : da + 4 * du ≤ 2 ^ 32)
    (hd : 2 * 2 ^ l ≤ du) (hs : s < l) :
    Confined da (da + 4 * du) m (stage nBits (2 ^ l) da inverse (s + 1) m') := by
  refine h.forUpTo fun block hb x hx => hx.forUpTo fun j hj y hy => ?_
  have := stage_index hs hb hj
  exact (hy.setC top (by omega)).setC top (by omega)

theorem Confined.stages {nBits : Nat} {inverse : Bool} (h : Confined da (da + 4 * du) m m') (top : da + 4 * du ≤ 2 ^ 32)
    (hd : 2 * 2 ^ (nBits - 1) ≤ du) :
    Confined da (da + 4 * du) m (stages nBits (2 ^ (nBits - 1)) da inverse m') :=
  h.forUpTo fun _ hi _ hx => hx.stage top hd hi

theorem Confined.combineInPlace {nBits n : Nat} (h : Confined da (da + 4 * du) m m') (top : da + 4 * du ≤ 2 ^ 32)
    (hd : n + 2 ≤ du) : Confined da (da + 4 * du) m (combineInPlace nBits n da m') := by
  have hloop : Confined da (da + 4 * du) m
      (Sys2Proof.forUpTo (n / 4) (fun t m => combineStep nBits (n / 2) da (t + 1) m) m') :=
    h.forUpTo fun i hi x hx => (hx.setC top (by omega)).setC top (by omega)
  exact (((hloop.setW top (by omega)).setW top (by omega)).setW top (by omega)).setW top (by omega)

theorem Confined.splitSpectrum {sa nBits n : Nat} (h : Confined da (da + 4 * du) m m') (top : da + 4 * du ≤ 2 ^ 32)
    (hn : 2 ≤ n) (he : n % 2 = 0) (hd : n ≤ du) :
    Confined da (da + 4 * du) m (splitSpectrum nBits n sa da m') := by
  refine Confined.forUpTo ?_ fun i hi x hx => (hx.setC top (by omega)).setC top (by omega)
  exact (h.setW top (by omega)).setW top (by omega)

end

/-! ### The bodies of the nine buffer commands -/

theorem bitrevBody_confined {g : Geometry} {m : List Host.Cell} (hg : g.Fits g.n) (hm : memWf m = true) :
    Confined g.da (g.da + 4 * g.n) m (bitrevBody g m) := by
  unfold bitrevBody
  rw [hg.m_eq]
  exact (Confined.refl hm).permute hg.top (by have := hg.n_eq; have := hg.m_eq; omega)

theorem bflyBody_confined {g : Geometry} {inverse : Bool} {m : List Host.Cell} (hg : g.Fits g.n) (hm : memWf m = true) :
    Confined g.da (g.da + 4 * g.n) m (bflyBody inverse g m) := by
  unfold bflyBody
  rw [hg.m_eq]
  exact ((Confined.refl hm).copyWords hg.top le_rfl).stages hg.top
    (by have := hg.n_eq; have := hg.m_eq; unfold Geometry.l at this; omega)

theorem fftBody_confined {g : Geometry} {inverse : Bool} {m : List Host.Cell} (hg : g.Fits g.n) (hm : memWf m = true) :
    Confined g.da (g.da + 4 * g.n) m (fftBody inverse g m) := by
  have hn := hg.n_eq
  have hl := hg.m_eq
  unfold fftBody
  rw [hl]
  exact ((Confined.refl hm).permute hg.top (by omega)).stages hg.top (by unfold Geometry.l at hl; omega)

theorem combineBody_confined {g : Geometry} {m : List Host.Cell} (hg : g.Fits (g.n + 2)) (hm : memWf m = true) :
    Confined g.da (g.da + 4 * (g.n + 2)) m (combineBody g m) :=
  ((Confined.refl hm).copyWords hg.top (by omega)).combineInPlace hg.top le_rfl

theorem fftRealBody_confined {g : Geometry} {m : List Host.Cell} (hg : g.Fits (g.n + 2)) (hm : memWf m = true) :
    Confined g.da (g.da + 4 * (g.n + 2)) m (fftRealBody g m) := by
  have hn := hg.n_eq
  have hl := hg.m_eq
  unfold fftRealBody
  rw [hl]
  exact (((Confined.refl hm).permute hg.top (by omega)).stages hg.top
    (by unfold Geometry.l at hl; omega)).combineInPlace hg.top le_rfl

theorem splitBody_confined {g : Geometry} {m : List Host.Cell} (hg : g.Fits g.n) (hm : memWf m = true) :
    Confined g.da (g.da + 4 * g.n) m (splitBody g m) := by
  have hn := hg.n_eq
  have hl := hg.m_eq
  have := Nat.one_le_two_pow (n := g.l)
  exact (Confined.refl hm).splitSpectrum hg.top (by omega) (by omega) le_rfl

theorem ifftRealBody_confined {g : Geometry} {m : List Host.Cell} (hg : g.Fits g.n) (hm : memWf m = true) :
    Confined g.da (g.da + 4 * g.n) m (ifftRealBody g m) := by
  have hn := hg.n_eq
  have hl := hg.m_eq
  have := Nat.one_le_two_pow (n := g.l)
  unfold ifftRealBody
  rw [hl]
  exact (((Confined.refl hm).splitSpectrum hg.top (by omega) (by omega) le_rfl).permute hg.top (by omega)).stages hg.top
    (by unfold Geometry.l at hl; omega)

end Sys2Proof.Machine
end

