-- ==== Sys2Proof/Laws/State.lean ====
section
/-! SUPPORT. What each named update of the state does to each field, one lemma per field, so that no proof unfolds a record
update. -/

namespace Sys2Proof.Machine

/-! ### complete -/

@[simp] theorem complete_size (e : ErrCode) (s : State) : (complete e s).size = s.size := rfl
@[simp] theorem complete_srcAddr (e : ErrCode) (s : State) : (complete e s).srcAddr = s.srcAddr := rfl
@[simp] theorem complete_srcLen (e : ErrCode) (s : State) : (complete e s).srcLen = s.srcLen := rfl
@[simp] theorem complete_dstAddr (e : ErrCode) (s : State) : (complete e s).dstAddr = s.dstAddr := rfl
@[simp] theorem complete_dstLen (e : ErrCode) (s : State) : (complete e s).dstLen = s.dstLen := rfl
@[simp] theorem complete_irqEn (e : ErrCode) (s : State) : (complete e s).irqEn = s.irqEn := rfl
@[simp] theorem complete_twIdx (e : ErrCode) (s : State) : (complete e s).twIdx = s.twIdx := rfl
@[simp] theorem complete_brIdx (e : ErrCode) (s : State) : (complete e s).brIdx = s.brIdx := rfl
@[simp] theorem complete_busy (e : ErrCode) (s : State) : (complete e s).busy = false := rfl
@[simp] theorem complete_done (e : ErrCode) (s : State) : (complete e s).done = true := rfl
@[simp] theorem complete_configured (e : ErrCode) (s : State) : (complete e s).configured = s.configured := rfl
@[simp] theorem complete_overrun (e : ErrCode) (s : State) : (complete e s).overrun = s.overrun := rfl
@[simp] theorem complete_err (e : ErrCode) (s : State) : (complete e s).err = e := rfl
@[simp] theorem complete_cfgN (e : ErrCode) (s : State) : (complete e s).cfgN = s.cfgN := rfl
@[simp] theorem complete_cfgNbits (e : ErrCode) (s : State) : (complete e s).cfgNbits = s.cfgNbits := rfl
@[simp] theorem complete_active (e : ErrCode) (s : State) : (complete e s).active = Option.none := rfl
@[simp] theorem complete_mem (e : ErrCode) (s : State) : (complete e s).mem = s.mem := rfl
@[simp] theorem complete_params (e : ErrCode) (s : State) : (complete e s).params = s.params := rfl
@[simp] theorem complete_program (e : ErrCode) (s : State) : (complete e s).program = s.program := rfl
@[simp] theorem complete_schedule (e : ErrCode) (s : State) : (complete e s).schedule = s.schedule := rfl
@[simp] theorem complete_responses (e : ErrCode) (s : State) : (complete e s).responses = s.responses := rfl
@[simp] theorem complete_hostWrites (e : ErrCode) (s : State) : (complete e s).hostWrites = s.hostWrites := rfl
@[simp] theorem complete_hazards (e : ErrCode) (s : State) : (complete e s).hazards = s.hazards.map Hazard.complete := rfl
@[simp] theorem complete_freeCount (e : ErrCode) (s : State) : (complete e s).freeCount = s.freeCount := rfl

/-! ### accept -/

@[simp] theorem accept_size (w : Word) (s : State) : (accept w s).size = s.size := rfl
@[simp] theorem accept_srcAddr (w : Word) (s : State) : (accept w s).srcAddr = s.srcAddr := rfl
@[simp] theorem accept_srcLen (w : Word) (s : State) : (accept w s).srcLen = s.srcLen := rfl
@[simp] theorem accept_dstAddr (w : Word) (s : State) : (accept w s).dstAddr = s.dstAddr := rfl
@[simp] theorem accept_dstLen (w : Word) (s : State) : (accept w s).dstLen = s.dstLen := rfl
@[simp] theorem accept_irqEn (w : Word) (s : State) : (accept w s).irqEn = s.irqEn := rfl
@[simp] theorem accept_twIdx (w : Word) (s : State) : (accept w s).twIdx = s.twIdx := rfl
@[simp] theorem accept_brIdx (w : Word) (s : State) : (accept w s).brIdx = s.brIdx := rfl
@[simp] theorem accept_busy (w : Word) (s : State) : (accept w s).busy = true := rfl
@[simp] theorem accept_done (w : Word) (s : State) : (accept w s).done = false := rfl
@[simp] theorem accept_configured (w : Word) (s : State) : (accept w s).configured = s.configured := rfl
@[simp] theorem accept_overrun (w : Word) (s : State) : (accept w s).overrun = s.overrun := rfl
@[simp] theorem accept_err (w : Word) (s : State) : (accept w s).err = .none := rfl
@[simp] theorem accept_cfgN (w : Word) (s : State) : (accept w s).cfgN = s.cfgN := rfl
@[simp] theorem accept_cfgNbits (w : Word) (s : State) : (accept w s).cfgNbits = s.cfgNbits := rfl
@[simp] theorem accept_active (w : Word) (s : State) : (accept w s).active = some { word := w, op := snapshot s } := rfl
@[simp] theorem accept_mem (w : Word) (s : State) : (accept w s).mem = s.mem := rfl
@[simp] theorem accept_params (w : Word) (s : State) : (accept w s).params = s.params := rfl
@[simp] theorem accept_program (w : Word) (s : State) : (accept w s).program = s.program := rfl
@[simp] theorem accept_schedule (w : Word) (s : State) : (accept w s).schedule = s.schedule := rfl
@[simp] theorem accept_responses (w : Word) (s : State) : (accept w s).responses = s.responses := rfl
@[simp] theorem accept_hostWrites (w : Word) (s : State) : (accept w s).hostWrites = s.hostWrites := rfl
@[simp] theorem accept_freeCount (w : Word) (s : State) : (accept w s).freeCount = s.freeCount := rfl

/-! ### configure -/

@[simp] theorem configure_size (n : Word) (s : State) : (configure n s).size = s.size := rfl
@[simp] theorem configure_srcAddr (n : Word) (s : State) : (configure n s).srcAddr = s.srcAddr := rfl
@[simp] theorem configure_srcLen (n : Word) (s : State) : (configure n s).srcLen = s.srcLen := rfl
@[simp] theorem configure_dstAddr (n : Word) (s : State) : (configure n s).dstAddr = s.dstAddr := rfl
@[simp] theorem configure_dstLen (n : Word) (s : State) : (configure n s).dstLen = s.dstLen := rfl
@[simp] theorem configure_irqEn (n : Word) (s : State) : (configure n s).irqEn = s.irqEn := rfl
@[simp] theorem configure_twIdx (n : Word) (s : State) : (configure n s).twIdx = s.twIdx := rfl
@[simp] theorem configure_brIdx (n : Word) (s : State) : (configure n s).brIdx = s.brIdx := rfl
@[simp] theorem configure_busy (n : Word) (s : State) : (configure n s).busy = s.busy := rfl
@[simp] theorem configure_done (n : Word) (s : State) : (configure n s).done = s.done := rfl
@[simp] theorem configure_configured (n : Word) (s : State) : (configure n s).configured = true := rfl
@[simp] theorem configure_overrun (n : Word) (s : State) : (configure n s).overrun = s.overrun := rfl
@[simp] theorem configure_err (n : Word) (s : State) : (configure n s).err = s.err := rfl
@[simp] theorem configure_cfgN (n : Word) (s : State) : (configure n s).cfgN = n := rfl
@[simp] theorem configure_cfgNbits (n : Word) (s : State) : (configure n s).cfgNbits = BitVec.ofNat 5 (Nat.log2 n.toNat) := rfl
@[simp] theorem configure_active (n : Word) (s : State) : (configure n s).active = s.active := rfl
@[simp] theorem configure_mem (n : Word) (s : State) : (configure n s).mem = s.mem := rfl
@[simp] theorem configure_params (n : Word) (s : State) : (configure n s).params = s.params := rfl
@[simp] theorem configure_program (n : Word) (s : State) : (configure n s).program = s.program := rfl
@[simp] theorem configure_schedule (n : Word) (s : State) : (configure n s).schedule = s.schedule := rfl
@[simp] theorem configure_responses (n : Word) (s : State) : (configure n s).responses = s.responses := rfl
@[simp] theorem configure_hostWrites (n : Word) (s : State) : (configure n s).hostWrites = s.hostWrites := rfl
@[simp] theorem configure_hazards (n : Word) (s : State) : (configure n s).hazards = s.hazards := rfl
@[simp] theorem configure_freeCount (n : Word) (s : State) : (configure n s).freeCount = s.freeCount := rfl

/-! ### writeStatus -/

@[simp] theorem writeStatus_size (v : Word) (s : State) : (writeStatus v s).size = s.size := rfl
@[simp] theorem writeStatus_srcAddr (v : Word) (s : State) : (writeStatus v s).srcAddr = s.srcAddr := rfl
@[simp] theorem writeStatus_srcLen (v : Word) (s : State) : (writeStatus v s).srcLen = s.srcLen := rfl
@[simp] theorem writeStatus_dstAddr (v : Word) (s : State) : (writeStatus v s).dstAddr = s.dstAddr := rfl
@[simp] theorem writeStatus_dstLen (v : Word) (s : State) : (writeStatus v s).dstLen = s.dstLen := rfl
@[simp] theorem writeStatus_irqEn (v : Word) (s : State) : (writeStatus v s).irqEn = s.irqEn := rfl
@[simp] theorem writeStatus_twIdx (v : Word) (s : State) : (writeStatus v s).twIdx = s.twIdx := rfl
@[simp] theorem writeStatus_brIdx (v : Word) (s : State) : (writeStatus v s).brIdx = s.brIdx := rfl
@[simp] theorem writeStatus_busy (v : Word) (s : State) : (writeStatus v s).busy = s.busy := rfl
@[simp] theorem writeStatus_done (v : Word) (s : State) : (writeStatus v s).done = (s.done && !v.getLsbD 1) := rfl
@[simp] theorem writeStatus_configured (v : Word) (s : State) : (writeStatus v s).configured = s.configured := rfl
@[simp] theorem writeStatus_overrun (v : Word) (s : State) : (writeStatus v s).overrun = (s.overrun && !v.getLsbD 3) := rfl
@[simp] theorem writeStatus_err (v : Word) (s : State) : (writeStatus v s).err = s.err := rfl
@[simp] theorem writeStatus_cfgN (v : Word) (s : State) : (writeStatus v s).cfgN = s.cfgN := rfl
@[simp] theorem writeStatus_cfgNbits (v : Word) (s : State) : (writeStatus v s).cfgNbits = s.cfgNbits := rfl
@[simp] theorem writeStatus_active (v : Word) (s : State) : (writeStatus v s).active = s.active := rfl
@[simp] theorem writeStatus_mem (v : Word) (s : State) : (writeStatus v s).mem = s.mem := rfl
@[simp] theorem writeStatus_params (v : Word) (s : State) : (writeStatus v s).params = s.params := rfl
@[simp] theorem writeStatus_program (v : Word) (s : State) : (writeStatus v s).program = s.program := rfl
@[simp] theorem writeStatus_schedule (v : Word) (s : State) : (writeStatus v s).schedule = s.schedule := rfl
@[simp] theorem writeStatus_responses (v : Word) (s : State) : (writeStatus v s).responses = s.responses := rfl
@[simp] theorem writeStatus_hostWrites (v : Word) (s : State) : (writeStatus v s).hostWrites = s.hostWrites := rfl
@[simp] theorem writeStatus_hazards (v : Word) (s : State) : (writeStatus v s).hazards = s.hazards := rfl
@[simp] theorem writeStatus_freeCount (v : Word) (s : State) : (writeStatus v s).freeCount = s.freeCount := rfl

/-! ### respond -/

@[simp] theorem respond_size (v : Word) (s : State) : (respond v s).size = s.size := rfl
@[simp] theorem respond_srcAddr (v : Word) (s : State) : (respond v s).srcAddr = s.srcAddr := rfl
@[simp] theorem respond_srcLen (v : Word) (s : State) : (respond v s).srcLen = s.srcLen := rfl
@[simp] theorem respond_dstAddr (v : Word) (s : State) : (respond v s).dstAddr = s.dstAddr := rfl
@[simp] theorem respond_dstLen (v : Word) (s : State) : (respond v s).dstLen = s.dstLen := rfl
@[simp] theorem respond_irqEn (v : Word) (s : State) : (respond v s).irqEn = s.irqEn := rfl
@[simp] theorem respond_twIdx (v : Word) (s : State) : (respond v s).twIdx = s.twIdx := rfl
@[simp] theorem respond_brIdx (v : Word) (s : State) : (respond v s).brIdx = s.brIdx := rfl
@[simp] theorem respond_busy (v : Word) (s : State) : (respond v s).busy = s.busy := rfl
@[simp] theorem respond_done (v : Word) (s : State) : (respond v s).done = s.done := rfl
@[simp] theorem respond_configured (v : Word) (s : State) : (respond v s).configured = s.configured := rfl
@[simp] theorem respond_overrun (v : Word) (s : State) : (respond v s).overrun = s.overrun := rfl
@[simp] theorem respond_err (v : Word) (s : State) : (respond v s).err = s.err := rfl
@[simp] theorem respond_cfgN (v : Word) (s : State) : (respond v s).cfgN = s.cfgN := rfl
@[simp] theorem respond_cfgNbits (v : Word) (s : State) : (respond v s).cfgNbits = s.cfgNbits := rfl
@[simp] theorem respond_active (v : Word) (s : State) : (respond v s).active = s.active := rfl
@[simp] theorem respond_mem (v : Word) (s : State) : (respond v s).mem = s.mem := rfl
@[simp] theorem respond_params (v : Word) (s : State) : (respond v s).params = s.params := rfl
@[simp] theorem respond_program (v : Word) (s : State) : (respond v s).program = s.program := rfl
@[simp] theorem respond_schedule (v : Word) (s : State) : (respond v s).schedule = s.schedule := rfl
@[simp] theorem respond_responses (v : Word) (s : State) : (respond v s).responses = v :: s.responses := rfl
@[simp] theorem respond_hostWrites (v : Word) (s : State) : (respond v s).hostWrites = s.hostWrites := rfl
@[simp] theorem respond_hazards (v : Word) (s : State) : (respond v s).hazards = s.hazards := rfl
@[simp] theorem respond_freeCount (v : Word) (s : State) : (respond v s).freeCount = s.freeCount := rfl

/-! ### observeCompletion -/

@[simp] theorem observeCompletion_size (s : State) : (observeCompletion s).size = s.size := rfl
@[simp] theorem observeCompletion_srcAddr (s : State) : (observeCompletion s).srcAddr = s.srcAddr := rfl
@[simp] theorem observeCompletion_srcLen (s : State) : (observeCompletion s).srcLen = s.srcLen := rfl
@[simp] theorem observeCompletion_dstAddr (s : State) : (observeCompletion s).dstAddr = s.dstAddr := rfl
@[simp] theorem observeCompletion_dstLen (s : State) : (observeCompletion s).dstLen = s.dstLen := rfl
@[simp] theorem observeCompletion_irqEn (s : State) : (observeCompletion s).irqEn = s.irqEn := rfl
@[simp] theorem observeCompletion_twIdx (s : State) : (observeCompletion s).twIdx = s.twIdx := rfl
@[simp] theorem observeCompletion_brIdx (s : State) : (observeCompletion s).brIdx = s.brIdx := rfl
@[simp] theorem observeCompletion_busy (s : State) : (observeCompletion s).busy = s.busy := rfl
@[simp] theorem observeCompletion_done (s : State) : (observeCompletion s).done = s.done := rfl
@[simp] theorem observeCompletion_configured (s : State) : (observeCompletion s).configured = s.configured := rfl
@[simp] theorem observeCompletion_overrun (s : State) : (observeCompletion s).overrun = s.overrun := rfl
@[simp] theorem observeCompletion_err (s : State) : (observeCompletion s).err = s.err := rfl
@[simp] theorem observeCompletion_cfgN (s : State) : (observeCompletion s).cfgN = s.cfgN := rfl
@[simp] theorem observeCompletion_cfgNbits (s : State) : (observeCompletion s).cfgNbits = s.cfgNbits := rfl
@[simp] theorem observeCompletion_active (s : State) : (observeCompletion s).active = s.active := rfl
@[simp] theorem observeCompletion_mem (s : State) : (observeCompletion s).mem = s.mem := rfl
@[simp] theorem observeCompletion_params (s : State) : (observeCompletion s).params = s.params := rfl
@[simp] theorem observeCompletion_program (s : State) : (observeCompletion s).program = s.program := rfl
@[simp] theorem observeCompletion_schedule (s : State) : (observeCompletion s).schedule = s.schedule := rfl
@[simp] theorem observeCompletion_responses (s : State) : (observeCompletion s).responses = s.responses := rfl
@[simp] theorem observeCompletion_hostWrites (s : State) : (observeCompletion s).hostWrites = s.hostWrites := rfl
@[simp] theorem observeCompletion_hazards (s : State) : (observeCompletion s).hazards = s.hazards.map Hazard.observe := rfl
@[simp] theorem observeCompletion_freeCount (s : State) : (observeCompletion s).freeCount = s.freeCount := rfl

/-! ### hostFence -/

@[simp] theorem hostFence_size (s : State) : (hostFence s).size = s.size := rfl
@[simp] theorem hostFence_srcAddr (s : State) : (hostFence s).srcAddr = s.srcAddr := rfl
@[simp] theorem hostFence_srcLen (s : State) : (hostFence s).srcLen = s.srcLen := rfl
@[simp] theorem hostFence_dstAddr (s : State) : (hostFence s).dstAddr = s.dstAddr := rfl
@[simp] theorem hostFence_dstLen (s : State) : (hostFence s).dstLen = s.dstLen := rfl
@[simp] theorem hostFence_irqEn (s : State) : (hostFence s).irqEn = s.irqEn := rfl
@[simp] theorem hostFence_twIdx (s : State) : (hostFence s).twIdx = s.twIdx := rfl
@[simp] theorem hostFence_brIdx (s : State) : (hostFence s).brIdx = s.brIdx := rfl
@[simp] theorem hostFence_busy (s : State) : (hostFence s).busy = s.busy := rfl
@[simp] theorem hostFence_done (s : State) : (hostFence s).done = s.done := rfl
@[simp] theorem hostFence_configured (s : State) : (hostFence s).configured = s.configured := rfl
@[simp] theorem hostFence_overrun (s : State) : (hostFence s).overrun = s.overrun := rfl
@[simp] theorem hostFence_err (s : State) : (hostFence s).err = s.err := rfl
@[simp] theorem hostFence_cfgN (s : State) : (hostFence s).cfgN = s.cfgN := rfl
@[simp] theorem hostFence_cfgNbits (s : State) : (hostFence s).cfgNbits = s.cfgNbits := rfl
@[simp] theorem hostFence_active (s : State) : (hostFence s).active = s.active := rfl
@[simp] theorem hostFence_mem (s : State) : (hostFence s).mem = s.mem := rfl
@[simp] theorem hostFence_params (s : State) : (hostFence s).params = s.params := rfl
@[simp] theorem hostFence_program (s : State) : (hostFence s).program = s.program := rfl
@[simp] theorem hostFence_schedule (s : State) : (hostFence s).schedule = s.schedule := rfl
@[simp] theorem hostFence_responses (s : State) : (hostFence s).responses = s.responses := rfl
@[simp] theorem hostFence_freeCount (s : State) : (hostFence s).freeCount = s.freeCount := rfl

/-! ### hostCacheClean -/

@[simp] theorem hostCacheClean_size (s : State) : (hostCacheClean s).size = s.size := rfl
@[simp] theorem hostCacheClean_srcAddr (s : State) : (hostCacheClean s).srcAddr = s.srcAddr := rfl
@[simp] theorem hostCacheClean_srcLen (s : State) : (hostCacheClean s).srcLen = s.srcLen := rfl
@[simp] theorem hostCacheClean_dstAddr (s : State) : (hostCacheClean s).dstAddr = s.dstAddr := rfl
@[simp] theorem hostCacheClean_dstLen (s : State) : (hostCacheClean s).dstLen = s.dstLen := rfl
@[simp] theorem hostCacheClean_irqEn (s : State) : (hostCacheClean s).irqEn = s.irqEn := rfl
@[simp] theorem hostCacheClean_twIdx (s : State) : (hostCacheClean s).twIdx = s.twIdx := rfl
@[simp] theorem hostCacheClean_brIdx (s : State) : (hostCacheClean s).brIdx = s.brIdx := rfl
@[simp] theorem hostCacheClean_busy (s : State) : (hostCacheClean s).busy = s.busy := rfl
@[simp] theorem hostCacheClean_done (s : State) : (hostCacheClean s).done = s.done := rfl
@[simp] theorem hostCacheClean_configured (s : State) : (hostCacheClean s).configured = s.configured := rfl
@[simp] theorem hostCacheClean_overrun (s : State) : (hostCacheClean s).overrun = s.overrun := rfl
@[simp] theorem hostCacheClean_err (s : State) : (hostCacheClean s).err = s.err := rfl
@[simp] theorem hostCacheClean_cfgN (s : State) : (hostCacheClean s).cfgN = s.cfgN := rfl
@[simp] theorem hostCacheClean_cfgNbits (s : State) : (hostCacheClean s).cfgNbits = s.cfgNbits := rfl
@[simp] theorem hostCacheClean_active (s : State) : (hostCacheClean s).active = s.active := rfl
@[simp] theorem hostCacheClean_mem (s : State) : (hostCacheClean s).mem = s.mem := rfl
@[simp] theorem hostCacheClean_params (s : State) : (hostCacheClean s).params = s.params := rfl
@[simp] theorem hostCacheClean_program (s : State) : (hostCacheClean s).program = s.program := rfl
@[simp] theorem hostCacheClean_schedule (s : State) : (hostCacheClean s).schedule = s.schedule := rfl
@[simp] theorem hostCacheClean_responses (s : State) : (hostCacheClean s).responses = s.responses := rfl
@[simp] theorem hostCacheClean_hazards (s : State) : (hostCacheClean s).hazards = s.hazards := rfl
@[simp] theorem hostCacheClean_freeCount (s : State) : (hostCacheClean s).freeCount = s.freeCount := rfl

/-! ### hostCacheInvalidate -/

@[simp] theorem hostCacheInvalidate_size (s : State) : (hostCacheInvalidate s).size = s.size := rfl
@[simp] theorem hostCacheInvalidate_srcAddr (s : State) : (hostCacheInvalidate s).srcAddr = s.srcAddr := rfl
@[simp] theorem hostCacheInvalidate_srcLen (s : State) : (hostCacheInvalidate s).srcLen = s.srcLen := rfl
@[simp] theorem hostCacheInvalidate_dstAddr (s : State) : (hostCacheInvalidate s).dstAddr = s.dstAddr := rfl
@[simp] theorem hostCacheInvalidate_dstLen (s : State) : (hostCacheInvalidate s).dstLen = s.dstLen := rfl
@[simp] theorem hostCacheInvalidate_irqEn (s : State) : (hostCacheInvalidate s).irqEn = s.irqEn := rfl
@[simp] theorem hostCacheInvalidate_twIdx (s : State) : (hostCacheInvalidate s).twIdx = s.twIdx := rfl
@[simp] theorem hostCacheInvalidate_brIdx (s : State) : (hostCacheInvalidate s).brIdx = s.brIdx := rfl
@[simp] theorem hostCacheInvalidate_busy (s : State) : (hostCacheInvalidate s).busy = s.busy := rfl
@[simp] theorem hostCacheInvalidate_done (s : State) : (hostCacheInvalidate s).done = s.done := rfl
@[simp] theorem hostCacheInvalidate_configured (s : State) : (hostCacheInvalidate s).configured = s.configured := rfl
@[simp] theorem hostCacheInvalidate_overrun (s : State) : (hostCacheInvalidate s).overrun = s.overrun := rfl
@[simp] theorem hostCacheInvalidate_err (s : State) : (hostCacheInvalidate s).err = s.err := rfl
@[simp] theorem hostCacheInvalidate_cfgN (s : State) : (hostCacheInvalidate s).cfgN = s.cfgN := rfl
@[simp] theorem hostCacheInvalidate_cfgNbits (s : State) : (hostCacheInvalidate s).cfgNbits = s.cfgNbits := rfl
@[simp] theorem hostCacheInvalidate_active (s : State) : (hostCacheInvalidate s).active = s.active := rfl
@[simp] theorem hostCacheInvalidate_mem (s : State) : (hostCacheInvalidate s).mem = s.mem := rfl
@[simp] theorem hostCacheInvalidate_params (s : State) : (hostCacheInvalidate s).params = s.params := rfl
@[simp] theorem hostCacheInvalidate_program (s : State) : (hostCacheInvalidate s).program = s.program := rfl
@[simp] theorem hostCacheInvalidate_schedule (s : State) : (hostCacheInvalidate s).schedule = s.schedule := rfl
@[simp] theorem hostCacheInvalidate_responses (s : State) : (hostCacheInvalidate s).responses = s.responses := rfl
@[simp] theorem hostCacheInvalidate_hostWrites (s : State) : (hostCacheInvalidate s).hostWrites = s.hostWrites := rfl
@[simp] theorem hostCacheInvalidate_hazards (s : State) : (hostCacheInvalidate s).hazards = s.hazards.map Hazard.invalidate := rfl
@[simp] theorem hostCacheInvalidate_freeCount (s : State) : (hostCacheInvalidate s).freeCount = s.freeCount := rfl

/-! ### applyReset -/

@[simp] theorem applyReset_size (s : State) : (applyReset s).size = 0 := rfl
@[simp] theorem applyReset_srcAddr (s : State) : (applyReset s).srcAddr = 0 := rfl
@[simp] theorem applyReset_srcLen (s : State) : (applyReset s).srcLen = 0 := rfl
@[simp] theorem applyReset_dstAddr (s : State) : (applyReset s).dstAddr = 0 := rfl
@[simp] theorem applyReset_dstLen (s : State) : (applyReset s).dstLen = 0 := rfl
@[simp] theorem applyReset_irqEn (s : State) : (applyReset s).irqEn = false := rfl
@[simp] theorem applyReset_twIdx (s : State) : (applyReset s).twIdx = 0 := rfl
@[simp] theorem applyReset_brIdx (s : State) : (applyReset s).brIdx = 0 := rfl
@[simp] theorem applyReset_busy (s : State) : (applyReset s).busy = false := rfl
@[simp] theorem applyReset_done (s : State) : (applyReset s).done = false := rfl
@[simp] theorem applyReset_configured (s : State) : (applyReset s).configured = false := rfl
@[simp] theorem applyReset_overrun (s : State) : (applyReset s).overrun = false := rfl
@[simp] theorem applyReset_err (s : State) : (applyReset s).err = .none := rfl
@[simp] theorem applyReset_cfgN (s : State) : (applyReset s).cfgN = 0 := rfl
@[simp] theorem applyReset_cfgNbits (s : State) : (applyReset s).cfgNbits = 0 := rfl
@[simp] theorem applyReset_active (s : State) : (applyReset s).active = Option.none := rfl
@[simp] theorem applyReset_mem (s : State) : (applyReset s).mem = abortMem s := rfl
@[simp] theorem applyReset_params (s : State) : (applyReset s).params = s.params := rfl
@[simp] theorem applyReset_program (s : State) : (applyReset s).program = s.program := rfl
@[simp] theorem applyReset_schedule (s : State) : (applyReset s).schedule = s.schedule := rfl
@[simp] theorem applyReset_responses (s : State) : (applyReset s).responses = s.responses := rfl
@[simp] theorem applyReset_hostWrites (s : State) : (applyReset s).hostWrites = s.hostWrites := rfl
@[simp] theorem applyReset_hazards (s : State) : (applyReset s).hazards = s.hazards.filter fun h => decide (h.phase ≠ .running) := rfl
@[simp] theorem applyReset_freeCount (s : State) : (applyReset s).freeCount = abortCount s := rfl

/-! ### The views that a program reads -/

theorem irq_eq (s : State) : irq s = (s.done && s.irqEn) := rfl

@[simp] theorem raiseError_eq (e : ErrCode) (s : State) : raiseError e s = complete e s := rfl

@[simp] theorem geometryOf_n (s : State) (op : Operands) : (geometryOf s op).n = s.cfgN.toNat := rfl
@[simp] theorem geometryOf_nBits (s : State) (op : Operands) : (geometryOf s op).nBits = s.cfgNbits.toNat := rfl
@[simp] theorem geometryOf_sa (s : State) (op : Operands) : (geometryOf s op).sa = op.srcAddr.toNat := rfl
@[simp] theorem geometryOf_da (s : State) (op : Operands) : (geometryOf s op).da = op.dstAddr.toNat := rfl

/-- The bit fields of STATUS (10_state.md R31). -/
theorem statusWord_busy (s : State) : (statusWord s).getLsbD 0 = s.busy := by
  obtain ⟨⟩ := s
  simp only [statusWord]
  rename_i busy done configured overrun err _ _ _ _ _ _ _ _ _ _ _
  cases busy <;> cases done <;> cases configured <;> cases overrun <;> cases err <;> decide

theorem statusWord_done (s : State) : (statusWord s).getLsbD 1 = s.done := by
  obtain ⟨⟩ := s
  simp only [statusWord]
  rename_i busy done configured overrun err _ _ _ _ _ _ _ _ _ _ _
  cases busy <;> cases done <;> cases configured <;> cases overrun <;> cases err <;> decide

end Sys2Proof.Machine
end

