-- ==== Sys2Proof/Laws/Ops.lean ====
section
/-! SUPPORT. What each shared operation can do, once: the checks, a command's execution, a submission, the host's accesses,
the engine's step and a step of the machine. Proofs cite these instead of unfolding the operations. -/

namespace Sys2Proof.Machine

/-! ### The checks -/

/-- The length contract's test is the table of 30_encoding.md R73. -/
theorem lengthsOk_iff (i : Instr) (srcLen dstLen n : Nat) :
    lengthsOk i srcLen dstLen n = true ↔ LengthContract i srcLen dstLen n := by
  cases i <;> simp [lengthsOk, LengthContract]

/-- A command's checks pass exactly when each of them does (60_exceptions.md R154). -/
theorem bufferCheck_none {s : State} {i : Instr} {op : Operands} :
    bufferCheck s i op = .none ↔ s.ChecksMet i op := by
  simp only [State.ChecksMet, ← lengthsOk_iff]
  unfold bufferCheck
  dsimp only
  split
  · rename_i h1
    exact ⟨nofun, fun h => absurd h.1 (by simp [h1])⟩
  · rename_i h1
    split
    · rename_i h2
      exact ⟨nofun, fun h => absurd h.2.1 (by simp [h2])⟩
    · rename_i h2
      split
      · rename_i h3
        exact ⟨nofun, fun h => by have := h.2.2.1; omega⟩
      · rename_i h3
        split
        · rename_i h4
          refine ⟨nofun, fun h => ?_⟩
          have := h.2.2.2.1
          simp only [inWindow, Bool.and_eq_false_iff, decide_eq_false_iff_not] at h4
          omega
        · rename_i h4
          simp only [inWindow, Bool.and_eq_false_iff, decide_eq_false_iff_not] at h4
          split
          · rename_i h5
            simp only [overlapWords, Bool.and_eq_true, decide_eq_true_eq] at h5
            exact ⟨nofun, fun h => by have := h.2.2.2.2; omega⟩
          · rename_i h5
            simp only [overlapWords, Bool.and_eq_true, decide_eq_true_eq] at h5
            exact ⟨fun _ => ⟨by simpa using h1, by simpa using h2, by omega, by omega, by omega⟩, fun _ => rfl⟩

/-- A buffer command that may run has a geometry that fits, under legal parameters and a legal configuration. -/
theorem checksMet_fits {s : State} {i : Instr} {op : Operands} (h : s.ChecksMet i op)
    (hp : s.params.wellFormed = true) (hc : s.ConfigOk) : (geometryOf s op).Fits (usedWords i s.cfgN.toNat).2 := by
  obtain ⟨hconf, -, -, ⟨-, hw⟩, -⟩ := h
  simp only [State.ConfigOk, if_pos hconf] at hc
  simp only [Params.wellFormed, Bool.and_eq_true, decide_eq_true_eq] at hp
  exact ⟨hc.1, hc.2.2, by simpa using (hw.2.trans hp.2)⟩

/-! ### Execution of a command -/

theorem runBuffer_of_active {i : Instr} {body : Geometry → List Host.Cell → List Host.Cell} {s : State} {a : Active}
    (h : s.active = some a) :
    runBuffer i body s =
      if bufferCheck s i a.op ≠ .none then .next (complete (bufferCheck s i a.op) s)
      else if touchesNotNormal s i a.op = true then .fault .engineBusError
      else .next (complete .none { s with mem := body (geometryOf s a.op) s.mem }) := by
  unfold runBuffer
  rw [h]
  rfl

/-- Every command but CONFIG is a buffer command with its own body. -/
theorem exec_eq_runBuffer {i : Instr} (h : i ≠ .config) (s : State) : exec i s = runBuffer i (bodyOf i) s := by
  cases i <;> first | exact absurd rfl h | rfl

/-- A command that may run answers the next state its pseudocode gives. -/
theorem exec_of_mayRun {i : Instr} {s : State} {a : Active} (hi : i ≠ .config) (ha : s.active = some a)
    (h : s.MayRun i a.op) :
    exec i s = .next (complete .none { s with mem := bodyOf i (geometryOf s a.op) s.mem }) := by
  rw [exec_eq_runBuffer hi, runBuffer_of_active ha, if_neg (not_not.mpr (bufferCheck_none.mpr h.1)), if_neg (by simp [h.2])]

/-- A command whose checks fail completes with the first failing one and does nothing else. -/
theorem exec_of_check {i : Instr} {s : State} {a : Active} (hi : i ≠ .config) (ha : s.active = some a)
    (h : bufferCheck s i a.op ≠ .none) : exec i s = .next (complete (bufferCheck s i a.op) s) := by
  rw [exec_eq_runBuffer hi, runBuffer_of_active ha, if_pos h]

theorem execConfig_of_active {s : State} {a : Active} (h : s.active = some a) :
    exec .config s =
      if sizeIllegal s a.op.size.toNat = true then .next (complete .constructionError s)
      else .next (complete .none (configure a.op.size s)) := by
  show execConfig s = _
  unfold execConfig
  rw [h]
  rfl

/-- Everything a command can do when it answers a next state. -/
theorem exec_next {i : Instr} {s t : State} (h : exec i s = .next t) :
    ∃ a, s.active = some a ∧
      ((∃ e, e ≠ .none ∧ t = complete e s) ∨
       (i = .config ∧ sizeIllegal s a.op.size.toNat = false ∧ t = complete .none (configure a.op.size s)) ∨
       (i ≠ .config ∧ s.MayRun i a.op ∧
         t = complete .none { s with mem := bodyOf i (geometryOf s a.op) s.mem })) := by
  by_cases hi : i = .config
  · subst hi
    cases ha : s.active with
    | none =>
      have : exec .config s = .fault .noActiveCommand := by
        show execConfig s = _
        unfold execConfig
        rw [ha]
      rw [this] at h
      cases h
    | some a =>
      rw [execConfig_of_active ha] at h
      refine ⟨a, rfl, ?_⟩
      by_cases hs : sizeIllegal s a.op.size.toNat = true
      · rw [if_pos hs] at h
        cases h
        exact .inl ⟨_, by decide, rfl⟩
      · rw [if_neg hs] at h
        cases h
        exact .inr (.inl ⟨rfl, by simpa using hs, rfl⟩)
  · cases ha : s.active with
    | none =>
      have : exec i s = .fault .noActiveCommand := by
        rw [exec_eq_runBuffer hi]
        unfold runBuffer
        rw [ha]
      rw [this] at h
      cases h
    | some a =>
      refine ⟨a, rfl, ?_⟩
      rw [exec_eq_runBuffer hi, runBuffer_of_active ha] at h
      by_cases hc : bufferCheck s i a.op ≠ .none
      · rw [if_pos hc] at h
        cases h
        exact .inl ⟨_, hc, rfl⟩
      · rw [if_neg hc] at h
        by_cases hn : touchesNotNormal s i a.op = true
        · rw [if_pos hn] at h
          cases h
        · rw [if_neg hn] at h
          cases h
          exact .inr (.inr ⟨hi, ⟨bufferCheck_none.mp (not_not.mp hc), by simpa using hn⟩, rfl⟩)

/-- The body of a command that may run writes its destination used region only, and keeps the canonical form. -/
theorem bodyOf_confined {i : Instr} {s : State} {op : Operands} (hi : i ≠ .config) (h : s.ChecksMet i op)
    (hp : s.params.wellFormed = true) (hc : s.ConfigOk) (hm : memWf s.mem = true) :
    Confined op.dstAddr.toNat (op.dstAddr.toNat + 4 * (usedWords i s.cfgN.toNat).2) s.mem
      (bodyOf i (geometryOf s op) s.mem) := by
  have hg := checksMet_fits h hp hc
  cases i
  case config => exact absurd rfl hi
  case fft => exact fftBody_confined hg hm
  case ifft => exact fftBody_confined hg hm
  case fftReal => exact fftRealBody_confined hg hm
  case ifftReal => exact ifftRealBody_confined hg hm
  case bitrev => exact bitrevBody_confined hg hm
  case bflyFwd => exact bflyBody_confined hg hm
  case bflyInv => exact bflyBody_confined hg hm
  case combine => exact combineBody_confined hg hm
  case split => exact splitBody_confined hg hm

/-! ### The host's operations -/

/-- Everything a write to CMD can do when it answers a next state (60_exceptions.md R150, R163). -/
theorem submit_next {w : Word} {s t : State} (h : submit w s = .next t) :
    (s.busy = true ∧ t = { s with overrun := true }) ∨
    (s.busy = false ∧ orderingOwed s w = false ∧ t = accept w s) := by
  unfold submit at h
  by_cases hb : s.busy = true
  · rw [if_pos hb] at h
    cases h
    exact .inl ⟨hb, rfl⟩
  · rw [if_neg hb] at h
    by_cases ho : orderingOwed s w = true
    · rw [if_pos ho] at h
      cases h
    · rw [if_neg ho] at h
      cases h
      exact .inr ⟨by simpa using hb, by simpa using ho, rfl⟩

/-- Everything a host read of memory can do when it answers a next state. -/
theorem hostRead_next {r : Region} {v : Word} {s t : State} (h : hostRead r v s = .next t) :
    (∀ x ∈ s.hazards, x.forbidsRead r = false) ∧ (∀ x ∈ s.hazards, x.unordered r = false) ∧
      hostTouchesNotNormal s r = false ∧ t = respond v s := by
  unfold hostRead at h
  split at h
  · cases h
  · rename_i h1
    split at h
    · cases h
    · rename_i h2
      split at h
      · cases h
      · rename_i h3
        cases h
        refine ⟨fun x hx => ?_, fun x hx => ?_, by simpa using h3, rfl⟩
        · simp only [List.any_eq_true, not_exists, not_and, Bool.not_eq_true] at h1
          exact h1 x hx
        · simp only [List.any_eq_true, not_exists, not_and, Bool.not_eq_true] at h2
          exact h2 x hx

/-- Everything a host write of memory can do when it answers a next state. -/
theorem hostWrite_next {r : Region} {mem : List Host.Cell} {s t : State} (h : hostWrite r mem s = .next t) :
    (∀ x ∈ s.hazards, x.forbidsWrite r = false) ∧ hostTouchesNotNormal s r = false ∧
      t = { s with mem := mem, hostWrites := { region := r, cleaned := false, fenced := false } :: s.hostWrites } := by
  unfold hostWrite at h
  split at h
  · cases h
  · rename_i h1
    split at h
    · cases h
    · rename_i h2
      cases h
      refine ⟨fun x hx => ?_, by simpa using h2, rfl⟩
      simp only [List.any_eq_true, not_exists, not_and, Bool.not_eq_true] at h1
      exact h1 x hx

/-- Everything a register read transaction can do when it answers a next state. -/
theorem busReadReg_next {addr width : Nat} {s t : State} (h : busReadReg addr width s = .next t) :
    inBlock s.params addr = true ∧ width = 4 ∧ addr % 4 = 0 ∧
      ((regAt (addr - s.params.base) = Option.none ∧ t = respond 0x00000000 s) ∨
       (∃ r, regAt (addr - s.params.base) = some r ∧ t = hostReadReg r s)) := by
  unfold busReadReg at h
  split at h
  · cases h
  · rename_i h1
    split at h
    · cases h
    · rename_i h2
      refine ⟨by simpa using h1, by omega, by omega, ?_⟩
      split at h
      · rename_i h3
        cases h
        exact .inl ⟨h3, rfl⟩
      · rename_i r h3
        cases h
        exact .inr ⟨r, h3, rfl⟩

/-- Everything a register write transaction can do when it answers a next state. -/
theorem busWriteReg_next {addr width : Nat} {v : Word} {s t : State} (h : busWriteReg addr width v s = .next t) :
    inBlock s.params addr = true ∧ width = 4 ∧ addr % 4 = 0 ∧
      ((regAt (addr - s.params.base) = Option.none ∧ t = s) ∨
       (∃ r, regAt (addr - s.params.base) = some r ∧ writeReg r v s = .next t)) := by
  unfold busWriteReg at h
  split at h
  · cases h
  · rename_i h1
    split at h
    · cases h
    · rename_i h2
      refine ⟨by simpa using h1, by omega, by omega, ?_⟩
      split at h
      · rename_i h3
        cases h
        exact .inl ⟨h3, rfl⟩
      · rename_i r h3
        exact .inr ⟨r, h3, h⟩

/-- A read of a register hands the host its value and, for STATUS, may be its observation of completion. -/
theorem hostReadReg_cases (r : Reg) (s : State) :
    hostReadReg r s = respond (readReg s r) s ∨ hostReadReg r s = respond (readReg s r) (observeCompletion s) := by
  unfold hostReadReg
  simp only
  split
  · exact .inr rfl
  · exact .inl rfl

/-- What one step of the host is, by the operation at the head of its program. -/
theorem hostStep_next {s t : State} (h : hostStep s = .next t) :
    (s.program = [] ∧ t = s) ∨
    ∃ op rest, s.program = op :: rest ∧
      ((∃ addr width v, op = .regWrite addr width v ∧ busWriteReg addr width v { s with program := rest } = .next t) ∨
       (∃ addr width, op = .regRead addr width ∧ busReadReg addr width { s with program := rest } = .next t) ∨
       (∃ a v, op = .memWrite a v ∧ busMemWrite a v { s with program := rest } = .next t) ∨
       (∃ a, op = .memRead a ∧ busMemRead a { s with program := rest } = .next t) ∨
       (∃ a v, op = .byteWrite a v ∧ busByteWrite a v { s with program := rest } = .next t) ∨
       (∃ a, op = .byteRead a ∧ busByteRead a { s with program := rest } = .next t) ∨
       (op = .fence ∧ t = hostFence { s with program := rest }) ∨
       (op = .cacheClean ∧ t = hostCacheClean { s with program := rest }) ∨
       (op = .cacheInvalidate ∧ t = hostCacheInvalidate { s with program := rest }) ∨
       (op = .wait ∧ t = hostWait rest s) ∨
       (op = .takeIrq ∧ t = hostTakeIrq rest s)) := by
  unfold hostStep at h
  split at h
  · rename_i hp
    cases h
    exact .inl ⟨hp, rfl⟩
  · rename_i op rest hp
    refine .inr ⟨op, rest, hp, ?_⟩
    cases op
    case regWrite addr width v => exact .inl ⟨addr, width, v, rfl, h⟩
    case regRead addr width => exact .inr (.inl ⟨addr, width, rfl, h⟩)
    case memWrite a v => exact .inr (.inr (.inl ⟨a, v, rfl, h⟩))
    case memRead a => exact .inr (.inr (.inr (.inl ⟨a, rfl, h⟩)))
    case byteWrite a v => exact .inr (.inr (.inr (.inr (.inl ⟨a, v, rfl, h⟩))))
    case byteRead a => exact .inr (.inr (.inr (.inr (.inr (.inl ⟨a, rfl, h⟩)))))
    case fence => cases h; exact .inr (.inr (.inr (.inr (.inr (.inr (.inl ⟨rfl, rfl⟩))))))
    case cacheClean => cases h; exact .inr (.inr (.inr (.inr (.inr (.inr (.inr (.inl ⟨rfl, rfl⟩)))))))
    case cacheInvalidate => cases h; exact .inr (.inr (.inr (.inr (.inr (.inr (.inr (.inr (.inl ⟨rfl, rfl⟩))))))))
    case wait => cases h; exact .inr (.inr (.inr (.inr (.inr (.inr (.inr (.inr (.inr (.inl ⟨rfl, rfl⟩)))))))))
    case takeIrq => cases h; exact .inr (.inr (.inr (.inr (.inr (.inr (.inr (.inr (.inr (.inr ⟨rfl, rfl⟩)))))))))

/-! ### The engine and the machine -/

/-- Everything the engine's step can do when it answers a next state. -/
theorem engineStep_next {s t : State} (h : engineStep s = .next t) :
    (s.busy = false ∧ t = s) ∨
    ∃ a, s.busy = true ∧ s.active = some a ∧
      ((∃ i, decode a.word = .ok i ∧ exec i s = .next t) ∨
       (∃ r, decode a.word = .error r ∧ t = completeIllegal s)) := by
  unfold engineStep at h
  split at h
  · rename_i hb
    cases h
    exact .inl ⟨hb, rfl⟩
  · rename_i hb
    split at h
    · cases h
    · rename_i a ha
      refine .inr ⟨a, by simpa using hb, ha, ?_⟩
      split at h
      · rename_i i hi
        exact .inl ⟨i, hi, h⟩
      · rename_i r hr
        cases h
        exact .inr ⟨r, hr, rfl⟩

/-- Who moved in a step, and from which state: the host, the engine or RESET. -/
theorem step_next {s t : State} (h : step s = .next t) :
    (s.schedule = [] ∧ s.busy = true ∧ engineStep s = .next t) ∨
    (s.schedule = [] ∧ s.busy = false ∧ hostStep s = .next t) ∨
    ∃ rest,
      (s.schedule = .host :: rest ∧ hostStep { s with schedule := rest } = .next t) ∨
      (s.schedule = .engine :: rest ∧ engineStep { s with schedule := rest } = .next t) ∨
      (s.schedule = .reset :: rest ∧ t = applyReset { s with schedule := rest }) := by
  unfold step at h
  split at h
  · rename_i hs
    split at h
    · rename_i hb
      exact .inl ⟨hs, hb, h⟩
    · rename_i hb
      exact .inr (.inl ⟨hs, by simpa using hb, h⟩)
  · rename_i rest hs
    exact .inr (.inr ⟨rest, .inl ⟨hs, h⟩⟩)
  · rename_i rest hs
    exact .inr (.inr ⟨rest, .inr (.inl ⟨hs, h⟩)⟩)
  · rename_i rest hs
    cases h
    exact .inr (.inr ⟨rest, .inr (.inr ⟨hs, rfl⟩)⟩)

/-- A command word's used regions, if it has any, are those of a legal word other than CONFIG under a configured N. -/
theorem commandRegions_some {s : State} {w : Word} {op : Operands} {r : Region × Region} :
    commandRegions s w op = some r ↔
      ∃ i, decode w = .ok i ∧ s.configured = true ∧ i ≠ .config ∧ r = usedRegions s.cfgN.toNat i op := by
  unfold commandRegions
  cases hd : decode w with
  | error e => simp
  | ok i =>
    simp only [Except.ok.injEq, exists_eq_left']
    by_cases hc : s.configured = true ∧ i ≠ .config
    · rw [if_pos hc]
      simp [hc.1, hc.2, eq_comm]
    · rw [if_neg hc]
      simp only [reduceCtorEq, false_iff]
      exact fun h => hc ⟨h.1, h.2.1⟩

/-- The regions of an aborted command are the used regions of the active buffer command (70_reset_and_hazards.md R167). -/
theorem abortedRegions_some {s : State} {r : Region × Region} :
    abortedRegions s = some r ↔
      ∃ a i, s.active = some a ∧ decode a.word = .ok i ∧ s.configured = true ∧ i ≠ .config ∧
        r = usedRegions s.cfgN.toNat i a.op := by
  unfold abortedRegions
  cases ha : s.active with
  | none => simp
  | some a => simp [commandRegions_some]

/-- With no command to abort, data memory and the count of free words stay. -/
theorem abort_none {s : State} (h : abortedRegions s = Option.none) : abortMem s = s.mem ∧ abortCount s = s.freeCount := by
  unfold abortMem abortCount
  rw [h]
  exact ⟨rfl, rfl⟩

/-- An abort draws one free word for each word of the destination. -/
theorem abort_some {s : State} {src dst : Region} (h : abortedRegions s = some (src, dst)) :
    abortMem s = scramble src dst s.freeCount s.mem ∧ abortCount s = s.freeCount + dst.size / 4 := by
  unfold abortMem abortCount
  rw [h]
  exact ⟨rfl, rfl⟩

/-- What a byte reads after an abort, and that the canonical form is kept: all that `scramble` can do. -/
theorem scramble_spec {src dst : Region} {count : Nat} {m : List Host.Cell} (hm : memWf m = true) :
    memWf (scramble src dst count m) = true ∧
      ∀ x, readByte (scramble src dst count m) x =
        if regionHas dst x = true ∧ abortKeeps src dst x = false then
          byteOf (Config.freeWord (count + (x - dst.base) / 4)) ((x - dst.base) % 4)
        else readByte m x := by
  suffices h : ∀ n, memWf (forUpTo n (scrambleByte src dst count) m) = true ∧
      ∀ x, readByte (forUpTo n (scrambleByte src dst count) m) x =
        if (dst.base ≤ x ∧ x < dst.base + n) ∧ abortKeeps src dst x = false then
          byteOf (Config.freeWord (count + (x - dst.base) / 4)) ((x - dst.base) % 4)
        else readByte m x by
    simpa [regionHas, scramble] using h dst.size
  intro n
  induction n with
  | zero => exact ⟨hm, fun x => by rw [if_neg (by omega)]; rfl⟩
  | succ n ih =>
    simp only [forUpTo, scrambleByte]
    by_cases hk : abortKeeps src dst (dst.base + n) = true
    · rw [if_pos hk]
      refine ⟨ih.1, fun x => (ih.2 x).trans (if_congr ?_ rfl rfl)⟩
      constructor
      · exact fun h => ⟨⟨h.1.1, by omega⟩, h.2⟩
      · intro h
        have : x ≠ dst.base + n := fun e => by rw [e, hk] at h; exact absurd h.2 (by decide)
        exact ⟨⟨h.1.1, by omega⟩, h.2⟩
    · rw [if_neg hk]
      have hlt : dst.base + n < 2 ^ 32 := by
        by_contra hge
        simp only [abortKeeps, Bool.or_eq_true, decide_eq_true_eq] at hk
        exact hk (.inl (by omega))
      refine ⟨memWf_writeByte hlt ih.1, fun x => ?_⟩
      rw [readByte_writeByte ih.1]
      by_cases hx : x = dst.base + n
      · subst hx
        rw [if_pos rfl, if_pos ⟨⟨by omega, by omega⟩, by simpa using hk⟩, Nat.add_sub_cancel_left]
      · rw [if_neg hx, ih.2 x]
        exact if_congr (by constructor <;> exact fun h => ⟨⟨h.1.1, by omega⟩, h.2⟩) rfl rfl

/-- RESET during a command changes bytes of the destination used region only, and keeps the canonical form. -/
theorem scramble_confined {src dst : Region} {count : Nat} {m : List Host.Cell} (hm : memWf m = true) :
    Confined dst.base (dst.base + dst.size) m (scramble src dst count m) := by
  refine ⟨(scramble_spec hm).1, fun x hx => ?_⟩
  rw [(scramble_spec hm).2 x, if_neg fun h => hx (by simpa [regionHas] using h.1)]

/-- A distinct source is unchanged by an abort (70_reset_and_hazards.md R167). -/
theorem scramble_source {src dst : Region} {count x : Nat} {m : List Host.Cell} (hm : memWf m = true)
    (hne : src.base ≠ dst.base) (hx : regionHas src x = true) :
    readByte (scramble src dst count m) x = readByte m x := by
  rw [(scramble_spec hm).2 x, if_neg fun h => absurd h.2 (by simp [abortKeeps, hne, hx])]

end Sys2Proof.Machine
end

