-- ==== Sys2Proof/Laws/PerInstr.lean ====
section
/-! SUPPORT. Per-instruction laws: each command's word as the opcode map gives it. -/

namespace Sys2Proof.Laws.CommandWord

/-- The command is well formed, its word has zero reserved bits and a legal OPC, and its word is that OPC
(30_encoding.md R67, R68). -/
def Statement (i : Instr) : Prop :=
  i.wellFormed = true ∧ (cmd32Of (encode i)).wellFormed = true ∧ (encode i).toNat = i.opcode.toNat

theorem config : Statement .config := ⟨rfl, rfl, rfl⟩
theorem fft : Statement .fft := ⟨rfl, rfl, rfl⟩
theorem ifft : Statement .ifft := ⟨rfl, rfl, rfl⟩
theorem fftReal : Statement .fftReal := ⟨rfl, rfl, rfl⟩
theorem ifftReal : Statement .ifftReal := ⟨rfl, rfl, rfl⟩
theorem bitrev : Statement .bitrev := ⟨rfl, rfl, rfl⟩
theorem bflyFwd : Statement .bflyFwd := ⟨rfl, rfl, rfl⟩
theorem bflyInv : Statement .bflyInv := ⟨rfl, rfl, rfl⟩
theorem combine : Statement .combine := ⟨rfl, rfl, rfl⟩
theorem split : Statement .split := ⟨rfl, rfl, rfl⟩

end Sys2Proof.Laws.CommandWord
end

