-- ==== Sys2Proof/Tests/Slice0.lean ====
section
/-! SUPPORT. The model's own tests: words written out bit by bit, ill-formed terms refused, the vectors of 95_test_vectors.md,
and for every statement with hypotheses a state and operands that meet them. -/

namespace Sys2Proof.Tests

open Sys2Proof Sys2Proof.Machine

-- One declaration at a time: each evaluation of its own thread would reserve its own stack.
set_option Elab.async false

/-! ### Helpers -/

/-- The words ws from address a on. -/
def store (a : Nat) : List Word → List Host.Cell → List Host.Cell
  | [], m => m
  | w :: ws, m => store (a + 4) ws (writeWord m a w)

/-- The machine after CONFIG of N = 2^nBits and ACK. -/
def ready (nBits : Nat) : State :=
  { State.reset with configured := true, cfgN := BitVec.ofNat 32 (2 ^ nBits), cfgNbits := BitVec.ofNat 5 nBits }

/-- `ready`, the operand registers written and ws in the source buffer. -/
def prepared (nBits : Nat) (sa sl da dl : Word) (ws : List Word) : State :=
  { ready nBits with srcAddr := sa, srcLen := sl, dstAddr := da, dstLen := dl, mem := store sa.toNat ws [] }

/-- `prepared`, and the command word accepted. -/
def running (w nBits : Nat) (sa sl da dl : Word) (ws : List Word) : State :=
  (prepared nBits sa sl da dl ws).withFetchWord 32 w

/-- STATUS after a step, and the n words at a. -/
def after (a n : Nat) : Host.Outcome State Fault Refusal → Option (Word × List Word)
  | .next t => some (statusWord t, (List.range n).map fun k => getW t.mem a k)
  | .fault _ => none
  | .refused _ => none

/-- The state after a step, if there is one. -/
def nextOf : Host.Outcome State Fault Refusal → Option State
  | .next t => some t
  | .fault _ => none
  | .refused _ => none

/-- The fault of a step, if there is one. -/
def faultOf : Host.Outcome State Fault Refusal → Option Fault
  | .next _ => none
  | .fault f => some f
  | .refused _ => none

/-- The snapshot of the active command. -/
def opOf (s : State) : Operands :=
  match s.active with
  | some a => a.op
  | none => snapshot s

/-- The ramp 1, 2, ..., 8 (95_test_vectors.md section 3.4). -/
def ramp : List Word :=
  [0x3F800000, 0x40000000, 0x40400000, 0x40800000, 0x40A00000, 0x40C00000, 0x40E00000, 0x41000000]

/-! ### Decoding: the word of each command written out from 30_encoding.md R67 and R68 -/

theorem test_decode_config : decode 0b00000000000000000000000000000001#32 = .ok .config := by decide
theorem test_decode_fft : decode 0b00000000000000000000000000000010#32 = .ok .fft := by decide
theorem test_decode_ifft : decode 0b00000000000000000000000000000011#32 = .ok .ifft := by decide
theorem test_decode_fft_real : decode 0b00000000000000000000000000000100#32 = .ok .fftReal := by decide
theorem test_decode_ifft_real : decode 0b00000000000000000000000000000101#32 = .ok .ifftReal := by decide
theorem test_decode_bitrev : decode 0b00000000000000000000000000000110#32 = .ok .bitrev := by decide
theorem test_decode_bfly_fwd : decode 0b00000000000000000000000000000111#32 = .ok .bflyFwd := by decide
theorem test_decode_bfly_inv : decode 0b00000000000000000000000000001000#32 = .ok .bflyInv := by decide
theorem test_decode_combine : decode 0b00000000000000000000000000001001#32 = .ok .combine := by decide
theorem test_decode_split : decode 0b00000000000000000000000000001010#32 = .ok .split := by decide

/-- 95_test_vectors.md section 6.2, the illegal words. -/
theorem test_decode_refuses :
    [0x00000000, 0x0000000B, 0x0000000F, 0x00000012, 0x80000002].map decode =
      [.error .reservedOpcode, .error .reservedOpcode, .error .reservedOpcode, .error .reservedBits,
        .error .reservedBits] := by decide

/-- spec/opcode_table.json numbers the bits as R67 does. -/
theorem test_decode_table_word : decodeTableWord 32 0x0000000A = some .split ∧ decodeTableWord 32 0x1A = none := by decide

/-! ### Well-formedness: a term that meets each check, and one that each check refuses -/

theorem test_wf_cmd32 : (Cmd32.mk 0x1 0).wellFormed = true ∧ (Cmd32.mk 0xA 0).wellFormed = true := by decide
theorem test_wf_cmd32_reserved_bit : (Cmd32.mk 0x2 1).wellFormed = false := by decide
theorem test_wf_cmd32_opcode_low : (Cmd32.mk 0x0 0).wellFormed = false := by decide
theorem test_wf_cmd32_opcode_high : (Cmd32.mk 0xB 0).wellFormed = false := by decide
theorem test_wf_params : Params.default.wellFormed = true := by decide
theorem test_wf_params_nmax_low : { Params.default with log2NMax := 0 }.wellFormed = false := by decide
theorem test_wf_params_nmax_high : { Params.default with log2NMax := 30 }.wellFormed = false := by decide
theorem test_wf_params_base : { Params.default with base := 0x100000004 }.wellFormed = false := by decide
theorem test_wf_params_window : { Params.default with dmaBase := 1 }.wellFormed = false := by decide
theorem test_wf_host_op :
    (wr Params.default .brVal 0).wellFormed Params.default = true ∧
      (rd Params.default .id).wellFormed Params.default = true ∧
      (HostOp.memWrite 0x1000 0).wellFormed Params.default = true := by decide
theorem test_wf_write_below :
    (HostOp.regWrite 0xFFFFFFFC 4 0).wellFormed Params.default = false := by decide
theorem test_wf_write_above :
    (HostOp.regWrite 0x100000100 4 0).wellFormed Params.default = false := by decide
theorem test_wf_write_width :
    (HostOp.regWrite 0x100000010 2 0).wellFormed Params.default = false := by decide
theorem test_wf_write_alignment :
    (HostOp.regWrite 0x100000012 4 0).wellFormed Params.default = false := by decide
theorem test_wf_read_below : (HostOp.regRead 0xFFFFFFFC 4).wellFormed Params.default = false := by decide
theorem test_wf_read_above : (HostOp.regRead 0x100000100 4).wellFormed Params.default = false := by decide
theorem test_wf_read_width : (HostOp.regRead 0x100000010 1).wellFormed Params.default = false := by decide
theorem test_wf_read_alignment : (HostOp.regRead 0x100000011 4).wellFormed Params.default = false := by decide
theorem test_wf_mem_write : (HostOp.memWrite 0x1002 0).wellFormed Params.default = false := by decide
theorem test_wf_mem_read : (HostOp.memRead 0x1001).wellFormed Params.default = false := by decide

/-! ### The commands: one step on the vectors of 95_test_vectors.md -/

/-- Section 6.1. -/
theorem test_config_12 :
    (nextOf (step ({ ready 3 with size := 12 }.withFetchWord 32 0x1))).map
      (fun t => (statusWord t, t.cfgN, t.cfgNbits)) = some (0x00000106, 8, 3) := by decide +kernel

/-- Section 6.1. -/
theorem test_config_nmax :
    (nextOf (step ({ State.reset with size := 65536 }.withFetchWord 32 0x1))).map
      (fun t => (statusWord t, t.cfgN, t.cfgNbits)) = some (0x00000006, 65536, 16) := by decide +kernel

/-- Section 3.4, in place. -/
theorem test_fft_ramp :
    after 0x1000 8 (step (running 0x2 3 0x1000 8 0x1000 8 ramp)) = some (0x00000006,
      [0x41800000, 0x41A00000, 0xC1000000, 0, 0xC0800000, 0xC0800000, 0, 0xC1000000]) := by decide +kernel

/-- Section 3.5: 0 * infinity. -/
theorem test_fft_infinities :
    after 0x2000 4 (step (running 0x2 2 0x1000 4 0x2000 4 [0xFF800000, 0, 0x7F800000, 0])) = some (0x00000006,
      [0x7FC00000, 0x7FC00000, 0xFF800000, 0x7FC00000]) := by decide +kernel

/-- Section 3.3, the delayed impulse. -/
theorem test_ifft_impulse :
    after 0x2000 8 (step (running 0x3 3 0x1000 8 0x2000 8 [0, 0, 0x3F800000, 0, 0, 0, 0, 0])) = some (0x00000006,
      [0x3F800000, 0, 0, 0x3F800000, 0xBF800000, 0, 0, 0xBF800000]) := by decide +kernel

/-- Section 3.5, subnormals. -/
theorem test_ifft_subnormal :
    after 0x2000 4 (step (running 0x3 2 0x1000 4 0x2000 4 [1, 0, 1, 0])) = some (0x00000006, [2, 0, 0, 0]) := by
  decide +kernel

/-- Section 4.3. -/
theorem test_fft_real_ramp :
    after 0x2000 10 (step (running 0x4 3 0x1000 8 0x2000 10 ramp)) = some (0x00000006,
      [0x42100000, 0, 0xC0800000, 0x411A827A, 0xC0800000, 0x40800000, 0xC0800000, 0x3FD413CC, 0xC0800000, 0]) := by
  decide +kernel

/-- Section 4.5. -/
theorem test_fft_real_nan :
    after 0x2000 6 (step (running 0x4 2 0x1000 4 0x2000 6 [0x7FC01234, 0, 0, 0])) = some (0x00000006,
      [0x7FC00000, 0, 0x7FC00000, 0x7FC00000, 0x7FC00000, 0]) := by decide +kernel

/-- Section 7, P2: in place, words 8 and 9 stay. -/
theorem test_ifft_real_in_place :
    after 0x2000 10 (step (running 0x5 3 0x2000 10 0x2000 10
      [0x42100000, 0, 0xC0800000, 0x411A827A, 0xC0800000, 0x40800000, 0xC0800000, 0x3FD413CC, 0xC0800000, 0])) =
      some (0x00000006,
        [0x40800000, 0x41000000, 0x41400000, 0x41800000, 0x41A00000, 0x41C00000, 0x41E00000, 0x42000000,
          0xC0800000, 0]) := by decide +kernel

/-- Section 4.4: words 1 and N+1 (99 = 0x42C60000) are never read. -/
theorem test_ifft_real_unread_words :
    after 0x2000 4 (step (running 0x5 2 0x1000 6 0x2000 4
      [0x3F800000, 0x42C60000, 0x3F800000, 0, 0x3F800000, 0x42C60000])) = some (0x00000006, [0x40000000, 0, 0, 0]) := by
  decide +kernel

/-- Section 3.1. -/
theorem test_bitrev_ramp :
    after 0x2000 8 (step (running 0x6 3 0x1000 8 0x2000 8 ramp)) = some (0x00000006,
      [0x3F800000, 0x40000000, 0x40A00000, 0x40C00000, 0x40400000, 0x40800000, 0x40E00000, 0x41000000]) := by
  decide +kernel

/-- Section 3.1, L = 0. -/
theorem test_bitrev_one_point :
    after 0x2000 2 (step (running 0x6 1 0x1000 2 0x2000 2 [0x40400000, 0x3F800000])) =
      some (0x00000006, [0x40400000, 0x3F800000]) := by decide +kernel

/-- Section 3.2. -/
theorem test_bfly_fwd :
    after 0x2000 8 (step (running 0x7 3 0x1000 8 0x2000 8
      [0x3F800000, 0x40000000, 0x40A00000, 0x40C00000, 0x40400000, 0x40800000, 0x40E00000, 0x41000000])) =
      some (0x00000006, [0x41800000, 0x41A00000, 0xC1000000, 0, 0xC0800000, 0xC0800000, 0, 0xC1000000]) := by
  decide +kernel

/-- Section 3.2. -/
theorem test_bfly_inv :
    after 0x2000 8 (step (running 0x8 3 0x1000 8 0x2000 8
      [0x3F800000, 0, 0xBF800000, 0, 0, 0xBF800000, 0, 0x3F800000])) =
      some (0x00000006, [0, 0, 0x40800000, 0, 0, 0, 0, 0]) := by decide +kernel

/-- Section 4.1. -/
theorem test_combine :
    after 0x2000 10 (step (running 0x9 3 0x1000 8 0x2000 10
      [0x3F800000, 0x40000000, 0x40A00000, 0x40C00000, 0x40400000, 0x40800000, 0x40E00000, 0x41000000])) =
      some (0x00000006, [0x40400000, 0, 0x413A8279, 0xC0A7C3B7, 0x40400000, 0xC0800000, 0x3EAFB0CA, 0xC04F876D,
        0xBF800000, 0]) := by decide +kernel

/-- Section 4.2: the middle bin keeps the second result. -/
theorem test_combine_middle_bin :
    after 0x2000 6 (step (running 0x9 2 0x1000 4 0x2000 6 [0x3F800000, 0, 0x80000000, 0x3F800000])) = some (0x00000006,
      [0x3F800000, 0, 0x80000000, 0xBF800000, 0x3F800000, 0]) := by decide +kernel

/-- Section 4.1. -/
theorem test_split :
    after 0x2000 4 (step (running 0xA 2 0x1000 6 0x2000 4 [0x40800000, 0, 0, 0, 0, 0])) = some (0x00000006,
      [0x40000000, 0x40000000, 0, 0]) := by decide +kernel

/-- Section 4.1, in place: words 4 and 5 unchanged. -/
theorem test_split_in_place :
    after 0x1000 6 (step (running 0xA 2 0x1000 6 0x1000 4 [0x3F800000, 0, 0x3F800000, 0, 0x3F800000, 0])) =
      some (0x00000006, [0x3F800000, 0, 0x3F800000, 0, 0x3F800000, 0]) := by decide +kernel

/-! ### Errors, tables and ports -/

/-- 95_test_vectors.md section 6.2. -/
theorem test_error_codes :
    [after 0 0 (step (running 0x2 2 0x1000 3 0x2000 4 [])), after 0 0 (step (running 0x12 2 0x1000 4 0x2000 4 [])),
      after 0 0 (step (running 0x2 2 0x1002 4 0x2000 4 [])), after 0 0 (step (running 0x2 2 0x1002 3 0x2000 4 [])),
      after 0 0 (step (running 0x2 2 0x1000 4 0xFFFFFFF8 4 [])),
      after 0 0 (step (running 0x2 2 0x1000 4 0xFFFFFFF0 4 [])),
      after 0 0 (step (running 0x2 2 0x1000 4 0x1004 4 [])), after 0 0 (step (running 0x2 2 0x1000 4 0x1010 4 [])),
      after 0 0 (step (running 0x4 2 0x1000 4 0x0FF0 6 []))] =
    [some (0x00000206, []), some (0x00000306, []), some (0x00000506, []), some (0x00000206, []), some (0x00000606, []),
      some (0x00000006, []), some (0x00000706, []), some (0x00000006, []), some (0x00000706, [])] := by decide +kernel

/-- 95_test_vectors.md section 6.2, the first row. -/
theorem test_not_configured :
    (nextOf (step (State.reset.withFetchWord 32 0x2))).map statusWord = some 0x00000402 := by decide +kernel

/-- 95_test_vectors.md section 2.1, N = 16. -/
theorem test_tables_16 :
    (List.range 8).map (cosF 4) = [0x3F800000, 0x3F3504F3, 0, 0xBF3504F3, 0xBF800000, 0xBF3504F3, 0, 0x3F3504F3] ∧
    (List.range 8).map (sinH 4) = [0, 0xBEC3EF15, 0xBF3504F3, 0xBF6C835E, 0xBF800000, 0xBF6C835E, 0xBF3504F3,
      0xBEC3EF15] := by decide +kernel

/-- 95_test_vectors.md section 2.3. -/
theorem test_read_ports :
    readReg { ready 4 with twIdx := 0x80000007 } .twCos = 0xBF6C835E ∧
    readReg { ready 4 with twIdx := 0x80000007 } .twSin = 0xBEC3EF15 ∧
    readReg { ready 4 with twIdx := 8 } .twCos = 0 ∧ readReg { ready 4 with brIdx := 3 } .brVal = 6 ∧
    readReg { ready 4 with brIdx := 8 } .brVal = 0 := by decide +kernel

/-- 95_test_vectors.md section 6.3: a second CMD write while busy. -/
theorem test_overrun :
    (nextOf (hostStep { running 0x2 2 0x1000 4 0x2000 4 [] with program := pseudoCmd Params.default .ifft })).map
      statusWord = some 0x0000000D := by decide +kernel

/-! ### Witnesses: for every statement of Certificates/Slice0/Obligations.lean that has hypotheses, concrete values that meet them

`fftRun` is the ramp of 95_test_vectors.md section 3.4 with FFT accepted; N = 4 unless a witness says otherwise. -/

/-- The outcome is a next state that meets the test. -/
def nextMeets (p : State → Bool) (o : Host.Outcome State Fault Refusal) : Bool :=
  match o with
  | .next t => p t
  | .fault _ => false
  | .refused _ => false

theorem exists_of_nextMeets {p : State → Bool} {o : Host.Outcome State Fault Refusal} (h : nextMeets p o = true) :
    ∃ t, o = .next t ∧ p t = true := by
  cases o with
  | next t => exact ⟨t, rfl, h⟩
  | fault f => simp [nextMeets] at h
  | refused r => simp [nextMeets] at h

/-- FFT accepted on the impulse, N = 4, between distinct buffers. -/
def fftRun : State := running 0x2 2 0x1000 4 0x2000 4 [0x3F800000]

/-- A command of this word accepted, N = 4, buffers of the used lengths, in place. -/
def inPlace (w : Nat) (sl dl : Word) : State := running w 2 0x1000 sl 0x1000 dl [0x3F800000, 0x40000000]

/-- The command whose word is the OPC of i, accepted with its used lengths, N = 2^nBits, between distinct buffers. -/
def runOf (i : Instr) (nBits : Nat) : State :=
  running (encode i).toNat nBits 0x1000 (BitVec.ofNat 32 (usedWords i (2 ^ nBits)).1) 0x2000
    (BitVec.ofNat 32 (usedWords i (2 ^ nBits)).2) ramp

/-- What the witness of a command that runs must meet: the invariant, ACTIVE, and `MayRun`. -/
abbrev Runs (i : Instr) (s : State) : Prop :=
  s.Inv ∧ s.active.isSome = true ∧ s.MayRun i (opOf s)

/-! #### 00_scope.md -/

theorem witness_BitReversalReversesEveryBit :
    6 < 2 ^ 3 ∧ 0 < 3 ∧ 2 < 3 ∧ (revBits 3 6).testBit 0 = Nat.testBit 6 2 ∧ (revBits 3 6).testBit 2 = Nat.testBit 6 0 ∧
      0 < 2 ^ 0 := by decide

/-- The least magnitude that rounds to infinity, and the one below it. -/
theorem witness_RoundingIsToNearestEven :
    0 < (2 ^ 25 - 1) * 2 ^ 103 ∧ (rn32 false ((2 ^ 25 - 1) * 2 ^ 103) 0).toNat % 2 ^ 31 = infMag ∧
      0 < (2 ^ 25 - 1) * 2 ^ 103 - 1 ∧ (rn32 true ((2 ^ 25 - 1) * 2 ^ 103 - 1) 0).toNat % 2 ^ 31 < infMag := by
  decide +kernel

theorem witness_AdditionFollowsItsFiveCases :
    fIsNaN 0x7F800001 = true ∧ (fIsInf 0x7F800000 = true ∧ fIsInf 0xFF800000 = true) ∧ fExp 0x7F7FFFFF ≠ 255 ∧
      fValue 0x00000001 + fValue 0x00000000 ≠ 0 ∧ fValue 0x80000000 + fValue 0x80000000 = 0 ∧
      fValue 0x3F800000 + fValue 0xBF800000 = 0 := by decide +kernel

/-- The two boundaries of exact halving: biased exponent 2, and an even subnormal result. -/
theorem witness_MultiplicationFollowsItsFiveCases :
    fIsNaN 0x7F800001 = true ∧ (fIsInf 0x7F800000 = true ∧ fIsZero 0x80000000 = true) ∧
      (fIsNaN 0x00000001 = false ∧ fIsZero 0x00000001 = false) ∧ (fIsZero 0x00000000 = true ∧ fExp 0x7F7FFFFF ≠ 255) ∧
      (fExp 0x00000001 ≠ 255 ∧ fIsZero 0x00000001 = false) ∧ 2 ≤ fExp 0x01000000 ∧
      (fExp 0x00800002 = 1 ∧ fMag 0x00800002 % 2 = 0) := by decide +kernel

theorem witness_NaNResultsAreCanonical :
    fIsNaN (fadd 0x7F800000 0xFF800000) = true ∧ fIsNaN (fsub 0x7F800000 0x7F800000) = true ∧
      fIsNaN (fmul 0x7F800000 0x00000000) = true := by decide +kernel

/-! #### Reset -/

/-- An idle machine, an active CONFIG, an active illegal word, an active FFT with no N configured, and an active FFT. -/
theorem witness_ResetEventClearsTheMachine :
    let idle : State := { ready 2 with schedule := [.reset] }
    let config : State := { running 0x1 2 0 0 0 0 [] with schedule := [.reset] }
    let illegal : State := { running 0x12 2 0x1000 4 0x2000 4 [] with schedule := [.reset] }
    let unconfigured : State := { State.reset.withFetchWord 32 0x2 with schedule := [.reset] }
    let busy : State := { fftRun with schedule := [.reset] }
    (idle.Inv ∧ idle.busy = false) ∧ (config.Inv ∧ config.active.map (·.word) = some 0x1 ∧ decode 0x1 = .ok .config) ∧
      (illegal.Inv ∧ illegal.active.map (·.word) = some 0x12 ∧ decode 0x12 = .error .reservedBits) ∧
      (unconfigured.Inv ∧ unconfigured.active.map (·.word) = some 0x2 ∧ unconfigured.configured = false) ∧
      (busy.Inv ∧ busy.active = some { word := 0x2, op := opOf busy } ∧ decode 0x2 = .ok .fft) :=
  ⟨by decide +kernel, by decide +kernel, by decide +kernel, by decide +kernel, by decide +kernel⟩

/-- A command whose checks are met, one that would report SIZE_MISMATCH, and one that would report ALIAS_ERROR, whose destination's
last byte is past the source's end. -/
theorem witness_AbortLeavesFreeWordsAndTheSource :
    let size := running 0x2 2 0x1000 3 0x2000 4 []
    let aliased := running 0x2 2 0x1000 4 0x1004 4 []
    (fftRun.Inv ∧ fftRun.active = some { word := 0x2, op := opOf fftRun } ∧ decode 0x2 = .ok .fft ∧
      fftRun.configured = true ∧ fftRun.ChecksMet .fft (opOf fftRun)) ∧
    (3 < (usedWords .fft fftRun.cfgN.toNat).2 ∧ 0x2000 + 4 * 3 + 3 < 2 ^ 32 ∧
      (opOf fftRun).srcAddr ≠ (opOf fftRun).dstAddr ∧ 0x100F < (opOf fftRun).srcAddr.toNat + 4 * 4) ∧
    (size.Inv ∧ size.active = some { word := 0x2, op := opOf size } ∧ size.configured = true ∧
      bufferCheck size .fft (opOf size) = .sizeMismatch) ∧
    (aliased.Inv ∧ aliased.active = some { word := 0x2, op := opOf aliased } ∧ aliased.configured = true ∧
      bufferCheck aliased .fft (opOf aliased) = .aliasError ∧
      ¬((opOf aliased).srcAddr.toNat ≤ (opOf aliased).dstAddr.toNat + 4 * 3 + 3 ∧
        (opOf aliased).dstAddr.toNat + 4 * 3 + 3 < (opOf aliased).srcAddr.toNat + 4 * 4)) :=
  ⟨by decide +kernel, by decide +kernel, by decide +kernel, by decide +kernel⟩

/-- 70_reset_and_hazards.md R167: a command that would report SIZE_MISMATCH leaves its destination free too. -/
theorem test_abort_of_a_failing_command :
    abortedRegions (running 0x2 2 0x1000 3 0x2000 4 []) =
      some ({ base := 0x1000, size := 16 }, { base := 0x2000, size := 16 }) := by decide +kernel

/-! #### Registers -/

/-- Busy; and the least and the largest LOG2_NMAX. -/
theorem witness_StatusReadsItsFields :
    (fftRun.Inv ∧ fftRun.busy = true) ∧ { Params.default with log2NMax := 1 }.wellFormed = true ∧
      { Params.default with log2NMax := 29 }.wellFormed = true := by decide +kernel

theorem witness_StatusWriteClearsOnlyDoneAndOverrun :
    let s : State := { ready 2 with done := true, overrun := true, program := pseudoAck Params.default }
    s.params.base % 4 = 0 ∧ s.program = wr s.params .status 0x2 :: [] := by decide

theorem witness_WritableRegistersReadBack :
    let s : State := { fftRun with program := [wr Params.default .irqEn 0xFFFFFFFF, wr Params.default .brIdx 7] }
    s.params.base % 4 = 0 ∧ Reg.irqEn ∈ [Reg.size, .srcAddr, .srcLen, .dstAddr, .dstLen, .irqEn, .twIdx, .brIdx] ∧
      s.program = wr s.params .irqEn 0xFFFFFFFF :: [wr s.params .brIdx 7] := by decide +kernel

theorem witness_RegisterWriteChangesOnlyItsRegister :
    (∃ t, writeReg .cmd 0x2 (ready 2) = .next t ∧ t.busy = true) ∧
      (∃ t, writeReg .twIdx 0x1 (ready 2) = .next t ∧ decide (t.twIdx = 1) = true) ∧
      (∃ t, writeReg .brIdx 0x1 (ready 2) = .next t ∧ decide (t.brIdx = 1) = true) ∧
      (∃ t, writeReg .id 0x1 (ready 2) = .next t ∧ decide (t = ready 2) = true) :=
  ⟨exists_of_nextMeets (by decide +kernel), exists_of_nextMeets (by decide +kernel),
    exists_of_nextMeets (by decide +kernel), exists_of_nextMeets (by decide +kernel)⟩

theorem witness_RegisterReadHasNoSideEffect : fftRun.params.base % 4 = 0 := by decide +kernel

/-- The first and the last byte of the block. -/
theorem witness_OtherRegisterAccessesFault :
    (fftRun.params.base ≤ 0x100000000 ∧ 0x100000000 ≤ fftRun.params.base + 0xFF ∧ 2 ≠ 4) ∧
      (fftRun.params.base ≤ 0x1000000FF ∧ 0x1000000FF ≤ fftRun.params.base + 0xFF ∧ 0x1000000FF % 4 ≠ 0) := by
  decide +kernel

theorem witness_ReservedOffsetsReadZeroAndIgnoreWrites :
    fftRun.params.base % 4 = 0 ∧ (0x44 % 4 = 0 ∧ 0x44 ≤ 0x44 ∧ 0x44 ≤ 0xFC) ∧ (0xFC % 4 = 0 ∧ 0x44 ≤ 0xFC) := by
  decide +kernel

/-- A CONFIG that changes the configuration, a RESET, and a step that changes nothing of it. -/
theorem witness_OnlyConfigAndResetChangeTheConfiguration :
    (∃ t, step ({ ready 2 with size := 8 }.withFetchWord 32 0x1) = .next t ∧ decide (t.cfgN = 8) = true) ∧
      (∃ t, step { ready 2 with schedule := [.reset] } = .next t ∧ decide (t.cfgN = 0) = true) ∧
      (∃ t, step fftRun = .next t ∧ decide (t.cfgN = 4) = true) :=
  ⟨exists_of_nextMeets (by decide +kernel), exists_of_nextMeets (by decide +kernel),
    exists_of_nextMeets (by decide +kernel)⟩

/-! #### Memory -/

/-- The last word of the address space. -/
theorem witness_WordsAreLittleEndian :
    memWf fftRun.mem = true ∧ 0xFFFFFFFC + 4 ≤ 2 ^ 32 ∧ 3 < 4 := by decide +kernel

theorem witness_HostWordWriteReadsBack :
    memWf (ready 2).mem = true ∧ (0xFFFFFFFC : Word).toNat % 4 = 0 ∧ (ready 2).hazards = [] ∧
      (ready 2).params.notNormal = [] := by decide +kernel

/-- The first and the last byte and word of each buffer, and the word that follows the destination. -/
theorem witness_BuffersInUseAreClosedToTheHost :
    let src : Region := { base := 0x1000, size := 16 }
    let dst : Region := { base := 0x2000, size := 16 }
    (fftRun.Inv ∧ fftRun.active = some { word := 0x2, op := opOf fftRun } ∧
      commandRegions fftRun 0x2 (opOf fftRun) = some (src, dst)) ∧
    (regionHas src 0x1000 = true ∧ regionHas src 0x100F = true ∧ regionHas dst 0x2000 = true ∧
      regionHas dst 0x200F = true) ∧
    (0x100C % 4 = 0 ∧ 0x200C % 4 = 0 ∧ 3 < 4 ∧ regionHas src (0x100C + 3) = true ∧ regionHas dst (0x200C + 3) = true) ∧
    (fftRun.hazards = [{ src := src, dst := dst, phase := .running, invalidated := false }] ∧
      fftRun.params.notNormal = [] ∧ src.base ≠ dst.base ∧ regionHas dst 0x2010 = false ∧
      ∀ b, b < 4 → regionHas dst (0x2010 + b) = false) :=
  ⟨by decide +kernel, by decide +kernel, by decide +kernel, by decide +kernel⟩

/-- The host writes outside the buffers while the command is active. -/
theorem witness_HostCannotDisturbAnActiveCommand :
    let s : State := { fftRun with program := [.memWrite 0x2010 0x1] }
    s.Inv ∧ s.active = some { word := 0x2, op := opOf s } ∧
      commandRegions s 0x2 (opOf s) = some ({ base := 0x1000, size := 16 }, { base := 0x2000, size := 16 }) ∧
      ∃ t, hostStep s = .next t ∧ decide (t.mem ≠ s.mem) = true := by
  refine ⟨by decide +kernel, by decide +kernel, by decide +kernel, exists_of_nextMeets (by decide +kernel)⟩

/-- A success, an error, and a CONFIG. -/
theorem witness_CommandsChangeOnlyTheirDestination :
    fftRun.Inv ∧ fftRun.active = some { word := 0x2, op := opOf fftRun } ∧
      (opOf fftRun).srcAddr ≠ (opOf fftRun).dstAddr ∧
      (∃ t, exec .fft fftRun = .next t ∧ decide (t.err = .none ∧ t.mem ≠ fftRun.mem) = true) ∧
      (running 0x2 2 0x1000 3 0x2000 4 []).Inv ∧
      (∃ t, exec .fft (running 0x2 2 0x1000 3 0x2000 4 []) = .next t ∧ decide (t.err = .sizeMismatch) = true) ∧
      (∃ t, exec .config ({ ready 2 with size := 8 }.withFetchWord 32 0x1) = .next t ∧
        decide (t.cfgN = 8) = true) :=
  ⟨by decide +kernel, by decide +kernel, by decide +kernel, exists_of_nextMeets (by decide +kernel), by decide +kernel,
    exists_of_nextMeets (by decide +kernel), exists_of_nextMeets (by decide +kernel)⟩

/-- FFT_REAL in place and between adjacent buffers; SPLIT between buffers whose words 1 and N+1 differ. -/
theorem witness_ResultDependsOnlyOnTheSourceWords :
    let g : Geometry := { sa := 0x1000, da := 0x1000, n := 4, nBits := 2 }
    let g' : Geometry := { sa := 0x1000, da := 0x1018, n := 4, nBits := 2 }
    let m := store 0x1000 [1, 2, 3, 4, 5, 6] []
    let m' := store 0x1000 [1, 7, 3, 4, 5, 8] []
    (1 ≤ g.nBits ∧ g.n = 2 ^ g.nBits ∧ g'.nBits = g.nBits ∧ g'.n = g.n ∧ memWf m = true ∧ memWf m' = true) ∧
      (g.da + 4 * (usedWords .fftReal g.n).2 ≤ 2 ^ 32 ∧ g'.da + 4 * (usedWords .fftReal g.n).2 ≤ 2 ^ 32 ∧
        InPlaceOrDisjoint g.sa (usedWords .fftReal g.n).1 g.da (usedWords .fftReal g.n).2 ∧
        InPlaceOrDisjoint g'.sa (usedWords .fftReal g.n).1 g'.da (usedWords .fftReal g.n).2 ∧
        ∀ k, k < 4 → getW m g.sa k = getW m g'.sa k) ∧
      (InPlaceOrDisjoint g.sa (usedWords .split g.n).1 g.da (usedWords .split g.n).2 ∧
        InPlaceOrDisjoint g'.sa (usedWords .split g.n).1 g'.da (usedWords .split g.n).2 ∧
        ∀ k, k < 6 → k ≠ 1 ∧ k ≠ 5 → getW m g.sa k = getW m' g'.sa k) := by decide +kernel

/-! #### Encoding and the host -/

/-- A reserved bit, a reserved opcode; each as the active command. -/
theorem witness_IllegalWordsAreAcceptedAndCompleteWithCodeThree :
    ((0x00000012 : Word).extractLsb' 4 28 ≠ 0) ∧
      (((0x0000000B : Word).extractLsb' 0 4).toNat ∈ [0x0, 0xB, 0xC, 0xD, 0xE, 0xF]) ∧ (ready 2).busy = false ∧
      (running 0x12 2 0x1000 4 0x2000 4 []).busy = true ∧
      (running 0x12 2 0x1000 4 0x2000 4 []).active.map (·.word) = some 0x12 ∧
      (running 0xB 2 0x1000 4 0x2000 4 []).active.map (·.word) = some 0xB := by decide +kernel

theorem witness_WaitRepeatsWhileBusy :
    ({ fftRun with program := [.wait] } : State).program = .wait :: [] ∧ fftRun.busy = true ∧ (ready 2).busy = false := by
  decide +kernel

/-! #### CONFIG and the tables -/

/-- The least and the largest size, and one that is no power of two. -/
theorem witness_ConfigAcceptsExactlyThePowersOfTwo :
    let s : Word → State := fun n => { ready 2 with size := n }.withFetchWord 32 0x1
    (∀ n, (s n).active = some { word := 0x1, op := opOf (s n) }) ∧ (s 2).params.wellFormed = true ∧
      (1 ≤ 1 ∧ 1 ≤ (s 2).params.log2NMax ∧ (opOf (s 2)).size.toNat = 2 ^ 1) ∧
      (16 ≤ (s 65536).params.log2NMax ∧ (opOf (s 65536)).size.toNat = 2 ^ 16) ∧
      ¬∃ k, 1 ≤ k ∧ k ≤ (s 12).params.log2NMax ∧ (opOf (s 12)).size.toNat = 2 ^ k := by
  refine ⟨fun n => rfl, by decide, by decide, by decide, ?_⟩
  rintro ⟨k, h1, h2, h3⟩
  have h4 : k ≤ 16 := h2
  have h5 : (12 : Nat) = 2 ^ k := h3
  interval_cases k <;> omega

theorem witness_TwiddleTablesAreCorrectlyRounded :
    (1 ≤ 1 ∧ 0 < 2 ^ (1 - 1)) ∧ (1 ≤ 29 ∧ 2 ^ 28 - 1 < 2 ^ (29 - 1)) := by decide

theorem witness_RomStridesServeTheTables :
    (63 < 2 ^ 6 ∧ 0 < 2 ^ 0) ∧ (1 ≤ 1 ∧ 1 ≤ 6 ∧ 0 < 2 ^ (1 - 1)) ∧ (1 ≤ 6 ∧ 6 ≤ 6 ∧ 31 < 2 ^ (6 - 1)) := by decide

/-- N = 16: the last index of each clause. -/
theorem witness_TableIdentities :
    1 ≤ 4 ∧ 2 * 3 < 2 ^ (4 - 1) ∧ (0 < 7 ∧ 7 < 2 ^ (4 - 1) ∧ 2 * 7 ≠ 2 ^ (4 - 1)) ∧ 2 ≤ 2 ^ (4 - 1) := by decide

theorem witness_ReadPortsShowTheTables : (ready 4).params.base % 4 = 0 := by decide

/-! #### The commands that run: N = 2, N = 4 and N = 8, between distinct buffers and in place -/

theorem witness_BitrevPermutesEveryElement :
    Runs .bitrev (runOf .bitrev 1) ∧ Runs .bitrev (runOf .bitrev 3) ∧ Runs .bitrev (inPlace 0x6 4 4) ∧
      3 < (runOf .bitrev 3).cfgN.toNat / 2 :=
  ⟨by decide +kernel, by decide +kernel, by decide +kernel, by decide +kernel⟩

theorem witness_ButterflyCommandsCopyThenRunTheStages :
    Runs .bflyFwd (runOf .bflyFwd 3) ∧ Runs .bflyInv (runOf .bflyInv 3) ∧ Runs .bflyFwd (inPlace 0x7 4 4) ∧
      Runs .bflyInv (inPlace 0x8 4 4) :=
  ⟨by decide +kernel, by decide +kernel, by decide +kernel, by decide +kernel⟩

theorem witness_FftAndIfftPermuteThenRunTheStages :
    Runs .fft (runOf .fft 3) ∧ Runs .ifft (runOf .ifft 3) ∧ Runs .fft (inPlace 0x2 4 4) ∧
      Runs .ifft (inPlace 0x3 4 4) :=
  ⟨by decide +kernel, by decide +kernel, by decide +kernel, by decide +kernel⟩

theorem witness_CopyMovesWordsBitForBit :
    memWf (store 0x1000 ramp []) = true ∧ 0x1020 + 4 * 8 ≤ 2 ^ 32 ∧ InPlaceOrDisjoint 0x1000 8 0x1020 8 ∧
      InPlaceOrDisjoint 0x1000 8 0x1000 8 ∧ 7 < 8 := by decide +kernel

/-- N = 8: the first and the last stage, and their last butterflies; and a sequence of memories, one stage after the other. -/
theorem witness_StageAppliesEveryButterflyOnce :
    (let m := store 0x1000 ramp []
     let f : Nat → List Host.Cell := fun s => forUpTo s (fun t m => stage 3 4 0x1000 false (t + 1) m) m
     f 0 = m ∧ ∀ s, s < 3 - 1 → f (s + 1) = stage 3 4 0x1000 false (s + 1) (f s)) ∧
    memWf (store 0x1000 ramp []) = true ∧ 0x1000 + 4 * 2 ^ 3 ≤ 2 ^ 32 ∧
      (1 ≤ 1 ∧ 1 ≤ 3 - 1 ∧ 1 < 2 ^ (3 - 1) / 2 ^ 1 ∧ 0 < 2 ^ (1 - 1)) ∧
      (1 ≤ 2 ∧ 2 ≤ 3 - 1 ∧ 0 < 2 ^ (3 - 1) / 2 ^ 2 ∧ 1 < 2 ^ (2 - 1)) ∧ 3 < 2 ^ (3 - 1) :=
  ⟨⟨rfl, fun _ _ => rfl⟩, by decide +kernel⟩

theorem witness_TwoPointTransformIsOneButterfly :
    memWf (store 0x1000 ramp []) = true ∧ 0x2000 + 16 ≤ 2 ^ 32 ∧ InPlaceOrDisjoint 0x1000 4 0x1010 4 ∧
      InPlaceOrDisjoint 0x1000 4 0x1000 4 := by decide +kernel

theorem witness_OnePointTransformsCopyThePair :
    Instr.bflyInv ∈ [Instr.fft, .ifft, .bitrev, .bflyFwd, .bflyInv] ∧ memWf (store 0x1000 ramp []) = true ∧
      0x1008 + 8 ≤ 2 ^ 32 ∧ InPlaceOrDisjoint 0x1000 2 0x1008 2 ∧ InPlaceOrDisjoint 0x1000 2 0x1000 2 ∧ 1 < 2 := by
  decide +kernel

theorem witness_TransformsAreBitrevThenButterflies :
    Runs .bitrev (runOf .bitrev 3) ∧ ∃ t, exec .bitrev (runOf .bitrev 3) = .next t ∧ decide (t.err = .none) = true :=
  ⟨by decide +kernel, exists_of_nextMeets (by decide +kernel)⟩

/-- N = 8 has a pair below the middle, N = 4 a middle bin, N = 2 the boundary alone. -/
theorem witness_CombineGivesTheRealSpectrum :
    Runs .combine (runOf .combine 1) ∧ Runs .combine (runOf .combine 2) ∧ Runs .combine (runOf .combine 3) ∧
      Runs .combine (inPlace 0x9 6 6) ∧ (1 ≤ 1 ∧ 2 * 1 < (runOf .combine 3).cfgN.toNat / 2) ∧
      2 ≤ (runOf .combine 2).cfgN.toNat / 2 :=
  ⟨by decide +kernel, by decide +kernel, by decide +kernel, by decide +kernel, by decide +kernel,
    by decide +kernel⟩

theorem witness_SplitGivesTheFoldedSpectrum :
    Runs .split (runOf .split 1) ∧ Runs .split (runOf .split 2) ∧ Runs .split (runOf .split 3) ∧
      Runs .split (inPlace 0xA 6 6) ∧ (1 ≤ 1 ∧ 2 * 1 < (runOf .split 3).cfgN.toNat / 2) ∧
      2 ≤ (runOf .split 2).cfgN.toNat / 2 :=
  ⟨by decide +kernel, by decide +kernel, by decide +kernel, by decide +kernel, by decide +kernel,
    by decide +kernel⟩

theorem witness_RealTransformsRunTheirPrimitives :
    Runs .fftReal (runOf .fftReal 3) ∧ Runs .ifftReal (runOf .ifftReal 3) ∧ Runs .fftReal (inPlace 0x4 6 6) ∧
      Runs .ifftReal (inPlace 0x5 6 6) :=
  ⟨by decide +kernel, by decide +kernel, by decide +kernel, by decide +kernel⟩

/-- All in place, and all between distinct buffers. -/
theorem witness_RealTransformsAreCompositions :
    1 ≤ 2 ∧ 4 = 2 ^ 2 ∧ memWf (store 0x1000 ramp []) = true ∧ 0x3000 + 4 * (4 + 2) ≤ 2 ^ 32 ∧
      (InPlaceOrDisjoint 0x1000 (4 + 2) 0x1000 (4 + 2)) ∧
      (InPlaceOrDisjoint 0x1000 (4 + 2) 0x1018 (4 + 2) ∧ InPlaceOrDisjoint 0x1018 (4 + 2) 0x3000 (4 + 2)) := by
  decide +kernel

/-- A NaN input at N = 4, and N = 2. -/
theorem witness_RealTransformForcesItsZeros :
    let nan := running 0x4 2 0x1000 4 0x2000 6 [0x7FC01234, 0x7F800000]
    nan.Inv ∧ (∃ t, exec .fftReal nan = .next t ∧ decide (t.err = .none) = true) ∧
      (runOf .fftReal 1).Inv ∧ (runOf .fftReal 1).cfgN = 2 ∧
      ∃ t, exec .fftReal (runOf .fftReal 1) = .next t ∧ decide (t.err = .none) = true :=
  ⟨by decide +kernel, exists_of_nextMeets (by decide +kernel), by decide +kernel, by decide +kernel,
    exists_of_nextMeets (by decide +kernel)⟩

/-! #### The lifecycle, errors and the interrupt -/

theorem witness_AcceptedCommandSnapshotsTheOperands :
    let s : State := { prepared 2 0x1000 4 0x2000 4 ramp with program := pseudoCmd Params.default .fft }
    let busy : State := { fftRun with program := pseudoCmd Params.default .fft }
    (s.params.base % 4 = 0 ∧ s.program = wr s.params .cmd 0x2 :: [] ∧ s.busy = false ∧ orderingOwed s 0x2 = false) ∧
      (busy.params.base % 4 = 0 ∧ busy.program = wr busy.params .cmd 0x2 :: [] ∧ busy.busy = true) := by
  decide +kernel

theorem witness_CmdWriteWhileBusyOnlySetsOverrun :
    let s : State := { fftRun with program := pseudoCmd Params.default .ifft }
    (s.params.base % 4 = 0 ∧ s.program = wr s.params .cmd 0x3 :: [] ∧ s.busy = true) ∧
      (∃ t, exec .fft { fftRun with overrun := true } = .next t ∧ t.overrun = true) ∧
      (∃ t, step { fftRun with overrun := true } = .next t ∧ t.done = true) ∧
      (∃ t, step { ready 2 with overrun := true, program := pseudoClrovr Params.default } = .next t ∧
        decide (t.overrun = false) = true) ∧
      (∃ t, step { ready 2 with overrun := true, schedule := [.reset] } = .next t ∧ decide (t.overrun = false) = true) :=
  ⟨by decide +kernel, exists_of_nextMeets (by decide +kernel), exists_of_nextMeets (by decide +kernel),
    exists_of_nextMeets (by decide +kernel), exists_of_nextMeets (by decide +kernel)⟩

theorem witness_ActiveCommandCompletes :
    fftRun.Inv ∧ fftRun.busy = true ∧ fftRun.params.notNormal = [] ∧ fftRun.schedule = [] := by decide +kernel

theorem witness_ActiveCommandIgnoresTheOperandRegisters :
    ∃ t, exec .fft fftRun = .next t ∧ decide (t.err = .none) = true := exists_of_nextMeets (by decide +kernel)

theorem witness_ErrorsChangeOnlyStatus :
    (∃ t, exec .fft (running 0x2 2 0x1000 4 0x1004 4 ramp) = .next t ∧ decide (t.err ≠ .none) = true) ∧
      ∃ t, exec .config ({ ready 2 with size := 12 }.withFetchWord 32 0x1) = .next t ∧ decide (t.err ≠ .none) = true :=
  ⟨exists_of_nextMeets (by decide +kernel), exists_of_nextMeets (by decide +kernel)⟩

/-- FFT, N = 4: each check failing alone, at the boundary; and a command that meets them all. -/
theorem witness_FirstFailingCheckIsReported :
    let checks : State → Operands → Prop × Prop × Prop × Prop × Prop := fun s op =>
      (s.configured = true, LengthContract .fft op.srcLen.toNat op.dstLen.toNat 4,
        op.srcAddr.toNat % 4 = 0 ∧ op.dstAddr.toNat % 4 = 0,
        InDmaWindow s.params op.srcAddr.toNat 4 op.dstAddr.toNat 4,
        op.srcAddr.toNat ≠ op.dstAddr.toNat ∧ op.srcAddr.toNat < op.dstAddr.toNat + 16 ∧
          op.dstAddr.toNat < op.srcAddr.toNat + 16)
    let size := running 0x2 2 0x1000 3 0x2000 4 []
    let alignment := running 0x2 2 0x1000 4 0x2002 4 []
    let range := running 0x2 2 0x1000 4 0xFFFFFFF4 4 []
    let aliased := running 0x2 2 0x1000 4 0x100C 4 []
    let fits := running 0x2 2 0x1000 4 0xFFFFFFF0 4 []
    (State.reset.withFetchWord 32 0x2).configured = false ∧ (State.reset.withFetchWord 32 0x2).active.isSome = true ∧
      ((checks size (opOf size)).1 ∧ ¬(checks size (opOf size)).2.1) ∧
      ((checks alignment (opOf alignment)).2.1 ∧ ¬(checks alignment (opOf alignment)).2.2.1) ∧
      ((checks range (opOf range)).2.1 ∧ (checks range (opOf range)).2.2.1 ∧ ¬(checks range (opOf range)).2.2.2.1) ∧
      ((checks aliased (opOf aliased)).2.1 ∧ (checks aliased (opOf aliased)).2.2.1 ∧
        (checks aliased (opOf aliased)).2.2.2.1 ∧ (checks aliased (opOf aliased)).2.2.2.2) ∧
      ((checks fits (opOf fits)).2.1 ∧ (checks fits (opOf fits)).2.2.1 ∧ (checks fits (opOf fits)).2.2.2.1 ∧
        ¬(checks fits (opOf fits)).2.2.2.2) := by decide +kernel

/-- FFT_REAL, N = 4: its destination of N + 2 words ends at the top of the window, and passes it by a word. -/
theorem witness_FirstFailingCheckIsReported_fftReal :
    let fits := opOf (running 0x4 2 0x1000 4 0xFFFFFFE8 6 [])
    let range := opOf (running 0x4 2 0x1000 4 0xFFFFFFEC 6 [])
    LengthContract .fftReal fits.srcLen.toNat fits.dstLen.toNat 4 ∧ fits.dstAddr.toNat % 4 = 0 ∧
      InDmaWindow Params.default fits.srcAddr.toNat 4 fits.dstAddr.toNat 6 ∧
      LengthContract .fftReal range.srcLen.toNat range.dstLen.toNat 4 ∧ range.dstAddr.toNat % 4 = 0 ∧
      ¬InDmaWindow Params.default range.srcAddr.toNat 4 range.dstAddr.toNat 6 := by decide +kernel

/-- The destination's last byte is a device. -/
theorem witness_CommandsStopOnlyOutsideNormalMemory :
    let s : State := { fftRun with params := { Params.default with notNormal := [{ base := 0x200F, size := 1 }] } }
    s.active = some { word := 0x2, op := opOf s } ∧ s.ChecksMet .fft (opOf s) ∧
      touchesNotNormal s .fft (opOf s) = true ∧ touchesNotNormal fftRun .fft (opOf fftRun) = false ∧
      faultOf (exec .fft s) = some .engineBusError := by decide +kernel

theorem witness_InterruptIsTheLevelOfDoneAndEnable :
    let s : State := { ready 2 with done := true, irqEn := true }
    (∃ t, exec .fft { fftRun with irqEn := true } = .next t ∧ irq t = true) ∧
      (∃ t, writeReg .irqEn 0x1 s = .next t ∧ irq t = true) ∧
      (∃ t, writeReg .irqEn 0x0 s = .next t ∧ t.done = true) ∧
      (0xFFFFFFFF : Word).getLsbD 1 = true ∧ (∃ t, writeReg .status 0xFFFFFFFF s = .next t ∧ t.irqEn = true) ∧
      s.busy = false ∧ ∃ t, submit 0x2 s = .next t ∧ t.busy = true :=
  ⟨exists_of_nextMeets (by decide +kernel), exists_of_nextMeets (by decide +kernel),
    exists_of_nextMeets (by decide +kernel), by decide +kernel, exists_of_nextMeets (by decide +kernel),
    by decide +kernel, exists_of_nextMeets (by decide +kernel)⟩

/-! #### The whole machine -/

theorem witness_StepRunsTheDecodedCommand :
    fftRun.busy = true ∧ fftRun.active = some { word := 0x2, op := opOf fftRun } ∧ decode 0x2 = .ok .fft ∧
      fftRun.schedule = [] ∧ ({ fftRun with schedule := [.engine, .host] } : State).schedule = .engine :: [.host] := by
  decide +kernel

/-- A pending write of the source's last word, and one of the destination's first, on either platform. -/
theorem witness_InputWritesMustBeFencedBeforeCmd :
    let src : HostWrite := { region := { base := 0x100C, size := 4 }, cleaned := false, fenced := false }
    let dst : HostWrite := { region := { base := 0x2000, size := 1 }, cleaned := false, fenced := false }
    let s : State := { prepared 2 0x1000 4 0x2000 4 ramp with hostWrites := [src, dst] }
    let t : State := { s with params := { Params.default with coherent := false } }
    (s.busy = false ∧ s.params.coherent = true ∧
      commandRegions s 0x2 (snapshot s) = some ({ base := 0x1000, size := 16 }, { base := 0x2000, size := 16 })) ∧
    (t.busy = false ∧ t.params.coherent = false ∧ src.cleaned = false ∧
      commandRegions t 0x2 (snapshot t) = some ({ base := 0x1000, size := 16 }, { base := 0x2000, size := 16 })) ∧
    (src ∈ s.hostWrites ∧ src ∈ t.hostWrites ∧ regionsMeet src.region { base := 0x1000, size := 16 } = true) ∧
    (dst ∈ s.hostWrites ∧ dst.fenced = false ∧ regionsMeet dst.region { base := 0x2000, size := 16 } = true) :=
  ⟨by decide +kernel, by decide +kernel, by decide +kernel, by decide +kernel⟩

/-- FFT completed and unobserved: on either platform, with the host about to take the IRQ, raised or not. -/
theorem witness_ObservationAndFenceOpenTheBuffers :
    (∃ t, step fftRun = .next t ∧
      decide (t.Inv ∧ t.busy = false ∧ t.params.coherent = true ∧
        t.hazards.map (·.dst) = [{ base := 0x2000, size := 16 }] ∧
        regionHas { base := 0x2000, size := 16 } (0x200F : Word).toNat = true) = true) ∧
    (∃ t, step { fftRun with params := { Params.default with coherent := false } } = .next t ∧
      decide (t.Inv ∧ t.busy = false ∧ t.params.coherent = false ∧ t.hazards.map (·.invalidated) = [false]) = true) ∧
    (∃ t, step { fftRun with program := [.takeIrq], irqEn := true } = .next t ∧
      decide (t.Inv ∧ t.busy = false ∧ t.program = [.takeIrq] ∧ irq t = true) = true) ∧
    (∃ t, step { fftRun with program := [.takeIrq] } = .next t ∧
      decide (t.Inv ∧ t.busy = false ∧ t.program = [.takeIrq] ∧ irq t = false) = true) :=
  ⟨exists_of_nextMeets (by decide +kernel), exists_of_nextMeets (by decide +kernel),
    exists_of_nextMeets (by decide +kernel), exists_of_nextMeets (by decide +kernel)⟩

/-- A word write, a byte write, and a completed command. -/
theorem witness_MemoryChangesOnlyWhereTheRulesSay :
    let word : State := { ready 2 with program := [.memWrite 0x3000 0xFF000000] }
    let byte : State := { ready 2 with program := [.byteWrite 0x3001 0x7F] }
    (word.Inv ∧ ∃ t, step word = .next t ∧ decide (readByte t.mem 0x3003 ≠ readByte word.mem 0x3003) = true) ∧
      (byte.Inv ∧ ∃ t, step byte = .next t ∧ decide (readByte t.mem 0x3001 ≠ readByte byte.mem 0x3001) = true) ∧
      (fftRun.Inv ∧ ∃ t, step fftRun = .next t ∧ decide (readByte t.mem 0x2003 ≠ readByte fftRun.mem 0x2003) = true) :=
  ⟨⟨by decide +kernel, exists_of_nextMeets (by decide +kernel)⟩,
    ⟨by decide +kernel, exists_of_nextMeets (by decide +kernel)⟩,
    ⟨by decide +kernel, exists_of_nextMeets (by decide +kernel)⟩⟩

/-- A RESET of an active FFT, over a memory that holds another byte than the free value's at the destination. -/
def abortRun : State :=
  { fftRun with
    mem := writeByte fftRun.mem 0x2000 (byteOf (Config.freeWord 0) 0 + 1)
    schedule := [.reset] }

theorem witness_MemoryChangesOnlyWhereTheRulesSay_abort :
    abortRun.Inv ∧ step abortRun = .next (applyReset { abortRun with schedule := [] }) ∧
      readByte (applyReset { abortRun with schedule := [] }).mem 0x2000 ≠ readByte abortRun.mem 0x2000 := by
  have hw : memWf fftRun.mem = true := by decide +kernel
  have hm : memWf abortRun.mem = true := memWf_writeByte (by decide) hw
  have hi : fftRun.params.wellFormed = true ∧ fftRun.ConfigOk ∧ fftRun.LifecycleOk ∧ fftRun.HazardsOk ∧
      fftRun.BuffersMarked := by decide +kernel
  have hr : abortedRegions { abortRun with schedule := [] } =
      some ({ base := 0x1000, size := 16 }, { base := 0x2000, size := 16 }) := by decide +kernel
  have hcount : ({ abortRun with schedule := [] } : State).freeCount = 0 := by decide +kernel
  refine ⟨⟨hm, hi⟩, rfl, ?_⟩
  show readByte (abortMem { abortRun with schedule := [] }) 0x2000 ≠ _
  rw [(abort_some hr).1, (scramble_spec hm).2, if_pos (by decide), hcount]
  unfold abortRun
  rw [readByte_writeByte hw, if_pos rfl]
  show byteOf (Config.freeWord 0) 0 ≠ byteOf (Config.freeWord 0) 0 + 1
  generalize byteOf (Config.freeWord 0) 0 = b
  revert b
  decide

theorem witness_EveryStepKeepsTheInvariant :
    fftRun.Inv ∧ ∃ t, step fftRun = .next t ∧ t.done = true :=
  ⟨by decide +kernel, exists_of_nextMeets (by decide +kernel)⟩

theorem witness_AnEndedRunStaysEnded :
    (ready 2).runEnded ∧ ({ ready 2 with schedule := [.engine] } : State).runEnded ∧ Turn.engine ≠ .reset := by
  decide +kernel

end Sys2Proof.Tests
end

/-! PROOFS. The family 00_scope.md: bit reversal, binary32 arithmetic, and the registers right after reset. -/

namespace Sys2Proof.Machine

/-! ### Bit reversal (00_scope.md R13) -/

theorem testBit_revBits {l b : Nat} (i : Nat) (hb : b < l) : (revBits l i).testBit b = i.testBit (l - 1 - b) := by
  induction l generalizing i with
  | zero => omega
  | succ l ih =>
    rw [revBits, Nat.mul_comm, Nat.testBit_two_pow_mul_add _ (revBits_lt l _)]
    by_cases hlt : b < l
    · rw [if_pos hlt, ih (i / 2) hlt, Nat.testBit_div_two]
      congr 1
      omega
    · obtain rfl : b = l := by omega
      simp

theorem revBits_revBits {l i : Nat} (hi : i < 2 ^ l) : revBits l (revBits l i) = i := by
  refine Nat.eq_of_testBit_eq fun b => ?_
  by_cases hb : b < l
  · rw [testBit_revBits _ hb, testBit_revBits _ (by omega)]
    congr 1
    omega
  · have hpow : 2 ^ l ≤ 2 ^ b := Nat.pow_le_pow_right (by omega) (by omega)
    rw [Nat.testBit_lt_two_pow (lt_of_lt_of_le (revBits_lt l _) hpow), Nat.testBit_lt_two_pow (lt_of_lt_of_le hi hpow)]

/-- Settles O1: bit by bit, by induction on L; the involution from reading each bit twice. -/
theorem bitReversalReversesEveryBit : Obligations.BitReversalReversesEveryBit := by
  intro l i hi
  exact ⟨revBits_lt l i, fun b hb => testBit_revBits i hb, rfl, revBits_revBits hi⟩

/-! ### The fields of a word (00_scope.md R14) -/

theorem fExp_eq (d : Word) : fExp d = d.toNat % 2 ^ 31 / 2 ^ 23 := by
  simp only [fExp, BitVec.extractLsb'_toNat, Nat.shiftRight_eq_div_pow]
  omega

theorem fFrac_eq (d : Word) : fFrac d = d.toNat % 2 ^ 31 % 2 ^ 23 := by
  simp only [fFrac, BitVec.extractLsb'_toNat, Nat.shiftRight_eq_div_pow]
  omega

theorem fSign_eq (d : Word) : fSign d = decide (2 ^ 31 ≤ d.toNat) := by
  rw [fSign, ← BitVec.msb_eq_getLsbD_last, BitVec.msb_eq_decide]

theorem fIsNaN_iff (d : Word) : fIsNaN d = true ↔ infMag < d.toNat % 2 ^ 31 := by
  simp only [fIsNaN, fExp_eq, fFrac_eq, infMag, Bool.and_eq_true, decide_eq_true_eq]
  omega

theorem fIsInf_iff (d : Word) : fIsInf d = true ↔ d.toNat % 2 ^ 31 = infMag := by
  simp only [fIsInf, fExp_eq, fFrac_eq, infMag, Bool.and_eq_true, decide_eq_true_eq]
  omega

theorem fIsZero_iff (d : Word) : fIsZero d = true ↔ d.toNat % 2 ^ 31 = 0 := by
  simp only [fIsZero, fExp_eq, fFrac_eq, Bool.and_eq_true, decide_eq_true_eq]
  omega

theorem finite_iff (d : Word) : fExp d ≠ 255 ↔ d.toNat % 2 ^ 31 < infMag := by
  simp only [fExp_eq, infMag]
  omega

theorem fPack_toNat {w : Nat} (negative : Bool) (hw : w < 2 ^ 31) :
    (fPack negative w).toNat = if negative then 2 ^ 31 + w else w := by
  cases negative
  · simpa [fPack] using by omega
  · simpa [fPack] using by omega

theorem fPack_magnitude {w : Nat} (negative : Bool) (hw : w < 2 ^ 31) :
    (fPack negative w).toNat % 2 ^ 31 = w := by
  rw [fPack_toNat negative hw]
  split <;> omega

theorem fSign_fPack {w : Nat} (negative : Bool) (hw : w < 2 ^ 31) : fSign (fPack negative w) = negative := by
  rw [fSign_eq, fPack_toNat negative hw]
  cases negative
  · simpa using hw
  · simp

/-! ### Negation (00_scope.md R18) -/

theorem fneg_magnitude (a : Word) : (fneg a).toNat % 2 ^ 31 = a.toNat % 2 ^ 31 := by
  have h : (fneg a).setWidth 31 = a.setWidth 31 := by simp [fneg, BitVec.setWidth_xor]
  simpa using congrArg BitVec.toNat h

theorem fSign_fneg (a : Word) : fSign (fneg a) = !fSign a := by simp [fSign, fneg]

theorem fneg_fneg (a : Word) : fneg (fneg a) = a := by simp [fneg]

/-! ### The magnitude of a datum (00_scope.md R14) -/

/-- The value of magnitude bits w below infinity in units of 2^-149. -/
def magValue (w : Nat) : Nat := magNum w * 2 ^ (w / 2 ^ 23 - 1)

theorem fMag_eq (d : Word) : fMag d = magValue (d.toNat % 2 ^ 31) := by
  rw [fMag, magValue, magNum, fExp_eq, fFrac_eq]
  split
  · next h => rw [h, Nat.zero_sub, pow_zero, mul_one]
  · rfl

theorem fMag_fneg (a : Word) : fMag (fneg a) = fMag a := by rw [fMag_eq, fMag_eq, fneg_magnitude]

theorem fValue_fneg (a : Word) : fValue (fneg a) = -fValue a := by
  rw [fValue, fValue, fSign_fneg, fMag_fneg]
  cases fSign a <;> simp

/-- Settles O5. -/
theorem negationFlipsTheSignOfAnyWord : Obligations.NegationFlipsTheSignOfAnyWord := fun a =>
  ⟨fSign_fneg a, fneg_magnitude a, fValue_fneg a, fneg_fneg a⟩

theorem magNum_lt (w : Nat) : magNum w < 2 ^ 24 := by
  unfold magNum
  split <;> omega

/-- Bits t * 2^23 + n hold n quanta of 2^t: a subnormal has no leading one, and n = 2^24 carries into the exponent. -/
theorem magValue_quanta {t n : Nat} (hlow : t = 0 ∨ 2 ^ 23 ≤ n) (hhigh : n ≤ 2 ^ 24) :
    magValue (t * 2 ^ 23 + n) = n * 2 ^ t := by
  unfold magValue magNum
  obtain hsub | hnormal | rfl : n < 2 ^ 23 ∨ (2 ^ 23 ≤ n ∧ n < 2 ^ 24) ∨ n = 2 ^ 24 := by omega
  · obtain rfl : t = 0 := by omega
    simp [show n / 8388608 = 0 by omega]
    omega
  · have hexp : (t * 2 ^ 23 + n) / 2 ^ 23 = t + 1 := by omega
    rw [hexp, if_neg (by omega), Nat.add_sub_cancel]
    congr 1
    omega
  · have hexp : (t * 2 ^ 23 + 2 ^ 24) / 2 ^ 23 = t + 2 := by omega
    rw [hexp, if_neg (by omega), show (t * 2 ^ 23 + 2 ^ 24) % 2 ^ 23 = 0 by omega]
    rw [show t + 2 - 1 = t + 1 by omega, pow_succ]
    ring

/-- Magnitudes are ordered as their bits are. -/
theorem magValue_strictMono : StrictMono magValue := by
  refine strictMono_nat_of_lt_succ fun w => ?_
  obtain ⟨t, n, hw, hlow, hhigh⟩ : ∃ t n, w = t * 2 ^ 23 + n ∧ (t = 0 ∨ 2 ^ 23 ≤ n) ∧ n < 2 ^ 24 :=
    ⟨w / 2 ^ 23 - 1, w - (w / 2 ^ 23 - 1) * 2 ^ 23, by omega, by omega, by omega⟩
  rw [hw, Nat.add_assoc, magValue_quanta hlow hhigh.le, magValue_quanta (by omega) hhigh]
  exact Nat.mul_lt_mul_of_pos_right (Nat.lt_succ_self n) (by positivity)

theorem magValue_pos {w : Nat} (hw : 0 < w) : 0 < magValue w := Nat.zero_lt_of_lt (magValue_strictMono hw)

/-- Against a quantum of 2^t a magnitude is either a whole number of quanta or below every normal one of that quantum. -/
theorem pow_dvd_magValue_or_lt (t v : Nat) : 2 ^ t ∣ magValue v ∨ (t ≠ 0 ∧ magValue v < 2 ^ 23 * 2 ^ t) := by
  by_cases ht : t ≤ v / 2 ^ 23 - 1
  · exact .inl (Dvd.dvd.mul_left (pow_dvd_pow 2 ht) _)
  · have hpow : 2 ^ (v / 2 ^ 23 - 1 + 1) ≤ 2 ^ t := Nat.pow_le_pow_right (by omega) (by omega)
    refine .inr ⟨by omega, ?_⟩
    calc magValue v < 2 ^ 24 * 2 ^ (v / 2 ^ 23 - 1) := Nat.mul_lt_mul_of_pos_right (magNum_lt v) (by positivity)
      _ = 2 ^ 23 * 2 ^ (v / 2 ^ 23 - 1 + 1) := by ring
      _ ≤ 2 ^ 23 * 2 ^ t := Nat.mul_le_mul_left _ hpow

/-! ### Division to the nearest integer (00_scope.md R15) -/

/-- The quotient is within half of the divisor of the exact one, and even when it is half of the divisor away. -/
theorem divNearestEven_spec (a : Nat) {b : Nat} (hb : 0 < b) :
    2 * a ≤ 2 * (divNearestEven a b * b) + b ∧ 2 * (divNearestEven a b * b) ≤ 2 * a + b ∧
      (2 * a = 2 * (divNearestEven a b * b) + b ∨ 2 * (divNearestEven a b * b) = 2 * a + b →
        divNearestEven a b % 2 = 0) := by
  have hdiv : a / b * b + a % b = a := Nat.div_add_mod' a b
  have hmod : a % b < b := Nat.mod_lt a hb
  unfold divNearestEven
  simp only
  split
  · rw [Nat.add_mul]
    omega
  · omega

/-- The distance of two magnitudes. -/
def gap (x y : Nat) : Nat := ((x : Int) - (y : Int)).natAbs

/-- Of two numbers that x is at least, the larger is the nearer. -/
theorem gap_lt_gap_of_lt_of_le {x y z : Nat} (hzy : z < y) (hyx : y ≤ x) : gap x y < gap x z := by
  unfold gap
  omega

theorem divNearestEven_nearest (a k : Nat) {b : Nat} (hb : 0 < b) :
    gap a (divNearestEven a b * b) ≤ gap a (k * b) ∧
      (gap a (divNearestEven a b * b) = gap a (k * b) → k ≠ divNearestEven a b → divNearestEven a b % 2 = 0) := by
  obtain ⟨hlow, hhigh, htie⟩ := divNearestEven_spec a hb
  unfold gap
  generalize divNearestEven a b = n at *
  obtain hlt | rfl | hgt := Nat.lt_trichotomy k n
  · have hmul : (k + 1) * b ≤ n * b := Nat.mul_le_mul_right b hlt
    rw [Nat.add_mul] at hmul
    omega
  · simp
  · have hmul : (n + 1) * b ≤ k * b := Nat.mul_le_mul_right b hgt
    rw [Nat.add_mul] at hmul
    omega

/-- An even quotient is reached from half of the divisor below it on. -/
theorem le_divNearestEven_iff {a b k : Nat} (hb : 0 < b) (hk : k % 2 = 0) :
    k ≤ divNearestEven a b ↔ 2 * (k * b) ≤ 2 * a + b := by
  obtain ⟨hlow, hhigh, htie⟩ := divNearestEven_spec a hb
  generalize divNearestEven a b = n at *
  constructor
  · intro h
    have hmul : k * b ≤ n * b := Nat.mul_le_mul_right b h
    omega
  · intro h
    by_contra hlt
    have hmul : (n + 1) * b ≤ k * b := Nat.mul_le_mul_right b (by omega)
    have hodd : n + 1 ≠ k := by
      rintro rfl
      rw [Nat.add_mul] at h
      omega
    have hmul' : (n + 2) * b ≤ k * b := Nat.mul_le_mul_right b (by omega)
    rw [Nat.add_mul] at hmul'
    omega

/-! ### Rounding (00_scope.md R15) -/

/-- t of R15: RN32(m / 2^p) is a multiple of 2^(t - 149). -/
def quantumExp (m p : Nat) : Nat := Nat.log2 m + 126 - p

/-- The significand of RN32(m / 2^p) before overflow, in quanta. -/
def quanta (m p : Nat) : Nat := divNearestEven (m * 2 ^ 149) (2 ^ (p + quantumExp m p))

theorem rn32Mag_eq (m p : Nat) : rn32Mag m p = min (quantumExp m p * 2 ^ 23 + quanta m p) infMag := rfl

/-- The exact value is below 2^24 quanta. -/
theorem scaled_le (m p : Nat) : m * 2 ^ 149 ≤ 2 ^ 24 * 2 ^ (p + quantumExp m p) := by
  calc m * 2 ^ 149 ≤ 2 ^ (Nat.log2 m + 1) * 2 ^ 149 := Nat.mul_le_mul_right _ Nat.lt_log2_self.le
    _ = 2 ^ (Nat.log2 m + 150) := by rw [← pow_add]
    _ ≤ 2 ^ (24 + (p + quantumExp m p)) := Nat.pow_le_pow_right (by omega) (by unfold quantumExp; omega)
    _ = 2 ^ 24 * 2 ^ (p + quantumExp m p) := pow_add ..

/-- The exact value is at least 2^23 quanta when the quantum is above the least. -/
theorem le_scaled {m p : Nat} (hm : 0 < m) (ht : quantumExp m p ≠ 0) :
    2 ^ 23 * 2 ^ (p + quantumExp m p) ≤ m * 2 ^ 149 := by
  have hexp : 23 + (p + quantumExp m p) = Nat.log2 m + 149 := by unfold quantumExp at *; omega
  rw [← pow_add, hexp, pow_add]
  exact Nat.mul_le_mul_right _ (Nat.log2_self_le hm.ne')

theorem quanta_le (m p : Nat) : quanta m p ≤ 2 ^ 24 := by
  by_contra h
  have hb : 0 < 2 ^ (p + quantumExp m p) := by positivity
  obtain ⟨-, hspec, -⟩ := divNearestEven_spec (m * 2 ^ 149) hb
  have hmul : (2 ^ 24 + 1) * 2 ^ (p + quantumExp m p) ≤ quanta m p * 2 ^ (p + quantumExp m p) :=
    Nat.mul_le_mul_right _ (by omega)
  have hscaled := scaled_le m p
  unfold quanta at hmul
  omega

theorem le_quanta {m p : Nat} (hm : 0 < m) : quantumExp m p = 0 ∨ 2 ^ 23 ≤ quanta m p := by
  refine or_iff_not_imp_left.mpr fun ht => (le_divNearestEven_iff (by positivity) (by norm_num)).mpr ?_
  have hscaled := le_scaled hm ht
  omega

/-- Rounding overflows exactly from (2^25 - 1) * 2^103 on, the middle between the largest finite magnitude and 2^128. -/
theorem rn32Mag_eq_infMag_iff {m p : Nat} (hm : 0 < m) :
    rn32Mag m p = infMag ↔ (2 ^ 25 - 1) * 2 ^ 103 * 2 ^ p ≤ m := by
  have hlow := le_quanta (p := p) hm
  have hhigh := quanta_le m p
  have hover : rn32Mag m p = infMag ↔ 255 * 2 ^ 23 ≤ quantumExp m p * 2 ^ 23 + quanta m p := by
    rw [rn32Mag_eq, infMag]; omega
  have hmle := Nat.log2_self_le hm.ne'
  have hmlt := Nat.lt_log2_self (n := m)
  rw [hover]
  obtain hsmall | hedge | hbig : quantumExp m p ≤ 252 ∨ quantumExp m p = 253 ∨ 254 ≤ quantumExp m p := by omega
  · have hpow : 2 ^ (Nat.log2 m + 1) ≤ 2 ^ (p + 127) :=
      Nat.pow_le_pow_right (by omega) (by unfold quantumExp at hsmall; omega)
    rw [pow_add 2 p] at hpow
    omega
  · have hiff : 2 ^ 24 ≤ quanta m p ↔ _ := le_divNearestEven_iff (by positivity) (by norm_num)
    rw [hedge, pow_add] at hiff
    rw [hedge]
    omega
  · have hpow : 2 ^ (p + 128) ≤ 2 ^ Nat.log2 m :=
      Nat.pow_le_pow_right (by omega) (by unfold quantumExp at hbig; omega)
    rw [pow_add] at hpow
    omega

theorem quanta_nearest (m p k : Nat) :
    gap (m * 2 ^ 149) (quanta m p * 2 ^ (p + quantumExp m p)) ≤ gap (m * 2 ^ 149) (k * 2 ^ (p + quantumExp m p)) ∧
      (gap (m * 2 ^ 149) (quanta m p * 2 ^ (p + quantumExp m p)) =
          gap (m * 2 ^ 149) (k * 2 ^ (p + quantumExp m p)) → k ≠ quanta m p → quanta m p % 2 = 0) :=
  divNearestEven_nearest _ k (by positivity)

/-- Without overflow no magnitude is nearer to m / 2^p, and a tie has gone to the even one: a magnitude that is no whole
number of quanta is farther than 2^23 quanta are. -/
theorem rn32Mag_nearest {m p : Nat} (hm : 0 < m) (hfin : rn32Mag m p < infMag) (v : Nat) :
    gap (m * 2 ^ 149) (magValue (rn32Mag m p) * 2 ^ p) ≤ gap (m * 2 ^ 149) (magValue v * 2 ^ p) ∧
      (gap (m * 2 ^ 149) (magValue (rn32Mag m p) * 2 ^ p) = gap (m * 2 ^ 149) (magValue v * 2 ^ p) →
        v ≠ rn32Mag m p → rn32Mag m p % 2 = 0) := by
  have hw : rn32Mag m p = quantumExp m p * 2 ^ 23 + quanta m p := by
    rw [rn32Mag_eq] at hfin ⊢
    omega
  have hvalue : magValue (rn32Mag m p) = quanta m p * 2 ^ quantumExp m p := by
    rw [hw, magValue_quanta (le_quanta hm) (quanta_le m p)]
  have hunit : ∀ k, k * 2 ^ quantumExp m p * 2 ^ p = k * 2 ^ (p + quantumExp m p) := fun k => by
    rw [pow_add]
    ring
  rw [hvalue, hunit]
  obtain ⟨k, hk⟩ | ⟨ht, hlt⟩ := pow_dvd_magValue_or_lt (quantumExp m p) v
  · rw [mul_comm] at hk
    obtain ⟨hnear, htie⟩ := quanta_nearest m p k
    rw [hk, hunit]
    refine ⟨hnear, fun heq hne => ?_⟩
    have hkn : k ≠ quanta m p := by
      rintro rfl
      exact hne (magValue_strictMono.injective (hk.trans hvalue.symm))
    have heven := htie heq hkn
    omega
  · have hbelow : magValue v * 2 ^ p < 2 ^ 23 * 2 ^ (p + quantumExp m p) := by
      rw [← hunit]
      exact Nat.mul_lt_mul_of_pos_right hlt (by positivity)
    have hfar := lt_of_le_of_lt (quanta_nearest m p (2 ^ 23)).1 (gap_lt_gap_of_lt_of_le hbelow (le_scaled hm ht))
    exact ⟨hfar.le, fun heq => absurd heq hfar.ne⟩

theorem rn32Mag_le (m p : Nat) : rn32Mag m p ≤ infMag := Nat.min_le_right ..

theorem rn32Mag_lt (m p : Nat) : rn32Mag m p < 2 ^ 31 := Nat.lt_of_le_of_lt (rn32Mag_le m p) (by decide)

theorem rn32_magnitude (negative : Bool) (m p : Nat) : (rn32 negative m p).toNat % 2 ^ 31 = rn32Mag m p :=
  fPack_magnitude negative (rn32Mag_lt m p)

theorem fMag_ofNat {w : Nat} (hw : w < 2 ^ 31) : fMag (BitVec.ofNat 32 w) = magValue w := by
  rw [fMag_eq, BitVec.toNat_ofNat]
  congr 1
  omega

/-- Settles O2: the magnitude is a whole number of quanta nearest to the exact one, and a magnitude that is none lies below
the binade of the exact one. -/
theorem roundingIsToNearestEven : Obligations.RoundingIsToNearestEven := by
  intro negative m p hm
  rw [rn32_magnitude]
  refine ⟨fSign_fPack negative (rn32Mag_lt m p), rn32Mag_le m p, rn32Mag_eq_infMag_iff hm, fun hfin v hv => ?_⟩
  rw [fMag_ofNat (rn32Mag_lt m p), fMag_ofNat (hv.trans (by decide))]
  have hnear := rn32Mag_nearest hm hfin v
  unfold gap at hnear
  exact_mod_cast hnear
/-! ### The kinds of a datum (00_scope.md R14) -/

theorem fIsNaN_of_fIsInf {d : Word} (h : fIsInf d = true) : fIsNaN d = false := by
  rw [fIsInf_iff] at h
  exact Bool.eq_false_iff.mpr fun hn => by rw [fIsNaN_iff] at hn; omega

theorem fIsNaN_of_finite {d : Word} (h : fExp d ≠ 255) : fIsNaN d = false := by simp [fIsNaN, h]

theorem fIsInf_of_finite {d : Word} (h : fExp d ≠ 255) : fIsInf d = false := by simp [fIsInf, h]

theorem finite_of_fIsZero {d : Word} (h : fIsZero d = true) : fExp d ≠ 255 := by
  rw [finite_iff, (fIsZero_iff d).mp h]
  decide

theorem fIsZero_of_fIsInf {d : Word} (h : fIsInf d = true) : fIsZero d = false :=
  Bool.eq_false_iff.mpr fun hz => by simp [fIsInf_of_finite (finite_of_fIsZero hz)] at h

theorem fIsNaN_fPack {w : Nat} (negative : Bool) (hw : w ≤ infMag) : fIsNaN (fPack negative w) = false :=
  Bool.eq_false_iff.mpr fun hn => by
    rw [fIsNaN_iff, fPack_magnitude negative (Nat.lt_of_le_of_lt hw (by decide))] at hn
    omega

theorem fIsNaN_rn32 (negative : Bool) (m p : Nat) : fIsNaN (rn32 negative m p) = false :=
  fIsNaN_fPack negative (rn32Mag_le m p)

/-! ### Addition (00_scope.md R16) -/

theorem fadd_of_fIsNaN {a b : Word} (h : fIsNaN a = true ∨ fIsNaN b = true) : fadd a b = canonicalNaN := by
  simp [fadd, h]

theorem fadd_inf_inf {a b : Word} (ha : fIsInf a = true) (hb : fIsInf b = true) :
    fadd a b = if fSign a = fSign b then a else canonicalNaN := by
  simp [fadd, fIsNaN_of_fIsInf, ha, hb]

theorem fadd_inf_finite {a b : Word} (ha : fIsInf a = true) (hb : fExp b ≠ 255) : fadd a b = a := by
  simp [fadd, fIsNaN_of_fIsInf ha, ha, fIsNaN_of_finite hb, fIsInf_of_finite hb]

theorem fadd_finite_inf {a b : Word} (ha : fExp a ≠ 255) (hb : fIsInf b = true) : fadd a b = b := by
  simp [fadd, fIsNaN_of_fIsInf hb, hb, fIsNaN_of_finite ha, fIsInf_of_finite ha]

theorem fadd_finite {a b : Word} (ha : fExp a ≠ 255) (hb : fExp b ≠ 255) :
    fadd a b =
      if fValue a + fValue b = 0 then (if a = 0x80000000 ∧ b = 0x80000000 then 0x80000000 else 0x00000000)
      else rn32 (decide (fValue a + fValue b < 0)) (fValue a + fValue b).natAbs 149 := by
  simp [fadd, fIsNaN_of_finite, fIsInf_of_finite, ha, hb]

/-- Settles O3, a case each. -/
theorem additionFollowsItsFiveCases : Obligations.AdditionFollowsItsFiveCases := fun a b =>
  ⟨fadd_of_fIsNaN, fadd_inf_inf, fadd_inf_finite, fadd_finite_inf,
    fun ha hb hne => by rw [fadd_finite ha hb, if_neg hne],
    fun ha hb hz => by rw [fadd_finite ha hb, if_pos hz], rfl⟩

/-! ### Multiplication (00_scope.md R17) -/

theorem fmul_of_fIsNaN {a b : Word} (h : fIsNaN a = true ∨ fIsNaN b = true) : fmul a b = canonicalNaN := by
  simp [fmul, h]

theorem fmul_comm (a b : Word) : fmul a b = fmul b a := by
  simp only [fmul, Bool.or_comm (fIsNaN a), Bool.or_comm (fIsInf a), Bool.or_comm (fIsZero a), Bool.xor_comm (fSign a),
    Bool.and_comm (fIsInf a), Bool.and_comm (fIsZero a), Nat.mul_comm (fMag a)]
  rw [Bool.or_comm (fIsZero b && fIsInf a)]

theorem fmul_inf_zero {a b : Word} (ha : fIsInf a = true) (hb : fIsZero b = true) : fmul a b = canonicalNaN := by
  simp [fmul, ha, hb]

theorem fmul_inf {a b : Word} (ha : fIsInf a = true) (hb : fIsNaN b = false) (hz : fIsZero b = false) :
    fmul a b = fPack (fSign a ^^ fSign b) infMag := by
  simp [fmul, fIsNaN_of_fIsInf ha, fIsZero_of_fIsInf ha, ha, hb, hz]

theorem fmul_zero_finite {a b : Word} (ha : fIsZero a = true) (hb : fExp b ≠ 255) :
    fmul a b = fPack (fSign a ^^ fSign b) 0 := by
  have hfin := finite_of_fIsZero ha
  simp [fmul, fIsNaN_of_finite, fIsInf_of_finite, ha, hb, hfin]

theorem fmul_finite {a b : Word} (ha : fExp a ≠ 255) (hb : fExp b ≠ 255) (hza : fIsZero a = false)
    (hzb : fIsZero b = false) : fmul a b = rn32 (fSign a ^^ fSign b) (fMag a * fMag b) 298 := by
  simp [fmul, fIsNaN_of_finite, fIsInf_of_finite, ha, hb, hza, hzb]

theorem fValue_fPack {w : Nat} (negative : Bool) (hw : w < 2 ^ 31) :
    fValue (fPack negative w) = if negative then -(magValue w : Int) else magValue w := by
  rw [fValue, fMag_eq, fSign_fPack negative hw, fPack_magnitude negative hw]

/-- A rational that is a finite magnitude is rounded to it. -/
theorem rn32Mag_exact {m p v : Nat} (hm : 0 < m) (hv : v < infMag) (hexact : m * 2 ^ 149 = magValue v * 2 ^ p) :
    rn32Mag m p = v := by
  have hmax : magValue v ≤ (2 ^ 24 - 1) * 2 ^ 253 :=
    magValue_quanta (t := 253) (n := 2 ^ 24 - 1) (by norm_num) (by norm_num) ▸
      magValue_strictMono.monotone (by unfold infMag at hv; omega)
  have hfin : rn32Mag m p < infMag := by
    refine lt_of_le_of_ne (rn32Mag_le m p) fun hinf => ?_
    rw [rn32Mag_eq_infMag_iff hm] at hinf
    have hmul := Nat.mul_le_mul_right (2 ^ p) hmax
    have hpos : 0 < 2 ^ p := by positivity
    omega
  have hnear := (rn32Mag_nearest hm hfin v).1
  have hsame : magValue (rn32Mag m p) * 2 ^ p = magValue v * 2 ^ p := by
    unfold gap at hnear
    omega
  exact magValue_strictMono.injective (Nat.eq_of_mul_eq_mul_right (by positivity) hsame)

/-- From biased exponent 2 on, and for an even magnitude, half of a finite magnitude is a finite magnitude. -/
theorem exists_half_magValue {w : Nat} (hw : w < infMag) (h : 2 ≤ w / 2 ^ 23 ∨ magValue w % 2 = 0) :
    ∃ v, v < infMag ∧ magValue w = 2 * magValue v := by
  by_cases hexp : 2 ≤ w / 2 ^ 23
  · refine ⟨w - 2 ^ 23, by omega, ?_⟩
    have hsucc : w / 2 ^ 23 - 1 = (w - 2 ^ 23) / 2 ^ 23 - 1 + 1 := by omega
    have hnum : magNum (w - 2 ^ 23) = magNum w := by
      unfold magNum
      rw [if_neg (by omega), if_neg (by omega)]
      omega
    rw [magValue, magValue, hnum, hsucc, pow_succ]
    ring
  · have hself : ∀ n, n ≤ 2 ^ 24 → magValue n = n := fun n hn => by
      simpa using magValue_quanta (t := 0) (.inl rfl) hn
    rw [hself w (by omega)] at h ⊢
    exact ⟨w / 2, by omega, by rw [hself (w / 2) (by omega)]; omega⟩

/-- Multiplication by HALF rounds a magnitude that is a whole number of halves to itself. -/
theorem two_mul_fValue_fmul_half {b : Word} (hb : fExp b ≠ 255) (h : 2 ≤ fExp b ∨ fMag b % 2 = 0) :
    2 * fValue (fmul half b) = fValue b := by
  have hsign : (fSign half ^^ fSign b) = fSign b := by simp [show fSign half = false by decide]
  by_cases hz : fIsZero b = true
  · rw [fmul_comm, fmul_zero_finite hz (by decide), Bool.xor_comm, hsign, fValue_fPack _ (by decide), fValue, fMag_eq,
      (fIsZero_iff b).mp hz]
    simp [magValue, magNum]
  · rw [finite_iff] at hb
    rw [fExp_eq, fMag_eq] at h
    obtain ⟨v, hv, hhalf⟩ := exists_half_magValue hb h
    have hpos : 0 < magValue v := by
      have := magValue_pos (Nat.pos_of_ne_zero (mt (fIsZero_iff b).mpr hz))
      omega
    have hround : rn32Mag (fMag half * fMag b) 298 = v := by
      have hmag : fMag half = 2 ^ 148 := by decide
      refine rn32Mag_exact ?_ hv ?_
      · rw [hmag, fMag_eq, hhalf]; positivity
      · rw [hmag, fMag_eq, hhalf, pow_add 2 149 149]
        ring
    rw [fmul_finite (by decide) ((finite_iff b).mpr hb) (by decide) (by simpa using hz), hsign, rn32, hround,
      fValue_fPack _ (hv.trans (by decide)), fValue, fMag_eq, hhalf]
    split
    · push_cast
      ring
    · push_cast
      rfl

/-- Settles O4: the cases one by one; half of b is a magnitude, which rounding keeps. -/
theorem multiplicationFollowsItsFiveCases : Obligations.MultiplicationFollowsItsFiveCases := fun a b =>
  ⟨fmul_of_fIsNaN, fmul_inf_zero, fun ha hb => by rw [fmul_comm]; exact fmul_inf_zero hb ha, fmul_inf,
    fun hb ha hz => by rw [fmul_comm, Bool.xor_comm]; exact fmul_inf hb ha hz, fmul_zero_finite,
    fun hb ha => by rw [fmul_comm, Bool.xor_comm]; exact fmul_zero_finite hb ha, fmul_finite, two_mul_fValue_fmul_half⟩

/-! ### NaN results (00_scope.md R19) -/

theorem fIsNaN_or_fIsInf_or_finite (d : Word) : fIsNaN d = true ∨ fIsInf d = true ∨ fExp d ≠ 255 := by
  rw [fIsNaN_iff, fIsInf_iff, finite_iff]
  omega

theorem fadd_eq_canonicalNaN_or (a b : Word) : fadd a b = canonicalNaN ∨ fIsNaN (fadd a b) = false := by
  obtain ha | ha | ha := fIsNaN_or_fIsInf_or_finite a
  · exact .inl (fadd_of_fIsNaN (.inl ha))
  · obtain hb | hb | hb := fIsNaN_or_fIsInf_or_finite b
    · exact .inl (fadd_of_fIsNaN (.inr hb))
    · rw [fadd_inf_inf ha hb]
      split
      · exact .inr (fIsNaN_of_fIsInf ha)
      · exact .inl rfl
    · rw [fadd_inf_finite ha hb]
      exact .inr (fIsNaN_of_fIsInf ha)
  · obtain hb | hb | hb := fIsNaN_or_fIsInf_or_finite b
    · exact .inl (fadd_of_fIsNaN (.inr hb))
    · rw [fadd_finite_inf ha hb]
      exact .inr (fIsNaN_of_fIsInf hb)
    · rw [fadd_finite ha hb]
      split_ifs
      · exact .inr rfl
      · exact .inr rfl
      · exact .inr (fIsNaN_rn32 ..)

theorem fmul_eq_canonicalNaN_or (a b : Word) : fmul a b = canonicalNaN ∨ fIsNaN (fmul a b) = false := by
  unfold fmul
  simp only
  split_ifs
  · exact .inl rfl
  · exact .inl rfl
  · exact .inr (fIsNaN_fPack _ le_rfl)
  · exact .inr (fIsNaN_fPack _ (Nat.zero_le _))
  · exact .inr (fIsNaN_rn32 ..)

/-- Settles O6: every other result is an operand that is no NaN, a zero, an infinity, or a rounded value. -/
theorem naNResultsAreCanonical : Obligations.NaNResultsAreCanonical := fun a b =>
  ⟨fun h => (fadd_eq_canonicalNaN_or a b).resolve_right (by simp [h]),
    fun h => (fadd_eq_canonicalNaN_or a (fneg b)).resolve_right (by simpa [fsub] using h),
    fun h => (fmul_eq_canonicalNaN_or a b).resolve_right (by simp [h])⟩

/-! ### Reset (10_state.md section 4) -/

/-- Settles O7: a register of the reset state is a field of it; the read ports answer 0 while no N is configured. -/
theorem resetStateReadsAsTheTableSays : Obligations.ResetStateReadsAsTheTableSays := by
  refine ⟨fun r => ?_, rfl, rfl⟩
  cases r <;> rfl

end Sys2Proof.Machine

/-! PROOFS. The family 10_state.md: the registers, the invariant of the machine, and the configuration. -/

namespace Sys2Proof.Machine

/-! ### The register block (10_state.md section 2) -/

theorem regAt_offset (r : Reg) : regAt r.offset = some r := by cases r <;> rfl

theorem reg_offset_le (r : Reg) : r.offset ≤ 0xFF := by cases r <;> decide

theorem reg_offset_aligned (r : Reg) : r.offset % 4 = 0 := by cases r <;> rfl

theorem regAt_reserved {off : Nat} (h : 0x44 ≤ off) : regAt off = Option.none := by
  unfold regAt
  split
  case h_18 => rfl
  all_goals omega

theorem inBlock_iff {p : Params} {addr : Nat} : inBlock p addr = true ↔ p.base ≤ addr ∧ addr ≤ p.base + 0xFF := by
  simp [inBlock]

section
variable {s : State} {off : Nat}

/-- An aligned 32-bit read in the block reaches the register at its offset, if there is one. -/
theorem busReadReg_aligned (hb : s.params.base % 4 = 0) (ha : off % 4 = 0) (ho : off ≤ 0xFF) :
    busReadReg (s.params.base + off) 4 s =
      (regAt off).elim (.next (respond 0x00000000 s)) (fun r => .next (hostReadReg r s)) := by
  unfold busReadReg
  rw [if_neg (by simp [inBlock, ho]), if_neg (by omega), Nat.add_sub_cancel_left]
  cases regAt off <;> rfl

/-- An aligned 32-bit write in the block reaches the register at its offset, if there is one. -/
theorem busWriteReg_aligned (v : Word) (hb : s.params.base % 4 = 0) (ha : off % 4 = 0) (ho : off ≤ 0xFF) :
    busWriteReg (s.params.base + off) 4 v s = (regAt off).elim (.next s) (fun r => writeReg r v s) := by
  unfold busWriteReg
  rw [if_neg (by simp [inBlock, ho]), if_neg (by omega), Nat.add_sub_cancel_left]
  cases regAt off <;> rfl

end

/-- `WR reg, v` at the head of the host's program writes the register (30_encoding.md R76). -/
theorem hostStep_wr {s : State} {rest : List HostOp} {r : Reg} {v : Word} (hb : s.params.base % 4 = 0)
    (hp : s.program = wr s.params r v :: rest) : hostStep s = writeReg r v { s with program := rest } := by
  have h := busWriteReg_aligned (s := { s with program := rest }) v hb (reg_offset_aligned r) (reg_offset_le r)
  rw [regAt_offset] at h
  unfold hostStep
  rw [hp]
  exact h

/-! ### What a register reads -/

@[simp] theorem readReg_respond (v : Word) (s : State) (r : Reg) : readReg (respond v s) r = readReg s r := by
  cases r <;> rfl

@[simp] theorem readReg_observeCompletion (s : State) (r : Reg) : readReg (observeCompletion s) r = readReg s r := by
  cases r <;> rfl

/-- The bit fields of STATUS (10_state.md R31), beside BUSY and DONE of Laws/State.lean. -/
theorem statusWord_configured (s : State) : (statusWord s).getLsbD 2 = s.configured := by
  simp only [statusWord, BitVec.getLsbD_append]
  simp

theorem statusWord_overrun (s : State) : (statusWord s).getLsbD 3 = s.overrun := by
  simp only [statusWord, BitVec.getLsbD_append]
  simp

theorem statusWord_err (s : State) : (statusWord s).extractLsb' 8 4 = s.err.code := by
  simp (disch := omega) only [statusWord, BitVec.extractLsb'_append_eq_of_le, BitVec.extractLsb'_append_eq_of_add_le]
  simp

theorem statusWord_reserved_low (s : State) : (statusWord s).extractLsb' 4 4 = 0 := by
  simp (disch := omega) only [statusWord, BitVec.extractLsb'_append_eq_of_le, BitVec.extractLsb'_append_eq_of_add_le]
  simp

theorem statusWord_reserved_high (s : State) : (statusWord s).extractLsb' 12 20 = 0 := by
  simp (disch := omega) only [statusWord, BitVec.extractLsb'_append_eq_of_le]
  simp

/-- Beside STATUS no register shows a lifecycle field, ACTIVE or a mark on a buffer. -/
theorem readReg_of_ne_status (s : State) {busy done overrun : Bool} {err : ErrCode} {active : Option Active}
    {hazards : List Hazard} {x : Reg} (hx : x ≠ .status) :
    readReg { s with
      busy := busy, done := done, overrun := overrun, err := err, active := active, hazards := hazards } x =
      readReg s x := by
  cases x
  case status => exact absurd rfl hx
  all_goals rfl

/-- Settles O15: both transactions test the width and the alignment before they look at the offset. -/
theorem otherRegisterAccessesFault : Obligations.OtherRegisterAccessesFault := by
  intro s addr width v hlo hhi hbad
  have hin : inBlock s.params addr = true := inBlock_iff.mpr ⟨hlo, hhi⟩
  simp [busReadReg, busWriteReg, hin, hbad]

/-- Settles O16: no register stands at a reserved offset. -/
theorem reservedOffsetsReadZeroAndIgnoreWrites : Obligations.ReservedOffsetsReadZeroAndIgnoreWrites := by
  intro s off v hb ha hlo hhi
  rw [busReadReg_aligned hb ha (by omega), busWriteReg_aligned v hb ha (by omega), regAt_reserved hlo]
  exact ⟨rfl, rfl⟩

/-- Settles O14: a read hands over the value, and at most moves the host's marks on buffers. -/
theorem registerReadHasNoSideEffect : Obligations.RegisterReadHasNoSideEffect := by
  intro s r hb
  refine ⟨hostReadReg r s, ?_, ?_⟩
  · rw [busReadReg_aligned hb (reg_offset_aligned r) (reg_offset_le r), regAt_offset]
    rfl
  · rcases hostReadReg_cases r s with h | h <;> simp [h]

/-- Settles O11: a clear is an AND with the complement of the bit written. -/
theorem statusWriteClearsOnlyDoneAndOverrun : Obligations.StatusWriteClearsOnlyDoneAndOverrun := by
  intro s rest v hb hp
  have clears (b c : Bool) : (b && !c) = if c = true then false else b := by cases b <;> cases c <;> rfl
  rw [hostStep_wr hb hp, ← clears, ← clears]
  rfl

/-- Settles O12: a write of an RW register sets its field and no other; IRQ_EN holds bit 0 alone (10_state.md R40). -/
theorem writableRegistersReadBack : Obligations.WritableRegistersReadBack := by
  intro s rest v r hb hr hp
  rw [hostStep_wr hb hp]
  cases r
  case id | param | cmd | status | cfgN | cfgNbits | twCos | twSin | brVal => exact absurd hr (by decide)
  case irqEn =>
    exact ⟨_, rfl, rfl, BitVec.and_one_eq_setWidth_ofBool_getLsbD.symm, rfl, rfl, rfl, rfl, rfl, rfl, rfl⟩
  all_goals exact ⟨_, rfl, rfl, rfl, rfl, rfl, rfl, rfl, rfl, rfl, rfl⟩

/-- Settles O13: no two registers hold the same field; the index registers also select what their ports read. -/
theorem registerWriteChangesOnlyItsRegister : Obligations.RegisterWriteChangesOnlyItsRegister := by
  intro r v s t h
  cases r
  case cmd =>
    obtain ⟨-, rfl⟩ | ⟨-, -, rfl⟩ := submit_next h <;>
      exact ⟨fun _ _ hx _ _ => readReg_of_ne_status s (hx rfl), rfl, rfl, ⟨rfl, rfl, rfl⟩, fun hr => absurd rfl hr⟩
  all_goals
    cases h
    refine ⟨fun x hx _ htw hbr => ?_, rfl, rfl, ⟨rfl, rfl, rfl⟩, fun _ => rfl⟩
  case status => exact readReg_of_ne_status s hx
  case twIdx =>
    cases x
    case twIdx => exact absurd rfl hx
    case twCos => exact absurd rfl (htw rfl).1
    case twSin => exact absurd rfl (htw rfl).2
    all_goals rfl
  case brIdx =>
    cases x
    case brIdx => exact absurd rfl hx
    case brVal => exact absurd rfl (hbr rfl)
    all_goals rfl
  all_goals
    cases x
    any_goals rfl
    all_goals exact absurd rfl hx

theorem param_toNat {s : State} (h : s.params.wellFormed = true) : (readReg s .param).toNat = s.params.log2NMax := by
  simp only [Params.wellFormed, Bool.and_eq_true, decide_eq_true_eq] at h
  simp only [readReg, BitVec.toNat_setWidth, BitVec.toNat_ofNat]
  omega

/-- Settles O10: each field of STATUS is an operand of the concatenation that makes its word. -/
theorem statusReadsItsFields : Obligations.StatusReadsItsFields := by
  intro s
  refine ⟨statusWord_busy s, statusWord_done s, statusWord_configured s, statusWord_overrun s,
    statusWord_reserved_low s, statusWord_reserved_high s, ?_, fun h hb => ?_, rfl, rfl, param_toNat⟩
  · rw [readReg, statusWord_err]
    cases s.err <;> rfl
  · obtain ⟨-, -, -, ⟨-, hbusy⟩, -, -⟩ := h
    obtain ⟨hd, he⟩ := hbusy hb
    rw [readReg, statusWord_done, statusWord_err, hd, he]
    exact ⟨rfl, rfl⟩

/-! ### What a step of the host leaves alone -/

/-- What every host operation but an accepted CMD write keeps: the parameters, the configuration, the active command and
the marks on its buffers; DONE may be cleared and not set (10_state.md R31, R44), and memory stays canonical. -/
structure State.HostKeeps (s t : State) : Prop where
  params : t.params = s.params
  config : s.SameConfig t
  busy : t.busy = s.busy
  active : t.active = s.active
  done : t.done = true → s.done = true
  err : t.err = s.err
  running : ∀ h : Hazard, h.phase = .running → (h ∈ t.hazards ↔ h ∈ s.hazards)
  mem : memWf s.mem = true → memWf t.mem = true

theorem State.HostKeeps.refl (s : State) : s.HostKeeps s :=
  ⟨rfl, ⟨rfl, rfl, rfl⟩, rfl, rfl, id, rfl, fun _ _ => .rfl, id⟩

theorem State.HostKeeps.trans {s t u : State} (h : s.HostKeeps t) (k : t.HostKeeps u) : s.HostKeeps u where
  params := k.params.trans h.params
  config := ⟨k.config.1.trans h.config.1, k.config.2.1.trans h.config.2.1, k.config.2.2.trans h.config.2.2⟩
  busy := k.busy.trans h.busy
  active := k.active.trans h.active
  done := h.done ∘ k.done
  err := k.err.trans h.err
  running x hx := (k.running x hx).trans (h.running x hx)
  mem := k.mem ∘ h.mem

/-- A state that differs on the host's side only: its program, responses and pending writes, and how far it has
got with commands that are no longer running. -/
theorem State.hostKeeps_hostSide (s : State) {program : List HostOp} {responses : List Word}
    {hostWrites : List HostWrite} {hazards : List Hazard}
    (hz : ∀ h : Hazard, h.phase = .running → (h ∈ hazards ↔ h ∈ s.hazards)) :
    s.HostKeeps { s with
      program := program, responses := responses, hostWrites := hostWrites, hazards := hazards } :=
  ⟨rfl, ⟨rfl, rfl, rfl⟩, rfl, rfl, id, rfl, hz, id⟩

theorem State.hostKeeps_program (s : State) (rest : List HostOp) : s.HostKeeps { s with program := rest } :=
  s.hostKeeps_hostSide fun _ _ => .rfl

theorem respond_keeps (v : Word) (s : State) : s.HostKeeps (respond v s) :=
  s.hostKeeps_hostSide fun _ _ => .rfl

/-- Marks of running commands survive a change of marks that leaves them and makes no new one. -/
theorem mem_map_of_keeps_running {f : Hazard → Hazard} (hf : ∀ x, x.phase = .running → f x = x)
    (hp : ∀ x, (f x).phase = .running → x.phase = .running) (hazards : List Hazard) (h : Hazard)
    (hr : h.phase = .running) : h ∈ hazards.map f ↔ h ∈ hazards := by
  rw [List.mem_map]
  constructor
  · rintro ⟨x, hx, rfl⟩
    rwa [hf x (hp x hr)]
  · exact fun hx => ⟨h, hx, hf h hr⟩

theorem Hazard.observe_running (h : Hazard) (hr : h.phase = .running) : h.observe = h := by simp [observe, hr]

theorem Hazard.running_of_observe (h : Hazard) (hr : h.observe.phase = .running) : h.phase = .running := by
  unfold observe at hr
  split at hr
  · exact nomatch hr
  · exact hr

theorem Hazard.invalidate_running (h : Hazard) (hr : h.phase = .running) : h.invalidate = h := by simp [invalidate, hr]

theorem Hazard.running_of_invalidate (h : Hazard) (hr : h.invalidate.phase = .running) : h.phase = .running := by
  unfold invalidate at hr
  split at hr <;> exact hr

/-- Completion leaves no mark of a running command. -/
theorem Hazard.complete_not_running (h : Hazard) : h.complete.phase ≠ .running := by
  unfold complete
  split
  · exact nofun
  · assumption

theorem observeCompletion_keeps (s : State) : s.HostKeeps (observeCompletion s) :=
  s.hostKeeps_hostSide (mem_map_of_keeps_running Hazard.observe_running Hazard.running_of_observe s.hazards)

theorem hostFence_keeps (s : State) : s.HostKeeps (hostFence s) :=
  s.hostKeeps_hostSide fun h hr => by simp [List.mem_filter, hr]

theorem hostCacheClean_keeps (s : State) : s.HostKeeps (hostCacheClean s) :=
  s.hostKeeps_hostSide fun _ _ => .rfl

theorem hostCacheInvalidate_keeps (s : State) : s.HostKeeps (hostCacheInvalidate s) :=
  s.hostKeeps_hostSide (mem_map_of_keeps_running Hazard.invalidate_running Hazard.running_of_invalidate s.hazards)

theorem hostReadReg_keeps (r : Reg) (s : State) : s.HostKeeps (hostReadReg r s) := by
  rcases hostReadReg_cases r s with h | h <;> rw [h]
  · exact respond_keeps _ s
  · exact (observeCompletion_keeps s).trans (respond_keeps _ _)

theorem hostWait_keeps (rest : List HostOp) (s : State) : s.HostKeeps (hostWait rest s) := by
  unfold hostWait
  split
  · exact hostReadReg_keeps _ s
  · exact (s.hostKeeps_program rest).trans (hostReadReg_keeps _ _)

theorem hostTakeIrq_keeps (rest : List HostOp) (s : State) : s.HostKeeps (hostTakeIrq rest s) := by
  unfold hostTakeIrq
  split
  · exact (s.hostKeeps_program rest).trans (observeCompletion_keeps _)
  · exact .refl s

theorem busReadReg_keeps {addr width : Nat} {s t : State} (h : busReadReg addr width s = .next t) : s.HostKeeps t := by
  obtain ⟨-, -, -, ⟨-, rfl⟩ | ⟨r, -, rfl⟩⟩ := busReadReg_next h
  · exact respond_keeps _ s
  · exact hostReadReg_keeps r s

theorem hostRead_keeps {r : Region} {v : Word} {s t : State} (h : hostRead r v s = .next t) : s.HostKeeps t := by
  obtain ⟨-, -, -, rfl⟩ := hostRead_next h
  exact respond_keeps v s

theorem hostWrite_keeps {r : Region} {mem : List Host.Cell} {s t : State} (h : hostWrite r mem s = .next t)
    (hm : memWf s.mem = true → memWf mem = true) : s.HostKeeps t := by
  obtain ⟨-, -, rfl⟩ := hostWrite_next h
  exact ⟨rfl, ⟨rfl, rfl, rfl⟩, rfl, rfl, id, rfl, fun _ _ => .rfl, hm⟩

theorem busMemRead_keeps {a : Word} {s t : State} (h : busMemRead a s = .next t) : s.HostKeeps t := by
  unfold busMemRead at h
  split at h
  · cases h
  · exact hostRead_keeps h

theorem busMemWrite_keeps {a v : Word} {s t : State} (h : busMemWrite a v s = .next t) : s.HostKeeps t := by
  unfold busMemWrite at h
  split at h
  · cases h
  · exact hostWrite_keeps h (memWf_writeWord (by omega))

/-- A register write other than an accepted CMD write leaves the engine alone; an accepted one starts its command. -/
theorem writeReg_keeps_or_accepts {r : Reg} {v : Word} {s t : State} (h : writeReg r v s = .next t) :
    s.HostKeeps t ∨ (r = .cmd ∧ s.busy = false ∧ t = accept v s) := by
  cases r
  case cmd =>
    obtain ⟨-, rfl⟩ | ⟨hb, -, rfl⟩ := submit_next h
    · exact .inl ⟨rfl, ⟨rfl, rfl, rfl⟩, rfl, rfl, id, rfl, fun _ _ => .rfl, id⟩
    · exact .inr ⟨rfl, hb, rfl⟩
  case status =>
    cases h
    exact .inl ⟨rfl, ⟨rfl, rfl, rfl⟩, rfl, rfl, by simp +contextual, rfl, fun _ _ => .rfl, id⟩
  all_goals
    cases h
    exact .inl ⟨rfl, ⟨rfl, rfl, rfl⟩, rfl, rfl, id, rfl, fun _ _ => .rfl, id⟩

/-- A step of the host leaves the engine alone, or it is a CMD write that an idle machine accepts. -/
theorem hostStep_keeps_or_accepts {s t : State} (h : hostStep s = .next t) :
    s.HostKeeps t ∨ ∃ w u, s.HostKeeps u ∧ u.busy = false ∧ t = accept w u := by
  obtain ⟨-, rfl⟩ | ⟨op, rest, -, hop⟩ := hostStep_next h
  · exact .inl (.refl _)
  have hk := s.hostKeeps_program rest
  obtain ⟨addr, width, v, -, hw⟩ | ⟨_, _, -, hr⟩ | ⟨_, _, -, hw⟩ | ⟨_, -, hr⟩ | ⟨a, v, -, hw⟩ | ⟨_, -, hr⟩ | ⟨-, rfl⟩ |
    ⟨-, rfl⟩ | ⟨-, rfl⟩ | ⟨-, rfl⟩ | ⟨-, rfl⟩ := hop
  · obtain ⟨-, -, -, ⟨-, rfl⟩ | ⟨r, -, hr⟩⟩ := busWriteReg_next hw
    · exact .inl hk
    · obtain h | ⟨-, hb, rfl⟩ := writeReg_keeps_or_accepts hr
      · exact .inl (hk.trans h)
      · exact .inr ⟨v, _, hk, hb, rfl⟩
  · exact .inl (hk.trans (busReadReg_keeps hr))
  · exact .inl (hk.trans (busMemWrite_keeps hw))
  · exact .inl (hk.trans (busMemRead_keeps hr))
  · exact .inl (hk.trans (hostWrite_keeps hw (memWf_writeByte a.isLt)))
  · exact .inl (hk.trans (hostRead_keeps hr))
  · exact .inl (hk.trans (hostFence_keeps _))
  · exact .inl (hk.trans (hostCacheClean_keeps _))
  · exact .inl (hk.trans (hostCacheInvalidate_keeps _))
  · exact .inl (hostWait_keeps rest s)
  · exact .inl (hostTakeIrq_keeps rest s)

/-! ### The invariant -/

theorem commandRegions_congr {s t : State} (h : s.SameConfig t) (w : Word) (op : Operands) :
    commandRegions t w op = commandRegions s w op := by
  obtain ⟨hc, hn, -⟩ := h
  unfold commandRegions
  rw [hc, hn]

theorem State.ConfigOk.congr {s t : State} (hc : s.ConfigOk) (hs : s.SameConfig t) (hp : t.params = s.params) :
    t.ConfigOk := by
  obtain ⟨h1, h2, h3⟩ := hs
  unfold State.ConfigOk
  rw [h1, h2, h3, hp]
  exact hc

/-- The invariant is kept where the host leaves the engine alone. -/
theorem State.HostKeeps.inv {s t : State} (k : s.HostKeeps t) (h : s.Inv) : t.Inv := by
  obtain ⟨hm, hp, hc, ⟨hba, hbd⟩, hz, hmark⟩ := h
  refine ⟨k.mem hm, by rwa [k.params], hc.congr k.config k.params, ⟨by rw [k.busy, k.active, hba], fun hb => ?_⟩,
    fun x hx hr => ?_, fun a ha r hr => ?_⟩
  · obtain ⟨hd, he⟩ := hbd (k.busy ▸ hb)
    exact ⟨Bool.eq_false_iff.mpr fun ht => absurd (k.done ht) (by simp [hd]), k.err.trans he⟩
  · rw [k.busy]
    exact hz x ((k.running x hr).mp hx) hr
  · rw [commandRegions_congr k.config] at hr
    exact (k.running _ rfl).mpr (hmark a (k.active ▸ ha) r hr)

/-- Acceptance marks the buffers of its command as in use, and sets BUSY with DONE and ERR clear (60_exceptions.md
R150). -/
theorem accept_inv (w : Word) {s : State} (h : s.Inv) : (accept w s).Inv := by
  obtain ⟨hm, hp, hc, -, -, -⟩ := h
  refine ⟨hm, hp, hc.congr ⟨rfl, rfl, rfl⟩ rfl, ⟨rfl, fun _ => ⟨rfl, rfl⟩⟩, fun _ _ _ => rfl, fun a ha r hr => ?_⟩
  cases ha
  have hr' : commandRegions s w (snapshot s) = some r := hr
  simp [accept, hr']

/-- A completed state meets the invariant where its memory, parameters and configuration do: no command is active, and
no mark is one of a running command (60_exceptions.md R151). -/
theorem complete_inv (e : ErrCode) {s : State} (hm : memWf s.mem = true) (hp : s.params.wellFormed = true)
    (hc : s.ConfigOk) : (complete e s).Inv := by
  refine ⟨hm, hp, hc.congr ⟨rfl, rfl, rfl⟩ rfl, ⟨rfl, nofun⟩, fun x hx hr => ?_, nofun⟩
  obtain ⟨y, -, rfl⟩ := List.mem_map.mp hx
  exact absurd hr y.complete_not_running

/-- The size test of CONFIG passes the powers of two from 2 to N_MAX (40_construction.md R100). -/
theorem sizeIllegal_eq_false_iff {s : State} {n : Nat} :
    sizeIllegal s n = false ↔ ∃ k, 1 ≤ k ∧ k ≤ s.params.log2NMax ∧ n = 2 ^ k := by
  simp only [sizeIllegal, Bool.or_eq_false_iff, decide_eq_false_iff_not, not_lt, ne_eq, not_not]
  unfold nMax
  constructor
  · rintro ⟨⟨hmin, hmax⟩, hand⟩
    obtain ⟨k, rfl⟩ := (Nat.and_sub_one_eq_zero_iff_isPowerOfTwo (by omega)).mp hand
    refine ⟨k, Nat.one_le_iff_ne_zero.mpr ?_, (Nat.pow_le_pow_iff_right Nat.one_lt_two).mp hmax, rfl⟩
    rintro rfl
    omega
  · rintro ⟨k, hk, hmax, rfl⟩
    exact ⟨⟨Nat.pow_le_pow_right two_pos hk, Nat.pow_le_pow_right two_pos hmax⟩,
      (Nat.and_sub_one_eq_zero_iff_isPowerOfTwo (Nat.two_pow_pos k).ne').mpr ⟨k, rfl⟩⟩

theorem configure_configOk {n : Word} {s : State} (hp : s.params.wellFormed = true)
    (hn : sizeIllegal s n.toNat = false) : (configure n s).ConfigOk := by
  obtain ⟨k, hk, hmax, hpow⟩ := sizeIllegal_eq_false_iff.mp hn
  simp only [Params.wellFormed, Bool.and_eq_true, decide_eq_true_eq] at hp
  have hbits : (configure n s).cfgNbits.toNat = k := by
    rw [configure_cfgNbits, hpow, Nat.log2_two_pow, BitVec.toNat_ofNat]
    exact Nat.mod_eq_of_lt (by omega)
  simp only [State.ConfigOk, configure_configured, if_true, hbits]
  exact ⟨hk, hmax, hpow⟩

/-- A command that completes keeps the invariant: on an error only STATUS and the marks change, CONFIG leaves a legal
size, and a body keeps the canonical form of memory. -/
theorem exec_keeps_inv {i : Instr} {s t : State} (h : s.Inv) (hx : exec i s = .next t) :
    t.Inv ∧ t.params = s.params := by
  obtain ⟨hm, hp, hc, -, -, -⟩ := h
  obtain ⟨a, -, ⟨e, -, rfl⟩ | ⟨-, hn, rfl⟩ | ⟨hi, hrun, rfl⟩⟩ := exec_next hx
  · exact ⟨complete_inv e hm hp hc, rfl⟩
  · exact ⟨complete_inv _ hm hp (configure_configOk hp hn), rfl⟩
  · exact ⟨complete_inv _ (bodyOf_confined hi hrun.1 hp hc hm).1 hp (hc.congr ⟨rfl, rfl, rfl⟩ rfl), rfl⟩

theorem engineStep_keeps_inv {s t : State} (h : s.Inv) (he : engineStep s = .next t) : t.Inv ∧ t.params = s.params := by
  obtain ⟨-, rfl⟩ | ⟨a, -, -, ⟨i, -, hx⟩ | ⟨-, -, rfl⟩⟩ := engineStep_next he
  · exact ⟨h, rfl⟩
  · exact exec_keeps_inv h hx
  · obtain ⟨hm, hp, hc, -, -, -⟩ := h
    exact ⟨complete_inv _ hm hp hc, rfl⟩

theorem hostStep_keeps_inv {s t : State} (h : s.Inv) (hs : hostStep s = .next t) : t.Inv ∧ t.params = s.params := by
  obtain k | ⟨w, u, k, -, rfl⟩ := hostStep_keeps_or_accepts hs
  · exact ⟨k.inv h, k.params⟩
  · exact ⟨accept_inv w (k.inv h), k.params⟩

theorem memWf_abortMem {s : State} (h : memWf s.mem = true) : memWf (abortMem s) = true := by
  cases hr : abortedRegions s with
  | none => rwa [(abort_none hr).1]
  | some r => exact (abort_some hr).1 ▸ (scramble_spec h).1

/-- RESET leaves an idle, unconfigured machine and drops the marks of the aborted command (70_reset_and_hazards.md R166,
R167). -/
theorem applyReset_inv {s : State} (h : s.Inv) : (applyReset s).Inv := by
  obtain ⟨hm, hp, -, -, -, -⟩ := h
  refine ⟨memWf_abortMem hm, hp, ⟨rfl, rfl⟩, ⟨rfl, nofun⟩, fun x hx hr => ?_, nofun⟩
  rw [applyReset_hazards, List.mem_filter] at hx
  exact absurd hr (of_decide_eq_true hx.2)

/-- Settles O58, by who moves: the host, the engine or RESET; the invariant does not speak of the schedule. -/
theorem everyStepKeepsTheInvariant : Obligations.EveryStepKeepsTheInvariant := by
  intro s t h hs
  obtain ⟨-, -, he⟩ | ⟨-, -, hh⟩ | ⟨rest, ⟨-, hh⟩ | ⟨-, he⟩ | ⟨-, rfl⟩⟩ := step_next hs
  · exact engineStep_keeps_inv h he
  · exact hostStep_keeps_inv h hh
  · exact hostStep_keeps_inv (s := { s with schedule := rest }) h hh
  · exact engineStep_keeps_inv (s := { s with schedule := rest }) h he
  · exact ⟨applyReset_inv (s := { s with schedule := rest }) h, rfl⟩

/-! ### The configuration -/

theorem opcodeOf_eq_some {opc : BitVec 4} {i : Instr} (h : opcodeOf opc = some i) : opc = i.opcode := by
  revert opc
  cases i <;> decide

theorem toWord_cmd32Of (w : Word) : (cmd32Of w).toWord = w :=
  (BitVec.extractLsb'_append_extractLsb'_eq_extractLsb' rfl).trans BitVec.extractLsb'_eq_self

/-- A legal word is the word of the command it selects (30_encoding.md R67, R68). -/
theorem eq_encode_of_decode {w : Word} {i : Instr} (h : decode w = .ok i) : w = encode i := by
  unfold decode at h
  dsimp only at h
  split at h
  · cases h
  · rename_i hr
    split at h
    · rename_i j hj
      cases h
      rw [← toWord_cmd32Of w, encode, ← opcodeOf_eq_some hj, ← not_not.mp hr]
    · cases h

/-- A step of the host leaves the configuration, whether or not it starts a command. -/
theorem hostStep_sameConfig {s t : State} (h : hostStep s = .next t) : s.SameConfig t := by
  obtain k | ⟨_, _, k, -, rfl⟩ := hostStep_keeps_or_accepts h <;> exact k.config

/-- The engine changes the configuration at the completion of a successful CONFIG only (40_construction.md R100,
R101). -/
theorem engineStep_config {s t : State} (h : engineStep s = .next t) :
    s.SameConfig t ∨ ∃ a, s.busy = true ∧ s.active = some a ∧ a.word = 0x00000001 ∧ t.busy = false ∧ t.err = .none ∧
      t.configured = true ∧ t.cfgN = a.op.size := by
  obtain ⟨-, rfl⟩ | ⟨a, hb, ha, ⟨i, hi, hx⟩ | ⟨-, -, rfl⟩⟩ := engineStep_next h
  · exact .inl ⟨rfl, rfl, rfl⟩
  · obtain ⟨b, hab, ⟨_, -, rfl⟩ | ⟨rfl, -, rfl⟩ | ⟨-, -, rfl⟩⟩ := exec_next hx
    · exact .inl ⟨rfl, rfl, rfl⟩
    · cases ha.symm.trans hab
      exact .inr ⟨a, hb, ha, eq_encode_of_decode hi, rfl, rfl, rfl, rfl⟩
    · exact .inl ⟨rfl, rfl, rfl⟩
  · exact .inl ⟨rfl, rfl, rfl⟩

/-- Settles O17, by who moves: only the engine, at a CONFIG, and RESET change the configuration. -/
theorem onlyConfigAndResetChangeTheConfiguration : Obligations.OnlyConfigAndResetChangeTheConfiguration := by
  intro s t h
  obtain ⟨-, -, he⟩ | ⟨-, -, hh⟩ | ⟨rest, ⟨-, hh⟩ | ⟨-, he⟩ | ⟨hr, -⟩⟩ := step_next h
  · exact (engineStep_config he).imp_right .inr
  · exact .inl (hostStep_sameConfig hh)
  · exact .inl (hostStep_sameConfig (s := { s with schedule := rest }) hh)
  · exact (engineStep_config (s := { s with schedule := rest }) he).imp_right .inr
  · exact .inr (.inl ⟨rest, hr⟩)

end Sys2Proof.Machine

/-! PROOFS. The family 20_memory.md: words and buffers, the frame of a command, what the host and the engine may
change, and what a command's result depends on. -/

namespace Sys2Proof.Machine

/-! ### Words in bytes (20_memory.md R47, R48) -/

theorem byteOf_readWord {b : Nat} (m : List Host.Cell) (a : Nat) (hb : b < 4) :
    byteOf (readWord m a) b = readByte m (a + b) := by
  obtain rfl | rfl | rfl | rfl : b = 0 ∨ b = 1 ∨ b = 2 ∨ b = 3 := by omega
  all_goals
    simp (disch := omega) only [byteOf, readWord, BitVec.extractLsb'_append_eq_of_le,
      BitVec.extractLsb'_append_eq_of_add_le]
    simp

/-- Settles O18. -/
theorem wordsAreLittleEndian : Obligations.WordsAreLittleEndian := fun m a _ =>
  ⟨fun _ hb => byteOf_readWord m a hb, fun hm ha =>
    ⟨fun _ hb => readByte_writeWord_same ha hm hb, fun _ hx => readByte_writeWord_other ha hm hx, memWf_writeWord ha hm⟩⟩

/-! ### Regions (20_memory.md R49) -/

theorem regionHas_iff {r : Region} {a : Nat} : regionHas r a = true ↔ r.base ≤ a ∧ a < r.base + r.size := by
  simp [regionHas]

/-- Regions meet where they share a byte: the first byte of the later one, if any. -/
theorem regionsMeet_iff {r t : Region} :
    regionsMeet r t = true ↔ ∃ a, regionHas r a = true ∧ regionHas t a = true := by
  simp only [regionsMeet, regionHas_iff, Bool.and_eq_true, decide_eq_true_eq]
  constructor
  · exact fun h => ⟨max r.base t.base, by omega, by omega⟩
  · rintro ⟨a, hr, ht⟩
    omega

theorem regionHas_byte {x a : Nat} : regionHas { base := x, size := 1 } a = true ↔ a = x := by
  rw [regionHas_iff]
  dsimp only
  omega

theorem regionHas_word {x a : Nat} : regionHas { base := x, size := 4 } a = true ↔ ∃ b, b < 4 ∧ a = x + b := by
  rw [regionHas_iff]
  dsimp only
  exact ⟨fun h => ⟨a - x, by omega, by omega⟩, by rintro ⟨b, hb, rfl⟩; omega⟩

theorem regionsMeet_byte {x : Nat} {t : Region} :
    regionsMeet { base := x, size := 1 } t = true ↔ regionHas t x = true := by
  simp [regionsMeet_iff, regionHas_byte]

theorem regionsMeet_word {x : Nat} {t : Region} :
    regionsMeet { base := x, size := 4 } t = true ↔ ∃ b, b < 4 ∧ regionHas t (x + b) = true := by
  rw [regionsMeet_iff]
  constructor
  · rintro ⟨a, ha, ht⟩
    obtain ⟨b, hb, rfl⟩ := regionHas_word.mp ha
    exact ⟨b, hb, ht⟩
  · rintro ⟨b, hb, ht⟩
    exact ⟨x + b, regionHas_word.mpr ⟨b, hb, rfl⟩, ht⟩

/-! ### The host's accesses (20_memory.md R58) -/

section
variable {s : State} {r : Region}

theorem hostWrite_of_forbids {h : Hazard} (mem : List Host.Cell) (hmem : h ∈ s.hazards)
    (hf : h.forbidsWrite r = true) : hostWrite r mem s = .fault .bufferInUse := by
  unfold hostWrite
  rw [if_pos (List.any_eq_true.mpr ⟨h, hmem, hf⟩)]

theorem hostRead_of_forbids {h : Hazard} (v : Word) (hmem : h ∈ s.hazards) (hf : h.forbidsRead r = true) :
    hostRead r v s = .fault .bufferInUse := by
  unfold hostRead
  rw [if_pos (List.any_eq_true.mpr ⟨h, hmem, hf⟩)]

theorem hostRead_of_unordered {h : Hazard} (v : Word) (hnone : ∀ x ∈ s.hazards, x.forbidsRead r = false)
    (hmem : h ∈ s.hazards) (hu : h.unordered r = true) : hostRead r v s = .fault .missingOrdering := by
  unfold hostRead
  rw [if_neg (by simpa using hnone), if_pos (List.any_eq_true.mpr ⟨h, hmem, hu⟩)]

theorem hostRead_free (v : Word) (hnone : ∀ x ∈ s.hazards, x.forbidsRead r = false)
    (hord : ∀ x ∈ s.hazards, x.unordered r = false) (hn : s.params.notNormal = []) :
    hostRead r v s = .next (respond v s) := by
  unfold hostRead
  rw [if_neg (by simpa using hnone), if_neg (by simpa using hord), if_neg (by simp [hostTouchesNotNormal, hn])]

theorem busMemRead_aligned {a : Word} (ha : a.toNat % 4 = 0) (s : State) :
    busMemRead a s = hostRead { base := a.toNat, size := 4 } (readWord s.mem a.toNat) s := by
  unfold busMemRead
  rw [if_neg (by omega)]

theorem busMemWrite_aligned {a : Word} (ha : a.toNat % 4 = 0) (v : Word) (s : State) :
    busMemWrite a v s = hostWrite { base := a.toNat, size := 4 } (writeWord s.mem a.toNat v) s := by
  unfold busMemWrite
  rw [if_neg (by omega)]

end

/-- The mark of an active command closes both buffers to host writes, and leaves a read that touches neither the
destination nor, in place, the source. -/
theorem Hazard.running_forbidsWrite {src dst r : Region} {inv : Bool} :
    Hazard.forbidsWrite { src := src, dst := dst, phase := .running, invalidated := inv } r = true ↔
      regionsMeet r src = true ∨ regionsMeet r dst = true := by
  simp [forbidsWrite, inUse]

theorem Hazard.running_forbidsRead {src dst r : Region} {inv : Bool} :
    Hazard.forbidsRead { src := src, dst := dst, phase := .running, invalidated := inv } r = true ↔
      regionsMeet r dst = true ∨ src.base = dst.base ∧ regionsMeet r src = true := by
  simp [forbidsRead, inUse]

/-- Beside the mark of an active command alone, a read off its destination and not of an in-place source is free. -/
theorem hostRead_beside_running {s : State} {src dst r : Region} (v : Word)
    (hz : s.hazards = [{ src := src, dst := dst, phase := .running, invalidated := false }])
    (hn : s.params.notNormal = []) (hne : src.base ≠ dst.base) (hr : regionsMeet r dst = false) :
    hostRead r v s = .next (respond v s) := by
  refine hostRead_free v ?_ ?_ hn <;> rw [hz] <;> simp [Hazard.forbidsRead, Hazard.unordered, Hazard.inUse, hne, hr]

/-- Settles O20: the mark that the invariant gives the active command forbids the accesses, and no other mark is there
in the last clause. -/
theorem buffersInUseAreClosedToTheHost : Obligations.BuffersInUseAreClosedToTheHost := by
  intro s a src dst x ⟨_, _, _, _, _, hmark⟩ ha hr
  have hmem := hmark a ha _ hr
  refine ⟨fun hx v => ?_, fun hx => ?_, fun hal hx v => ?_, fun hal hx => ?_,
    fun hz hn hne => ⟨fun hx => ?_, fun hal hx => ?_⟩⟩
  · exact hostWrite_of_forbids _ hmem (Hazard.running_forbidsWrite.mpr (by simpa [regionsMeet_byte] using hx))
  · exact hostRead_of_forbids _ hmem (Hazard.running_forbidsRead.mpr (.inl (regionsMeet_byte.mpr hx)))
  · obtain ⟨b, hb, h⟩ := hx
    rw [busMemWrite_aligned hal]
    exact hostWrite_of_forbids _ hmem (Hazard.running_forbidsWrite.mpr
      (h.imp (fun h => regionsMeet_word.mpr ⟨b, hb, h⟩) (fun h => regionsMeet_word.mpr ⟨b, hb, h⟩)))
  · rw [busMemRead_aligned hal]
    exact hostRead_of_forbids _ hmem (Hazard.running_forbidsRead.mpr (.inl (regionsMeet_word.mpr hx)))
  · exact hostRead_beside_running _ hz hn hne (Bool.eq_false_iff.mpr fun h => by simp [regionsMeet_byte.mp h] at hx)
  · rw [busMemRead_aligned hal]
    refine hostRead_beside_running _ hz hn hne (Bool.eq_false_iff.mpr fun h => ?_)
    obtain ⟨b, hb, hd⟩ := regionsMeet_word.mp h
    simp [hx b hb] at hd

/-! ### What a step of the host writes (20_memory.md R55, R58) -/

theorem hostReadReg_mem (r : Reg) (s : State) : (hostReadReg r s).mem = s.mem := by
  rcases hostReadReg_cases r s with h | h <;> rw [h] <;> rfl

theorem busReadReg_mem {addr width : Nat} {s t : State} (h : busReadReg addr width s = .next t) : t.mem = s.mem := by
  obtain ⟨-, -, -, ⟨-, rfl⟩ | ⟨r, -, rfl⟩⟩ := busReadReg_next h
  · rfl
  · exact hostReadReg_mem r s

theorem busWriteReg_mem {addr width : Nat} {v : Word} {s t : State} (h : busWriteReg addr width v s = .next t) :
    t.mem = s.mem := by
  obtain ⟨-, -, -, ⟨-, rfl⟩ | ⟨r, -, hw⟩⟩ := busWriteReg_next h
  · rfl
  · exact (registerWriteChangesOnlyItsRegister r v s t hw).2.1

theorem busMemRead_mem {a : Word} {s t : State} (h : busMemRead a s = .next t) : t.mem = s.mem := by
  unfold busMemRead at h
  split at h
  · cases h
  · obtain ⟨-, -, -, rfl⟩ := hostRead_next h
    rfl

theorem hostWait_mem (rest : List HostOp) (s : State) : (hostWait rest s).mem = s.mem := by
  unfold hostWait
  split <;> exact hostReadReg_mem ..

theorem hostTakeIrq_mem (rest : List HostOp) (s : State) : (hostTakeIrq rest s).mem = s.mem := by
  unfold hostTakeIrq
  split <;> rfl

theorem busMemWrite_next {a v : Word} {s t : State} (h : busMemWrite a v s = .next t) :
    a.toNat % 4 = 0 ∧ hostWrite { base := a.toNat, size := 4 } (writeWord s.mem a.toNat v) s = .next t := by
  unfold busMemWrite at h
  split at h
  · cases h
  · next ha => exact ⟨by omega, h⟩

/-- The one operation by which a step of the host writes data memory, if it is one: the bytes of region r, which no
command has in use. -/
inductive State.MemoryWrite (s t : State) : Region → Prop where
  | word (a v : Word) (rest : List HostOp) (op : s.program = .memWrite a v :: rest) (done : t.program = rest)
      (mem : t.mem = writeWord s.mem a.toNat v) (top : a.toNat + 4 ≤ 2 ^ 32) :
      MemoryWrite s t { base := a.toNat, size := 4 }
  | byte (a : Word) (v : Byte) (rest : List HostOp) (op : s.program = .byteWrite a v :: rest) (done : t.program = rest)
      (mem : t.mem = writeByte s.mem a.toNat v) :
      MemoryWrite s t { base := a.toNat, size := 1 }

/-- A host write changes no byte outside its region. -/
theorem State.MemoryWrite.readByte_other {s t : State} {r : Region} {x : Nat} (h : s.MemoryWrite t r)
    (hm : memWf s.mem = true) (hx : regionHas r x ≠ true) : readByte t.mem x = readByte s.mem x := by
  rw [Ne, regionHas_iff] at hx
  cases h with
  | word a v _ _ _ mem top => rw [mem, readByte_writeWord_other top hm hx]
  | byte a v _ _ _ mem =>
    dsimp only at hx
    rw [mem, readByte_writeByte hm, if_neg (by omega)]

/-- A step of the host leaves memory as it is, or it is a memory write that no mark on a buffer forbids. -/
theorem hostStep_mem {s t : State} (h : hostStep s = .next t) :
    t.mem = s.mem ∨ ∃ r, s.MemoryWrite t r ∧ ∀ x ∈ s.hazards, x.forbidsWrite r = false := by
  obtain ⟨-, rfl⟩ | ⟨op, rest, hp, hop⟩ := hostStep_next h
  · exact .inl rfl
  obtain ⟨_, _, _, -, hw⟩ | ⟨_, _, -, hr⟩ | ⟨a, v, rfl, hw⟩ | ⟨_, -, hr⟩ | ⟨a, v, rfl, hw⟩ | ⟨_, -, hr⟩ | ⟨-, rfl⟩ |
    ⟨-, rfl⟩ | ⟨-, rfl⟩ | ⟨-, rfl⟩ | ⟨-, rfl⟩ := hop
  · exact .inl (busWriteReg_mem (s := { s with program := rest }) hw)
  · exact .inl (busReadReg_mem (s := { s with program := rest }) hr)
  · obtain ⟨ha, hw⟩ := busMemWrite_next hw
    obtain ⟨hfree, -, rfl⟩ := hostWrite_next hw
    exact .inr ⟨_, .word a v rest hp rfl rfl (by omega), hfree⟩
  · exact .inl (busMemRead_mem (s := { s with program := rest }) hr)
  · obtain ⟨hfree, -, rfl⟩ := hostWrite_next hw
    exact .inr ⟨_, .byte a v rest hp rfl rfl, hfree⟩
  · obtain ⟨-, -, -, rfl⟩ := hostRead_next hr
    exact .inl rfl
  · exact .inl rfl
  · exact .inl rfl
  · exact .inl rfl
  · exact .inl (hostWait_mem rest s)
  · exact .inl (hostTakeIrq_mem rest s)

/-- A busy machine accepts no command, so that a step of the host keeps ACTIVE (60_exceptions.md R163). -/
theorem hostStep_active_of_busy {s t : State} (hb : s.busy = true) (h : hostStep s = .next t) : t.active = s.active := by
  obtain k | ⟨_, u, k, hu, -⟩ := hostStep_keeps_or_accepts h
  · exact k.active
  · simp [k.busy, hb] at hu

theorem State.LifecycleOk.busy_of_active {s : State} {a : Active} (h : s.LifecycleOk) (ha : s.active = some a) :
    s.busy = true := by
  rw [h.1, ha]
  rfl

/-- Settles O21: the mark of the active command forbids every memory write that meets its buffers. -/
theorem hostCannotDisturbAnActiveCommand : Obligations.HostCannotDisturbAnActiveCommand := by
  intro s t a src dst ⟨hm, _, _, hlife, _, hmark⟩ ha hr h
  refine ⟨(hostStep_active_of_busy (hlife.busy_of_active ha) h).trans ha, hostStep_sameConfig h, fun x hx => ?_⟩
  obtain hsame | ⟨r, hw, hfree⟩ := hostStep_mem h
  · rw [hsame]
  · refine hw.readByte_other hm fun hrx => ?_
    have hforbid := Hazard.running_forbidsWrite (inv := false).mpr
      (hx.imp (fun h => regionsMeet_iff.mpr ⟨x, hrx, h⟩) (fun h => regionsMeet_iff.mpr ⟨x, hrx, h⟩))
    simp [hfree _ (hmark a ha _ hr)] at hforbid

/-! ### The frame of a command (20_memory.md R53) -/

section
variable {i : Instr} {s : State} {op : Operands}

/-- A command that may run writes inside its destination used region. -/
theorem bodyOf_changes {x : Nat} (hi : i ≠ .config) (h : s.ChecksMet i op) (hp : s.params.wellFormed = true)
    (hc : s.ConfigOk) (hm : memWf s.mem = true)
    (hx : readByte (bodyOf i (geometryOf s op) s.mem) x ≠ readByte s.mem x) :
    regionHas (usedRegions s.cfgN.toNat i op).2 x = true := by
  rw [regionHas_iff]
  by_contra hout
  exact hx ((bodyOf_confined hi h hp hc hm).2 x hout)

/-- With sa != da the checks keep the used regions apart (20_memory.md R52). -/
theorem checksMet_disjoint {x : Nat} (h : s.ChecksMet i op) (hne : op.srcAddr ≠ op.dstAddr)
    (hd : regionHas (usedRegions s.cfgN.toNat i op).2 x = true) :
    regionHas (usedRegions s.cfgN.toNat i op).1 x = false := by
  obtain ⟨-, -, -, -, hplace⟩ := h
  have hne' : op.srcAddr.toNat ≠ op.dstAddr.toNat := fun h => hne (BitVec.eq_of_toNat_eq h)
  rw [regionHas_iff] at hd
  refine Bool.eq_false_iff.mpr fun hs => ?_
  rw [regionHas_iff] at hs
  simp only [usedRegions] at hd hs
  omega

end

/-- Every command that answers a next state has completed, and leaves what a host can write and the host's side alone. -/
theorem exec_frame {i : Instr} {s t : State} (h : exec i s = .next t) :
    s.CompletedFrom t t.err ∧ s.SameHostRegs t ∧ s.SameHostSide t := by
  obtain ⟨_, -, ⟨_, -, rfl⟩ | ⟨-, -, rfl⟩ | ⟨-, -, rfl⟩⟩ := exec_next h <;>
    exact ⟨⟨rfl, rfl, rfl, rfl, rfl⟩, ⟨rfl, rfl, rfl, rfl, rfl, rfl, rfl, rfl⟩, rfl, rfl, rfl, rfl, rfl, rfl⟩

/-- Settles O22: an error and CONFIG leave memory alone, and a body writes inside the destination used region, which the
checks keep off a distinct source. -/
theorem commandsChangeOnlyTheirDestination : Obligations.CommandsChangeOnlyTheirDestination := by
  intro i s t a ⟨hm, hp, hc, _, _, _⟩ ha hx
  obtain ⟨hdone, hregs, hside⟩ := exec_frame hx
  refine ⟨hdone, hregs, hside, ?_⟩
  obtain ⟨b, hb, hcase⟩ := exec_next hx
  cases ha.symm.trans hb
  obtain ⟨e, -, rfl⟩ | ⟨rfl, -, rfl⟩ | ⟨hi, ⟨hck, -⟩, rfl⟩ := hcase
  · exact ⟨fun _ => ⟨rfl, rfl, rfl⟩, fun _ => rfl, fun _ _ => rfl, fun _ _ _ _ => rfl⟩
  · exact ⟨fun h => by simp at h, fun _ => rfl, fun _ _ => rfl, fun _ _ _ _ => rfl⟩
  · refine ⟨fun _ => ⟨rfl, rfl, rfl⟩, fun h => by simp [hi] at h, (bodyOf_confined hi hck hp hc hm).2,
      fun hne x hlo hhi => ?_⟩
    by_contra hdiff
    have hsrc := checksMet_disjoint hck hne (bodyOf_changes hi hck hp hc hm hdiff)
    exact Bool.eq_false_iff.mp hsrc (regionHas_iff.mpr ⟨hlo, hhi⟩)

/-! ### Every change of memory (20_memory.md R53; 70_reset_and_hazards.md R167, R174) -/

/-- The byte lies in the destination used region, and not in a distinct source, of an active configured buffer command. -/
structure State.ActiveWrites (s : State) (a : Active) (i : Instr) (x : Nat) : Prop where
  active : s.active = some a
  word : decode a.word = .ok i
  buffer : i ≠ .config
  configured : s.configured = true
  dst : regionHas (usedRegions s.cfgN.toNat i a.op).2 x = true
  src : a.op.srcAddr ≠ a.op.dstAddr → regionHas (usedRegions s.cfgN.toNat i a.op).1 x = false

/-- The engine changes memory by a command whose checks are met, and its step completes the command. -/
theorem engineStep_changes {s t : State} {x : Nat} (h : s.Inv) (he : engineStep s = .next t)
    (hx : readByte t.mem x ≠ readByte s.mem x) :
    ∃ a i, s.ActiveWrites a i x ∧ s.ChecksMet i a.op ∧ t.active = none := by
  obtain ⟨hm, hp, hc, -, -, -⟩ := h
  obtain ⟨-, rfl⟩ | ⟨a, -, ha, ⟨i, hi, hex⟩ | ⟨_, -, rfl⟩⟩ := engineStep_next he
  · exact absurd rfl hx
  · obtain ⟨b, hb, ⟨_, -, rfl⟩ | ⟨-, -, rfl⟩ | ⟨hne, ⟨hck, -⟩, rfl⟩⟩ := exec_next hex
    · exact absurd rfl hx
    · exact absurd rfl hx
    · cases ha.symm.trans hb
      have hd := bodyOf_changes hne hck hp hc hm hx
      exact ⟨a, i, ⟨ha, hi, hne, hck.1, hd, fun hsd => checksMet_disjoint hck hsd hd⟩, hck, rfl⟩
  · exact absurd rfl hx

/-- RESET changes memory by the abort of an active configured buffer command only. -/
theorem abortMem_changes {s : State} {x : Nat} (hm : memWf s.mem = true)
    (hx : readByte (abortMem s) x ≠ readByte s.mem x) : ∃ a i, s.ActiveWrites a i x := by
  cases hr : abortedRegions s with
  | none => exact absurd (by rw [(abort_none hr).1]) hx
  | some r =>
    obtain ⟨a, i, ha, hi, hconf, hne, rfl⟩ := abortedRegions_some.mp hr
    rw [(abort_some hr).1] at hx
    refine ⟨a, i, ha, hi, hne, hconf, ?_, fun hsd => Bool.eq_false_iff.mpr fun hs => hx ?_⟩
    · rw [regionHas_iff]
      by_contra hout
      exact hx ((scramble_confined hm).2 x hout)
    · exact scramble_source hm (fun h => hsd (BitVec.eq_of_toNat_eq h)) hs

/-- The host changes memory where its word write or byte write puts it. -/
theorem hostStep_changes {s t : State} {x : Nat} (hm : memWf s.mem = true) (h : hostStep s = .next t)
    (hx : readByte t.mem x ≠ readByte s.mem x) :
    (∃ rest a v, s.program = .memWrite a v :: rest ∧ a.toNat ≤ x ∧ x < a.toNat + 4 ∧ t.program = rest) ∨
    (∃ rest a v, s.program = .byteWrite a v :: rest ∧ x = a.toNat ∧ t.program = rest) := by
  obtain hsame | ⟨r, hw, -⟩ := hostStep_mem h
  · exact absurd (by rw [hsame]) hx
  · have hr : regionHas r x = true := by_contra fun hout => hx (hw.readByte_other hm hout)
    cases hw with
    | word a v rest op done =>
      obtain ⟨hlo, hhi⟩ := regionHas_iff.mp hr
      exact .inl ⟨rest, a, v, op, hlo, hhi, done⟩
    | byte a v rest op done => exact .inr ⟨rest, a, v, op, regionHas_byte.mp hr, done⟩

/-- Settles O57, by who moves: the host by its own write, the engine by a command that completes, RESET by an abort. -/
theorem memoryChangesOnlyWhereTheRulesSay : Obligations.MemoryChangesOnlyWhereTheRulesSay := by
  intro s t x h hs hx
  have ⟨hm, _, _, hlife, _, _⟩ := h
  obtain ⟨-, -, he⟩ | ⟨-, -, hh⟩ | ⟨rest, ⟨-, hh⟩ | ⟨-, he⟩ | ⟨hr, rfl⟩⟩ := step_next hs
  · obtain ⟨a, i, ⟨ha, hi, hne, hconf, hd, hsrc⟩, hck, hnone⟩ := engineStep_changes h he hx
    exact .inr (.inr ⟨a, i, hlife.busy_of_active ha, ha, hi, hne, hconf, .inl hck, hd, hsrc, hnone⟩)
  · exact (hostStep_changes hm hh hx).imp_right .inl
  · exact (hostStep_changes (s := { s with schedule := rest }) hm hh hx).imp_right .inl
  · obtain ⟨a, i, ⟨ha, hi, hne, hconf, hd, hsrc⟩, hck, hnone⟩ :=
      engineStep_changes (s := { s with schedule := rest }) h he hx
    exact .inr (.inr ⟨a, i, hlife.busy_of_active ha, ha, hi, hne, hconf, .inl hck, hd, hsrc, hnone⟩)
  · obtain ⟨a, i, ha, hi, hne, hconf, hd, hsrc⟩ := abortMem_changes (s := { s with schedule := rest }) hm hx
    exact .inr (.inr ⟨a, i, hlife.busy_of_active ha, ha, hi, hne, hconf, .inr ⟨rest, hr⟩, hd, hsrc, rfl⟩)

/-! ### Observation and fence (20_memory.md R57; 70_reset_and_hazards.md R171) -/

theorem Hazard.observe_phase {h : Hazard} (hr : h.phase ≠ .running) : h.observe.phase = .observed := by
  cases hp : h.phase with
  | running => exact absurd hp hr
  | completed => simp [observe, hp]
  | observed => simp [observe, hp]

theorem Hazard.observe_invalidated (h : Hazard) : h.observe.invalidated = h.invalidated := by
  unfold observe
  split <;> rfl

theorem Hazard.observe_dst (h : Hazard) : h.observe.dst = h.dst := by
  unfold observe
  split <;> rfl

theorem Hazard.observed_forbidsRead {h : Hazard} (hp : h.phase = .observed) (r : Region) : h.forbidsRead r = false := by
  simp [forbidsRead, inUse, hp]

theorem Hazard.observed_unordered {h : Hazard} (hp : h.phase = .observed) (r : Region) :
    h.unordered r = regionsMeet r h.dst := by
  simp [unordered, inUse, hp]

/-- A read of STATUS of an idle machine is an observation of completion. -/
theorem hostReadReg_status_idle {s : State} (hb : s.busy = false) :
    hostReadReg .status s = respond (statusWord s) (observeCompletion s) := by
  have hshow : showsCompletion (statusWord s) = true := by rw [showsCompletion, statusWord_busy, hb]; rfl
  unfold hostReadReg
  simp only [readReg, hshow, and_self, if_true]

/-- A host read of a destination whose completion is observed and not ordered is a fault, where every mark is as far. -/
theorem busByteRead_unordered {s : State} {h : Hazard} {x : Word} (hall : ∀ y ∈ s.hazards, y.phase = .observed)
    (hmem : h ∈ s.hazards) (hx : regionHas h.dst x.toNat = true) : busByteRead x s = .fault .missingOrdering := by
  refine hostRead_of_unordered _ (fun y hy => Hazard.observed_forbidsRead (hall y hy) _) hmem ?_
  rw [Hazard.observed_unordered (hall h hmem), regionsMeet_byte]
  exact hx

/-- A fence opens the buffers of every completion that is observed and, without coherence, invalidated. -/
theorem hostFence_hazards_eq_nil {s : State}
    (h : ∀ x ∈ s.hazards, x.phase = .observed ∧ (s.params.coherent = true ∨ x.invalidated = true)) :
    (hostFence s).hazards = [] := by
  refine List.filter_eq_nil_iff.mpr fun x hx => ?_
  obtain ⟨hp, hc | hc⟩ := h x hx <;> simp [hp, hc]

/-- Without coherence a fence keeps what no invalidate has followed. -/
theorem mem_hostFence_hazards {s : State} {h : Hazard} (hmem : h ∈ s.hazards) (hc : s.params.coherent = false)
    (hinv : h.invalidated = false) : h ∈ (hostFence s).hazards :=
  List.mem_filter.mpr ⟨hmem, by simp [hc, hinv]⟩

theorem Hazard.invalidate_observed {h : Hazard} (hp : h.phase = .observed) :
    h.invalidate.phase = .observed ∧ h.invalidate.invalidated = true := by
  simp [invalidate, hp]

theorem hostStep_takeIrq {s : State} {rest : List HostOp} (hp : s.program = .takeIrq :: rest) :
    hostStep s = .next (hostTakeIrq rest s) := by
  unfold hostStep
  rw [hp]

/-- Settles O56: the read of an idle STATUS moves every mark on to the phase that the fence drops. -/
theorem observationAndFenceOpenTheBuffers : Obligations.ObservationAndFenceOpenTheBuffers := by
  intro s ⟨_, _, _, _, hz, _⟩ hb
  have hobs : ∀ y ∈ s.hazards.map Hazard.observe, y.phase = .observed := by
    intro y hy
    obtain ⟨h, hh, rfl⟩ := List.mem_map.mp hy
    exact Hazard.observe_phase fun hr => by simp [hz h hh hr] at hb
  dsimp only
  rw [hostReadReg_status_idle hb]
  refine ⟨fun hc => hostFence_hazards_eq_nil fun y hy => ⟨hobs y hy, .inl hc⟩, fun _ => ?_, fun h hh x hx => ?_,
    fun rest hp => ?_⟩
  · refine hostFence_hazards_eq_nil fun y hy => ?_
    obtain ⟨h, hh, rfl⟩ := List.mem_map.mp hy
    exact (Hazard.invalidate_observed (hobs h hh)).imp_right .inr
  · have hmem : h.observe ∈ s.hazards.map Hazard.observe := List.mem_map_of_mem hh
    have hx' : regionHas h.observe.dst x.toNat = true := by rwa [Hazard.observe_dst]
    exact ⟨busByteRead_unordered hobs hmem hx', fun hc hinv =>
      busByteRead_unordered (fun y hy => hobs y (List.mem_of_mem_filter hy))
        (mem_hostFence_hazards hmem hc ((Hazard.observe_invalidated h).trans hinv)) hx'⟩
  · rw [hostStep_takeIrq hp]
    unfold hostTakeIrq
    refine ⟨fun hi => ?_, fun hi =>
      ⟨observeCompletion { s with program := rest }, by rw [if_pos hi], rfl, rfl, rfl, rfl, fun r => ?_⟩⟩
    · rw [if_neg (by simp [hi])]
    · rw [readReg_observeCompletion]
      cases r <;> rfl

/-! ### What COPY, PERMUTE and SPLIT leave (41_complex_transforms.md R110, R111; 42_real_transforms.md R141) -/

/-- After t turns of the loop of COPY between disjoint buffers the first t words are copied. -/
theorem getW_copyLoop {sa da n t k : Nat} {m : List Host.Cell} (hm : memWf m = true) (top : da + 4 * n ≤ 2 ^ 32)
    (hdis : sa + 4 * n ≤ da ∨ da + 4 * n ≤ sa) (ht : t ≤ n) (hk : k < t) :
    getW (forUpTo t (fun k m => setW m da k (getW m sa k)) m) da k = getW m sa k := by
  induction t with
  | zero => omega
  | succ t ih =>
    have hconf : Confined da (da + 4 * n) m (forUpTo t (fun k m => setW m da k (getW m sa k)) m) :=
      (Confined.refl hm).forUpTo fun _ _ _ hx => hx.setW top (by omega)
    rw [forUpTo, getW_setW (by omega) hconf.1]
    split
    · next h => rw [h, hconf.getW_outside (by omega)]
    · exact ih (by omega) (by omega)

/-- COPY leaves the words of the source in the destination. -/
theorem getW_copyWords {sa da n k : Nat} {m : List Host.Cell} (hm : memWf m = true) (top : da + 4 * n ≤ 2 ^ 32)
    (hplace : InPlaceOrDisjoint sa n da n) (hk : k < n) : getW (copyWords sa da n m) da k = getW m sa k := by
  unfold copyWords
  split
  · next h => rw [h]
  · next hne => exact getW_copyLoop hm top (hplace.resolve_left hne) le_rfl hk

theorem memWf_setC {base k : Nat} {z : Word × Word} {m : List Host.Cell} (hk : base + 8 * k + 8 ≤ 2 ^ 32)
    (h : memWf m = true) : memWf (setC m base k z) = true :=
  memWf_setW (by omega) (memWf_setW (by omega) h)

/-- Part-way through a pass that makes the `points` elements f of a destination from the elements g of a source: the
elements that are done hold f, and the elements of the source that are not still hold g. -/
structure Pass (points sa da : Nat) (g f : Nat → Word × Word) (done : Nat → Prop) (x : List Host.Cell) : Prop where
  wf : memWf x = true
  written : ∀ e, e < points → done e → getC x da e = f e
  unread : ∀ e, e < points → ¬done e → getC x sa e = g e

section
variable {points sa da : Nat} {g f : Nat → Word × Word} {done done' : Nat → Prop} {x : List Host.Cell}

/-- A write of element i of the destination leaves the other elements of the source, in place or not. -/
theorem getC_setC_source {i e : Nat} {z : Word × Word} (hx : memWf x = true) (top : da + 8 * points ≤ 2 ^ 32)
    (hplace : InPlaceOrDisjoint sa (2 * points) da (2 * points)) (hi : i < points) (he : e < points) (hne : e ≠ i) :
    getC (setC x da i z) sa e = getC x sa e := by
  obtain rfl | hdis := hplace
  · rw [getC_setC (by omega) hx, if_neg hne]
  · have hconf : Confined da (da + 4 * (2 * points)) x (setC x da i z) := (Confined.refl hx).setC (by omega) (by omega)
    unfold getC
    rw [hconf.getW_outside (by omega), hconf.getW_outside (by omega)]

/-- One turn of a pass writes the elements i and j, in this order. -/
theorem Pass.write {i j : Nat} {z w : Word × Word} (h : Pass points sa da g f done x) (top : da + 8 * points ≤ 2 ^ 32)
    (hplace : InPlaceOrDisjoint sa (2 * points) da (2 * points)) (hi : i < points) (hj : j < points)
    (hz : i ≠ j → f i = z) (hw : f j = w) (hdone : ∀ e, e < points → (done' e ↔ done e ∨ e = i ∨ e = j)) :
    Pass points sa da g f done' (setC (setC x da i z) da j w) := by
  have hx : memWf (setC x da i z) = true := memWf_setC (by omega) h.wf
  refine ⟨memWf_setC (by omega) hx, fun e he hd => ?_, fun e he hd => ?_⟩
  · rw [getC_setC (by omega) hx, getC_setC (by omega) h.wf]
    split_ifs with hej hei
    · rw [hej, hw]
    · rw [hei, hz (by omega)]
    · exact h.written e he (((hdone e he).mp hd).resolve_right (by omega))
  · obtain ⟨hnot, hei, hej⟩ : ¬done e ∧ e ≠ i ∧ e ≠ j := by simpa [hdone e he] using hd
    rw [getC_setC_source hx top hplace hj he hej, getC_setC_source h.wf top hplace hi he hei]
    exact h.unread e he hnot

theorem Pass.congr (h : Pass points sa da g f done x) (hd : ∀ e, e < points → (done' e ↔ done e)) :
    Pass points sa da g f done' x :=
  ⟨h.wf, fun e he hde => h.written e he ((hd e he).mp hde), fun e he hde => h.unread e he (mt (hd e he).mpr hde)⟩

end

theorem permuteStep_of_le {l sa da i : Nat} {m : List Host.Cell} (h : i ≤ revBits l i) :
    permuteStep l sa da i m = setC (setC m da i (getC m sa (revBits l i))) da (revBits l i) (getC m sa i) := if_pos h

theorem permuteStep_of_lt {l sa da i : Nat} {m : List Host.Cell} (h : revBits l i < i) : permuteStep l sa da i m = m :=
  if_neg (by omega)

section
variable {l sa da t : Nat} {m : List Host.Cell}

/-- Turn i of PERMUTE swaps i and rev(i) where i is the smaller, so that after t turns the elements below t and their
reversals are done. -/
theorem permute_pass (hm : memWf m = true) (top : da + 8 * 2 ^ l ≤ 2 ^ 32)
    (hplace : InPlaceOrDisjoint sa (2 * 2 ^ l) da (2 * 2 ^ l)) (ht : t ≤ 2 ^ l) :
    Pass (2 ^ l) sa da (getC m sa) (fun e => getC m sa (revBits l e)) (fun e => e < t ∨ revBits l e < t)
      (forUpTo t (permuteStep l sa da) m) := by
  induction t with
  | zero => exact ⟨hm, by simp, fun _ _ _ => rfl⟩
  | succ t ih =>
    have h := ih (by omega)
    have hrev : revBits l (revBits l t) = t := revBits_revBits (by omega)
    have hiff : ∀ e, e < 2 ^ l → (revBits l e = t ↔ e = revBits l t) := fun e he =>
      ⟨fun h => by rw [← h, revBits_revBits he], fun h => by rw [h, hrev]⟩
    rw [forUpTo]
    by_cases hle : t ≤ revBits l t
    · rw [permuteStep_of_le hle, h.unread t (by omega) (by omega), h.unread _ (revBits_lt l t) (by omega)]
      refine h.write top hplace (by omega) (revBits_lt l t) (fun _ => rfl) (by rw [hrev]) fun e he => ?_
      have := hiff e he
      omega
    · rw [permuteStep_of_lt (by omega)]
      refine h.congr fun e he => ?_
      have := hiff e he
      obtain rfl | hne := eq_or_ne e t <;> omega

/-- PERMUTE leaves element rev(e) of the source in element e. -/
theorem getC_permute {e : Nat} (hm : memWf m = true) (top : da + 8 * 2 ^ l ≤ 2 ^ 32)
    (hplace : InPlaceOrDisjoint sa (2 * 2 ^ l) da (2 * 2 ^ l)) (he : e < 2 ^ l) :
    getC (permute l (2 ^ l) sa da m) da e = getC m sa (revBits l e) :=
  (permute_pass hm top hplace le_rfl).written e he (.inl he)

end

/-- Complex element e of a buffer that holds the words w. -/
def elementOf (w : Nat → Word) (e : Nat) : Word × Word := (w (2 * e), w (2 * e + 1))

theorem getC_eq_elementOf (m : List Host.Cell) (base e : Nat) : getC m base e = elementOf (getW m base) e := rfl

/-- Element e of what SPLIT makes of a spectrum of the words w (42_real_transforms.md R141); the middle element keeps the
second result of its turn. -/
def splitElement (nBits n : Nat) (w : Nat → Word) (e : Nat) : Word × Word :=
  if e = 0 then (fmul half (fadd (w 0) (w n)), fmul half (fsub (w 0) (w n)))
  else if 2 * e < n / 2 then
    (splitPair (elementOf w e) (elementOf w (n / 2 - e)) (cosH nBits e) (sinH nBits e)).1
  else
    (splitPair (elementOf w (n / 2 - e)) (elementOf w e) (cosH nBits (n / 2 - e)) (sinH nBits (n / 2 - e))).2

theorem splitBoundary_eq {n sa da : Nat} {m : List Host.Cell} (nBits : Nat) :
    splitBoundary n sa da m = setC m da 0 (splitElement nBits n (getW m sa) 0) := rfl

section
variable {nBits n i : Nat} {w : Nat → Word}

theorem splitElement_low (h0 : i ≠ 0) (h : 2 * i < n / 2) :
    splitElement nBits n w i =
      (splitPair (elementOf w i) (elementOf w (n / 2 - i)) (cosH nBits i) (sinH nBits i)).1 := by
  rw [splitElement, if_neg h0, if_pos h]

theorem splitElement_mirror (hi : i < n / 2) (h : 2 * i ≤ n / 2) :
    splitElement nBits n w (n / 2 - i) =
      (splitPair (elementOf w i) (elementOf w (n / 2 - i)) (cosH nBits i) (sinH nBits i)).2 := by
  rw [splitElement, if_neg (by omega), if_neg (by omega), Nat.sub_sub_self hi.le]

end

section
variable {nBits n sa da t : Nat} {m : List Host.Cell}

/-- The boundary of SPLIT writes element 0, and turn t writes the elements t+1 and M-(t+1). -/
theorem split_pass (hm : memWf m = true) (top : da + 8 * (n / 2) ≤ 2 ^ 32)
    (hplace : InPlaceOrDisjoint sa (2 * (n / 2)) da (2 * (n / 2))) (hn : n = 2 ∨ n % 4 = 0) (hpos : 0 < n)
    (ht : t ≤ n / 4) :
    Pass (n / 2) sa da (elementOf (getW m sa)) (splitElement nBits n (getW m sa)) (fun e => e ≤ t ∨ n / 2 - t ≤ e)
      (forUpTo t (fun t m => splitStep nBits (n / 2) sa da (t + 1) m) (splitBoundary n sa da m)) := by
  induction t with
  | zero =>
    rw [forUpTo, splitBoundary_eq nBits]
    refine ⟨memWf_setC (by omega) hm, fun e he hd => ?_, fun e he hd => ?_⟩
    · obtain rfl : e = 0 := by omega
      rw [getC_setC (by omega) hm, if_pos rfl]
    · exact (getC_setC_source hm top hplace (by omega) he (by omega)).trans (getC_eq_elementOf m sa e)
  | succ t ih =>
    have h := ih (by omega)
    rw [forUpTo, splitStep, h.unread (t + 1) (by omega) (by omega), h.unread (n / 2 - (t + 1)) (by omega) (by omega)]
    exact h.write top hplace (by omega) (by omega) (fun hne => splitElement_low (by omega) (by omega))
      (splitElement_mirror (by omega) (by omega)) fun e he => by omega

/-- SPLIT leaves `splitElement` of the source's words. -/
theorem getC_splitSpectrum {e : Nat} (hm : memWf m = true) (top : da + 4 * n ≤ 2 ^ 32)
    (hplace : InPlaceOrDisjoint sa n da n) (hn : n = 2 ∨ n % 4 = 0) (he : e < n / 2) :
    getC (splitSpectrum nBits n sa da m) da e = splitElement nBits n (getW m sa) e :=
  (split_pass hm (by omega) (by omega) hn (by omega) le_rfl).written e he (by omega)

end

/-- Words 1 and N+1 of the spectrum are not read (42_real_transforms.md R141). -/
theorem splitElement_congr {nBits n e : Nat} {w w' : Nat → Word} (he : e < n / 2)
    (h : ∀ k, k < n + 2 → k ≠ 1 ∧ k ≠ n + 1 → w k = w' k) : splitElement nBits n w e = splitElement nBits n w' e := by
  have helem : ∀ e, e ≠ 0 → e < n / 2 → elementOf w e = elementOf w' e := fun e h0 he => by
    rw [elementOf, elementOf, h _ (by omega) (by omega), h _ (by omega) (by omega)]
  unfold splitElement
  split_ifs with h0
  · rw [h 0 (by omega) (by omega), h n (by omega) (by omega)]
  · rw [helem e h0 he, helem (n / 2 - e) (by omega) (by omega)]
  · rw [helem e h0 he, helem (n / 2 - e) (by omega) (by omega)]

/-! ### Two runs on the same words (20_memory.md R53; 41_complex_transforms.md R122) -/

/-- Two canonical memories whose buffers at `base` and `base'`, inside the address space, hold the same n words. -/
structure Twins (n base base' : Nat) (m m' : List Host.Cell) : Prop where
  wf : memWf m = true
  wf' : memWf m' = true
  top : base + 4 * n ≤ 2 ^ 32
  top' : base' + 4 * n ≤ 2 ^ 32
  words : ∀ k, k < n → getW m base k = getW m' base' k

namespace Twins
variable {n base base' : Nat} {m m' : List Host.Cell}

theorem getC_eq {k : Nat} (h : Twins n base base' m m') (hk : 2 * k + 1 < n) : getC m base k = getC m' base' k := by
  rw [getC, getC, h.words _ (by omega), h.words _ hk]

theorem setW {k : Nat} {v : Word} (h : Twins n base base' m m') (hk : k < n) :
    Twins n base base' (Machine.setW m base k v) (Machine.setW m' base' k v) := by
  obtain ⟨hwf, hwf', htop, htop', hwords⟩ := h
  refine ⟨memWf_setW (by omega) hwf, memWf_setW (by omega) hwf', htop, htop', fun j hj => ?_⟩
  rw [getW_setW (by omega) hwf, getW_setW (by omega) hwf', hwords j hj]

theorem setC {k : Nat} {z : Word × Word} (h : Twins n base base' m m') (hk : 2 * k + 1 < n) :
    Twins n base base' (Machine.setC m base k z) (Machine.setC m' base' k z) :=
  (h.setW (by omega)).setW hk

/-- Loops whose turns keep the same words keep them. -/
theorem forUpTo {c : Nat} {f f' : Nat → List Host.Cell → List Host.Cell} (h : Twins n base base' m m')
    (hf : ∀ i, i < c → ∀ x x', Twins n base base' x x' → Twins n base base' (f i x) (f' i x')) :
    Twins n base base' (Sys2Proof.forUpTo c f m) (Sys2Proof.forUpTo c f' m') := by
  induction c with
  | zero => exact h
  | succ c ih => exact hf c (by omega) _ _ (ih fun i hi => hf i (by omega))

theorem butterflyStep {nBits lo hi k : Nat} {inverse : Bool} (h : Twins n base base' m m') (hlo : 2 * lo + 1 < n)
    (hhi : 2 * hi + 1 < n) :
    Twins n base base' (butterflyStep nBits base inverse lo hi k m) (butterflyStep nBits base' inverse lo hi k m') := by
  unfold Machine.butterflyStep
  rw [h.getC_eq hlo, h.getC_eq hhi]
  exact (h.setC hlo).setC hhi

theorem stages {nBits : Nat} {inverse : Bool} (h : Twins n base base' m m') (hn : 2 * 2 ^ (nBits - 1) ≤ n) :
    Twins n base base' (stages nBits (2 ^ (nBits - 1)) base inverse m) (stages nBits (2 ^ (nBits - 1)) base' inverse m') :=
  h.forUpTo fun _ hs _ _ hx => hx.forUpTo fun _ hb _ _ hy => hy.forUpTo fun _ hj _ _ hz => by
    have hindex := stage_index hs hb hj
    exact hz.butterflyStep (by omega) (by omega)

theorem combineStep {nBits points i : Nat} (h : Twins n base base' m m') (hi : 2 * i + 1 < n)
    (hmirror : 2 * (points - i) + 1 < n) :
    Twins n base base' (combineStep nBits points base i m) (combineStep nBits points base' i m') := by
  unfold Machine.combineStep
  rw [h.getC_eq hi, h.getC_eq hmirror]
  exact (h.setC hi).setC hmirror

end Twins

/-- What the boundary of COMBINE_INPLACE leaves in each word (42_real_transforms.md R140). -/
theorem getW_combineBoundary {n da k : Nat} {m : List Host.Cell} (hm : memWf m = true) (top : da + 4 * (n + 2) ≤ 2 ^ 32) :
    getW (combineBoundary n da m) da k =
      if k = n + 1 then 0x00000000 else if k = 1 then 0x00000000
      else if k = 0 then fadd (getW m da 0) (getW m da 1)
      else if k = n then fsub (getW m da 0) (getW m da 1) else getW m da k := by
  have h1 := memWf_setW (base := da) (k := n) (v := fsub (getW m da 0) (getW m da 1)) (by omega) hm
  have h2 := memWf_setW (base := da) (k := 0) (v := fadd (getW m da 0) (getW m da 1)) (by omega) h1
  have h3 := memWf_setW (base := da) (k := 1) (v := 0x00000000) (by omega) h2
  unfold combineBoundary
  rw [getW_setW (by omega) h3, getW_setW (by omega) h2, getW_setW (by omega) h1, getW_setW (by omega) hm]

/-- COMBINE_INPLACE makes the same N+2 words of the same N. -/
theorem Twins.combineInPlace {nBits n da da' : Nat} {m m' : List Host.Cell} (h : Twins n da da' m m') (hn : 2 ≤ n)
    (top : da + 4 * (n + 2) ≤ 2 ^ 32) (top' : da' + 4 * (n + 2) ≤ 2 ^ 32) :
    Twins (n + 2) da da' (combineInPlace nBits n da m) (combineInPlace nBits n da' m') := by
  refine ⟨((Confined.refl h.wf).combineInPlace top le_rfl).1, ((Confined.refl h.wf').combineInPlace top' le_rfl).1,
    top, top', fun k hk => ?_⟩
  have hloop : Twins n da da' (Sys2Proof.forUpTo (n / 4) (fun t m => Machine.combineStep nBits (n / 2) da (t + 1) m) m)
      (Sys2Proof.forUpTo (n / 4) (fun t m => Machine.combineStep nBits (n / 2) da' (t + 1) m) m') :=
    h.forUpTo fun _ _ _ _ hx => hx.combineStep (by omega) (by omega)
  unfold Machine.combineInPlace
  rw [getW_combineBoundary hloop.wf top, getW_combineBoundary hloop.wf' top', hloop.words 0 (by omega),
    hloop.words 1 (by omega)]
  split_ifs
  · rfl
  · rfl
  · rfl
  · rfl
  · exact hloop.words k (by omega)

/-- Words are equal where the elements they are part of are. -/
theorem getW_of_getC_eq {base base' k : Nat} {m m' : List Host.Cell}
    (h : getC m base (k / 2) = getC m' base' (k / 2)) : getW m base k = getW m' base' k := by
  obtain ⟨hre, him⟩ := Prod.mk.inj h
  obtain hk | hk : k = 2 * (k / 2) ∨ k = 2 * (k / 2) + 1 := by omega
  · rw [hk]
    exact hre
  · rw [hk]
    exact him

/-- Two runs on buffers of n words, each in place or between disjoint buffers. -/
structure TwoRuns (n sa da sa' da' : Nat) (m m' : List Host.Cell) : Prop where
  wf : memWf m = true
  wf' : memWf m' = true
  top : da + 4 * n ≤ 2 ^ 32
  top' : da' + 4 * n ≤ 2 ^ 32
  place : InPlaceOrDisjoint sa n da n
  place' : InPlaceOrDisjoint sa' n da' n

theorem Twins.inPlace {n base base' : Nat} {m m' : List Host.Cell} (h : Twins n base base' m m') :
    TwoRuns n base base base' base' m m' :=
  ⟨h.wf, h.wf', h.top, h.top', .inl rfl, .inl rfl⟩

namespace TwoRuns
variable {n nBits sa da sa' da' : Nat} {m m' : List Host.Cell}

theorem copyWords (h : TwoRuns n sa da sa' da' m m') (hsrc : ∀ k, k < n → getW m sa k = getW m' sa' k) :
    Twins n da da' (copyWords sa da n m) (copyWords sa' da' n m') := by
  obtain ⟨hwf, hwf', htop, htop', hplace, hplace'⟩ := h
  refine ⟨((Confined.refl hwf).copyWords htop le_rfl).1, ((Confined.refl hwf').copyWords htop' le_rfl).1, htop, htop',
    fun k hk => ?_⟩
  rw [getW_copyWords hwf htop hplace hk, getW_copyWords hwf' htop' hplace' hk, hsrc k hk]

theorem permute {l : Nat} (h : TwoRuns n sa da sa' da' m m') (hl : n = 2 * 2 ^ l)
    (hsrc : ∀ k, k < n → getW m sa k = getW m' sa' k) :
    Twins n da da' (permute l (2 ^ l) sa da m) (permute l (2 ^ l) sa' da' m') := by
  subst hl
  obtain ⟨hwf, hwf', htop, htop', hplace, hplace'⟩ := h
  refine ⟨((Confined.refl hwf).permute htop le_rfl).1, ((Confined.refl hwf').permute htop' le_rfl).1, htop, htop',
    fun k hk => getW_of_getC_eq ?_⟩
  have hrev := revBits_lt l (k / 2)
  rw [getC_permute hwf (by omega) hplace (by omega), getC_permute hwf' (by omega) hplace' (by omega), getC, getC,
    hsrc _ (by omega), hsrc _ (by omega)]

theorem splitSpectrum (h : TwoRuns n sa da sa' da' m m') (hpos : 0 < n) (hn : n = 2 ∨ n % 4 = 0)
    (hsrc : ∀ k, k < n + 2 → k ≠ 1 ∧ k ≠ n + 1 → getW m sa k = getW m' sa' k) :
    Twins n da da' (splitSpectrum nBits n sa da m) (splitSpectrum nBits n sa' da' m') := by
  obtain ⟨hwf, hwf', htop, htop', hplace, hplace'⟩ := h
  refine ⟨((Confined.refl hwf).splitSpectrum htop (by omega) (by omega) le_rfl).1,
    ((Confined.refl hwf').splitSpectrum htop' (by omega) (by omega) le_rfl).1, htop, htop',
    fun k hk => getW_of_getC_eq ?_⟩
  rw [getC_splitSpectrum hwf htop hplace hn (by omega), getC_splitSpectrum hwf' htop' hplace' hn (by omega)]
  exact splitElement_congr (by omega) hsrc

end TwoRuns

theorem le_usedWords {i : Instr} (hi : i ≠ .config) (n : Nat) : n ≤ (usedWords i n).1 ∧ n ≤ (usedWords i n).2 := by
  cases i <;> simp [usedWords] at hi ⊢

theorem two_pow_eq_two_or_mod_four {b : Nat} (hb : 1 ≤ b) : 2 ^ b = 2 ∨ 2 ^ b % 4 = 0 := by
  obtain rfl | hb := hb.eq_or_lt
  · exact .inl rfl
  · exact .inr (Nat.mod_eq_zero_of_dvd (pow_dvd_pow 2 hb))

/-- Settles O23: the first primitive of a command leaves the same words of the same source, and the others, which work in
place, make the same words of them. -/
theorem resultDependsOnlyOnTheSourceWords : Obligations.ResultDependsOnlyOnTheSourceWords := by
  intro i ⟨sa, da, _, _⟩ ⟨sa', da', n, b⟩ m m' hi hb hn hbits hsize hm hm' htop htop' hplace hplace' hsrc
  dsimp only at *
  subst hbits hsize
  have hpow : n = 2 * 2 ^ (b - 1) := hn.trans (two_pow_pred hb)
  have hhalf : n / 2 = 2 ^ (b - 1) := by omega
  have hpos : 0 < 2 ^ (b - 1) := by positivity
  have hmod : n = 2 ∨ n % 4 = 0 := hn ▸ two_pow_eq_two_or_mod_four hb
  obtain ⟨hsu, hdu⟩ := le_usedWords hi n
  have runs : TwoRuns n sa da sa' da' m m' := ⟨hm, hm', by omega, by omega, by omega, by omega⟩
  cases i
  case config => exact absurd rfl hi
  all_goals simp only [bodyOf, bitrevBody, bflyBody, fftBody, combineBody, fftRealBody, splitBody, ifftRealBody,
    Geometry.m, Geometry.l, hhalf]
  case fft | ifft => exact ((runs.permute hpow fun k hk => hsrc k hk nofun).stages hpow.ge).words
  case bitrev => exact (runs.permute hpow fun k hk => hsrc k hk nofun).words
  case bflyFwd | bflyInv => exact ((runs.copyWords fun k hk => hsrc k hk nofun).stages hpow.ge).words
  case combine => exact ((runs.copyWords fun k hk => hsrc k hk nofun).combineInPlace (by omega) htop htop').words
  case fftReal =>
    exact (((runs.permute hpow fun k hk => hsrc k hk nofun).stages hpow.ge).combineInPlace (by omega) htop htop').words
  case split => exact (runs.splitSpectrum (by omega) hmod fun k hk hne => hsrc k hk fun _ => hne).words
  case ifftReal =>
    have h := runs.splitSpectrum (nBits := b) (by omega) hmod fun k hk hne => hsrc k hk fun _ => hne
    exact ((h.inPlace.permute hpow h.words).stages hpow.ge).words

end Sys2Proof.Machine

/-! PROOFS. The family 30_encoding.md: the command words, the checks of a buffer command, the host's word write, and WAIT. -/

namespace Sys2Proof.Machine

/-! ### The command words (30_encoding.md section 1) -/

theorem decode_encode (i : Instr) : decode (encode i) = .ok i := by cases i <;> rfl

/-- A word with zero reserved bits is what the opcode map says. -/
theorem decode_of_zero_rsvd {w : Word} (h : (cmd32Of w).rsvd = 0) :
    decode w = (opcodeOf (cmd32Of w).opc).elim (.error .reservedOpcode) .ok := by
  unfold decode
  dsimp only
  rw [if_neg (not_not.mpr h)]
  cases opcodeOf (cmd32Of w).opc <;> rfl

theorem decode_of_rsvd {w : Word} (h : (cmd32Of w).rsvd ≠ 0) : decode w = .error .reservedBits := by
  unfold decode
  dsimp only
  rw [if_pos h]

theorem decode_error_iff {w : Word} :
    (∃ r, decode w = .error r) ↔ (cmd32Of w).rsvd ≠ 0 ∨ opcodeOf (cmd32Of w).opc = none := by
  by_cases h : (cmd32Of w).rsvd = 0
  · rw [decode_of_zero_rsvd h]
    cases opcodeOf (cmd32Of w).opc <;> simp [h]
  · exact iff_of_true ⟨_, decode_of_rsvd h⟩ (.inl h)

theorem opcodeOf_eq_none_iff {opc : BitVec 4} :
    opcodeOf opc = none ↔ opc.toNat ∈ [0x0, 0xB, 0xC, 0xD, 0xE, 0xF] := by
  revert opc
  decide

/-- Settles O25: the fields of a word make it again, and the opcode map is one to one and defined off the reserved
opcodes. -/
theorem eachCommandHasExactlyOneWord : Obligations.EachCommandHasExactlyOneWord :=
  ⟨fun _ i => ⟨eq_encode_of_decode, fun h => h ▸ decode_encode i⟩,
    fun _ => decode_error_iff.trans (or_congr_right opcodeOf_eq_none_iff)⟩

/-- Settles O24: the ten words are the encodings of the commands, and the opcodes of the other six are off the map. -/
theorem opcodeMapWordsDecode : Obligations.OpcodeMapWordsDecode := by
  refine ⟨decode_encode .config, decode_encode .fft, decode_encode .ifft, decode_encode .fftReal,
    decode_encode .ifftReal, decode_encode .bitrev, decode_encode .bflyFwd, decode_encode .bflyInv,
    decode_encode .combine, decode_encode .split, fun w hw => ?_⟩
  simp only [List.mem_cons, List.not_mem_nil, or_false] at hw
  rcases hw with rfl | rfl | rfl | rfl | rfl | rfl <;> rfl

/-! ### The checks of a buffer command (30_encoding.md R73; 60_exceptions.md R154 to R160) -/

open Classical in
/-- The checks in their order, each by the term of Safety.lean that says what it asks. -/
theorem bufferCheck_eq (s : State) (i : Instr) (op : Operands) :
    bufferCheck s i op =
      if s.configured = false then .notConfigured
      else if ¬LengthContract i op.srcLen.toNat op.dstLen.toNat s.cfgN.toNat then .sizeMismatch
      else if ¬(op.srcAddr.toNat % 4 = 0 ∧ op.dstAddr.toNat % 4 = 0) then .alignError
      else if ¬InDmaWindow s.params op.srcAddr.toNat (usedWords i s.cfgN.toNat).1 op.dstAddr.toNat
          (usedWords i s.cfgN.toNat).2 then .rangeError
      else if ¬InPlaceOrDisjoint op.srcAddr.toNat (usedWords i s.cfgN.toNat).1 op.dstAddr.toNat
          (usedWords i s.cfgN.toNat).2 then .aliasError
      else .none := by
  unfold bufferCheck
  dsimp only
  refine if_congr .rfl rfl (if_congr (by rw [← lengthsOk_iff, Bool.not_eq_true]) rfl (if_congr (by omega) rfl
    (if_congr ?_ rfl (if_congr ?_ rfl rfl))))
  · simp only [inWindow, Bool.and_eq_false_iff, decide_eq_false_iff_not]
    omega
  · simp only [overlapWords, Bool.and_eq_true, decide_eq_true_eq]
    omega

/-- A failing check is reported at the completion, and memory is as before. -/
theorem exec_reports {i : Instr} {s : State} {a : Active} {e : ErrCode} (hi : i ≠ .config) (ha : s.active = some a)
    (h : bufferCheck s i a.op = e) (he : e ≠ .none) :
    ∃ t, exec i s = .next t ∧ s.CompletedFrom t e ∧ t.mem = s.mem := by
  subst h
  exact ⟨_, exec_of_check hi ha he, ⟨rfl, rfl, rfl, rfl, rfl⟩, rfl⟩

/-- Settles O51: the command completes with what its checks answer, and each clause says which of them is the first to
fail. -/
theorem firstFailingCheckIsReported : Obligations.FirstFailingCheckIsReported := by
  refine ⟨fun i n => by cases i <;> rfl, fun i s a hi ha => ?_⟩
  have hcheck := bufferCheck_eq s i a.op
  dsimp only
  refine ⟨fun hc => exec_reports hi ha ?_ nofun, fun hc hl => exec_reports hi ha ?_ nofun,
    fun hc hl hal => exec_reports hi ha ?_ nofun, fun hc hl hal hw => exec_reports hi ha ?_ nofun,
    fun hc hl hal hw ho => exec_reports hi ha ?_ nofun, fun hc hl hal hw ho => ⟨hc, hl, hal, hw, by omega⟩⟩
  · rw [hcheck, if_pos hc]
  · rw [hcheck, if_neg (by simp [hc]), if_pos hl]
  · rw [hcheck, if_neg (by simp [hc]), if_neg (not_not.mpr hl), if_pos hal]
  · rw [hcheck, if_neg (by simp [hc]), if_neg (not_not.mpr hl), if_neg (not_not.mpr hal), if_pos hw]
  · rw [hcheck, if_neg (by simp [hc]), if_neg (not_not.mpr hl), if_neg (not_not.mpr hal), if_neg (not_not.mpr hw),
      if_pos (by omega)]

/-! ### The host's word write, and WAIT (30_encoding.md R75, R77) -/

/-- No register shows memory, the host's program, or its pending writes. -/
theorem readReg_ignores_mem_and_host (s : State) {mem : List Host.Cell} {program : List HostOp}
    {hostWrites : List HostWrite} (r : Reg) : readReg { s with mem := mem, program := program, hostWrites := hostWrites } r = readReg s r := by
  cases r <;> rfl

theorem hostWrite_free {s : State} {r : Region} (mem : List Host.Cell)
    (hnone : ∀ x ∈ s.hazards, x.forbidsWrite r = false) (hn : s.params.notNormal = []) :
    hostWrite r mem s = .next { s with
      mem := mem, hostWrites := { region := r, cleaned := false, fenced := false } :: s.hostWrites } := by
  unfold hostWrite
  rw [if_neg (by simpa using hnone), if_neg (by simp [hostTouchesNotNormal, hn])]

/-- The bytes of an aligned word do not pass 2^32. -/
theorem toNat_add_byte {a : Word} {b : Nat} (ha : a.toNat % 4 = 0) (hb : b < 4) :
    (a + BitVec.ofNat 32 b).toNat = a.toNat + b := by
  rw [BitVec.toNat_add, BitVec.toNat_ofNat]
  omega

/-- With no mark on a buffer and no device, an aligned word write stores the word and is otherwise on the host's side
only. -/
theorem busMemWrite_free {s : State} {a : Word} (v : Word) (ha : a.toNat % 4 = 0) (hz : s.hazards = [])
    (hn : s.params.notNormal = []) :
    ∃ t, busMemWrite a v s = .next t ∧ t.mem = writeWord s.mem a.toNat v ∧ t.hazards = [] ∧ t.params = s.params ∧
      t.active = s.active ∧ ∀ r : Reg, readReg t r = readReg s r :=
  ⟨_, (busMemWrite_aligned ha v s).trans (hostWrite_free _ (by simp [hz]) hn), rfl, hz, rfl, rfl,
    readReg_ignores_mem_and_host s⟩

/-- Settles O19: the write stores the four bytes of the word, and the reads that follow return what is stored. -/
theorem hostWordWriteReadsBack : Obligations.HostWordWriteReadsBack := by
  intro s a v hm ha hz hn
  have top : a.toNat + 4 ≤ 2 ^ 32 := by omega
  obtain ⟨t, hwrite, hmem, hzt, hparams, hactive, hregs⟩ := busMemWrite_free v ha hz hn
  have hnt : t.params.notNormal = [] := hparams ▸ hn
  have read (r : Region) (w : Word) : hostRead r w t = .next (respond w t) :=
    hostRead_free w (by simp [hzt]) (by simp [hzt]) hnt
  refine ⟨t, hwrite, ?_, fun b hb => ?_, fun x hx => ?_, hactive, hregs⟩
  · rw [busMemRead_aligned ha, read, hmem, readWord_writeWord_same top hm]
  · rw [busByteRead, read, hmem, toNat_add_byte ha hb, readByte_writeWord_same top hm hb, byteOf]
  · rw [hmem, readByte_writeWord_other top hm hx]

theorem hostStep_wait {s : State} {rest : List HostOp} (hp : s.program = .wait :: rest) :
    hostStep s = .next (hostWait rest s) := by
  unfold hostStep
  rw [hp]

/-- A turn of WAIT is a read of STATUS, after which the program is past the WAIT exactly if BUSY = 0. -/
theorem hostWait_eq (rest : List HostOp) (s : State) :
    hostWait rest s = hostReadReg .status { s with program := if s.busy = true then s.program else rest } := by
  unfold hostWait
  rw [readReg, statusWord_busy]
  split <;> rfl

/-- Settles O27: the read records STATUS and at most moves the host's marks on buffers. -/
theorem waitRepeatsWhileBusy : Obligations.WaitRepeatsWhileBusy := by
  intro s rest hp
  rw [hostStep_wait hp, hostWait_eq, hp]
  refine ⟨_, rfl, ?_⟩
  rcases hostReadReg_cases .status { s with program := if s.busy = true then .wait :: rest else rest } with h | h <;>
    rw [h]
  · exact ⟨rfl, rfl, fun r => (readReg_respond ..).trans (readReg_ignores_mem_and_host s r), rfl, rfl⟩
  · exact ⟨rfl, rfl, fun r => (readReg_respond ..).trans
      ((readReg_observeCompletion ..).trans (readReg_ignores_mem_and_host s r)), rfl, rfl⟩

end Sys2Proof.Machine

/-! PROOFS. The family 40_construction.md: the twiddle tables, the ROM, and the read ports.

The rule of R104 fixes the word of a real number (`IsTableEntry.unique`). So each table entry is compared with its real
cosine or sine once, and every relation between entries is one between angles. -/

namespace Sys2Proof.Machine

/-! ### Magnitudes as real numbers (00_scope.md R14) -/

/-- The real value of magnitude bits w below infinity. -/
noncomputable def magReal (w : Nat) : ℝ := magValue w / 2 ^ 149

theorem magReal_strictMono : StrictMono magReal := fun _ _ h =>
  div_lt_div_of_pos_right (Nat.cast_lt.mpr (magValue_strictMono h)) (by positivity)

theorem magReal_zero : magReal 0 = 0 := by simp [magReal, magValue, magNum]

theorem magReal_nonneg (w : Nat) : 0 ≤ magReal w := by
  unfold magReal
  positivity

theorem magReal_oneMag : magReal oneMag = 1 := by
  rw [magReal, show oneMag = 126 * 2 ^ 23 + 2 ^ 23 by decide, magValue_quanta (.inr le_rfl) (by decide)]
  norm_num

theorem magExp_add_shift {w : Nat} (hw : w ≤ oneMag) : magExp w + (w / 2 ^ 23 - 1) = 149 := by
  unfold magExp
  unfold oneMag at hw
  split <;> omega

theorem magNum_div_two_pow_magExp {w : Nat} (hw : w ≤ oneMag) : (magNum w : ℝ) / 2 ^ magExp w = magReal w := by
  rw [magReal, magValue, ← magExp_add_shift hw, pow_add]
  push_cast
  field_simp

/-- From one magnitude to the next is one quantum. -/
theorem magValue_succ (w : Nat) : magValue (w + 1) = magValue w + 2 ^ (w / 2 ^ 23 - 1) := by
  obtain ⟨n, hw, hlow, hhigh⟩ :
      ∃ n, w = (w / 2 ^ 23 - 1) * 2 ^ 23 + n ∧ (w / 2 ^ 23 - 1 = 0 ∨ 2 ^ 23 ≤ n) ∧ n < 2 ^ 24 :=
    ⟨w - (w / 2 ^ 23 - 1) * 2 ^ 23, by omega, by omega, by omega⟩
  generalize w / 2 ^ 23 - 1 = t at *
  rw [hw, Nat.add_assoc, magValue_quanta hlow hhigh.le, magValue_quanta (by omega) hhigh, Nat.succ_mul]

/-- The dyadic number that `rtCos` compares with is the middle between w and the next magnitude. -/
theorem midpoint_eq {w : Nat} (hw : w ≤ oneMag) :
    ((2 * magNum w + 1 : Nat) : ℝ) / 2 ^ (magExp w + 1) = (magReal w + magReal (w + 1)) / 2 := by
  have hquantum : magReal (w + 1) = magReal w + 1 / 2 ^ magExp w := by
    rw [magReal, magReal, magValue_succ, ← magExp_add_shift hw, pow_add]
    push_cast
    field_simp
  rw [hquantum, ← magNum_div_two_pow_magExp hw, pow_succ]
  push_cast
  field_simp
  ring

/-! ### The nearest magnitude (40_construction.md R104) -/

/-- No finite magnitude is nearer to y than r is, and r is even if another one is as near. -/
def IsNearestMag (y : ℝ) (r : Nat) : Prop :=
  ∀ v, v < infMag →
    |y - magReal r| ≤ |y - magReal v| ∧ (|y - magReal r| = |y - magReal v| → v ≠ r → r % 2 = 0)

theorem isNearestMag_magReal (r : Nat) : IsNearestMag (magReal r) r := by
  intro v _
  rw [sub_self, abs_zero]
  exact ⟨abs_nonneg _, fun heq hne =>
    absurd (magReal_strictMono.injective (sub_eq_zero.mp (abs_eq_zero.mp heq.symm))).symm hne⟩

/-- Of two neighbours around y, the nearer one, and the even one in the middle, is nearest of all. -/
theorem isNearestMag_of_neighbours {y : ℝ} {w r : Nat} (hlow : magReal w ≤ y) (hhigh : y ≤ magReal (w + 1))
    (hr : (r = w ∧ y ≤ (magReal w + magReal (w + 1)) / 2) ∨ (r = w + 1 ∧ (magReal w + magReal (w + 1)) / 2 ≤ y))
    (htie : y = (magReal w + magReal (w + 1)) / 2 → r % 2 = 0) : IsNearestMag y r := by
  intro v _
  obtain ⟨hnearLow, hnearHigh⟩ : |y - magReal r| ≤ y - magReal w ∧ |y - magReal r| ≤ magReal (w + 1) - y := by
    obtain ⟨rfl, hmid⟩ | ⟨rfl, hmid⟩ := hr
    · rw [abs_of_nonneg (by linarith)]
      constructor <;> linarith
    · rw [abs_of_nonpos (by linarith)]
      constructor <;> linarith
  obtain hv | hv : v ≤ w ∨ w + 1 ≤ v := by omega
  · have hle : magReal v ≤ magReal w := magReal_strictMono.monotone hv
    rw [abs_of_nonneg (by linarith : 0 ≤ y - magReal v)]
    refine ⟨by linarith, fun heq hne => ?_⟩
    have hvw : v = w := magReal_strictMono.injective (by linarith)
    obtain rfl : r = w + 1 := by omega
    rw [abs_of_nonpos (by linarith)] at heq
    exact htie (by rw [hvw] at heq; linarith)
  · have hle : magReal (w + 1) ≤ magReal v := magReal_strictMono.monotone hv
    rw [abs_of_nonpos (by linarith : y - magReal v ≤ 0)]
    refine ⟨by linarith, fun heq hne => ?_⟩
    have hvw : v = w + 1 := magReal_strictMono.injective (by linarith)
    obtain rfl : r = w := by omega
    rw [abs_of_nonneg (by linarith)] at heq
    exact htie (by rw [hvw] at heq; linarith)

/-- Two even magnitudes are not both nearest: the odd one between them would be nearer. -/
theorem IsNearestMag.le {y : ℝ} {r r' : Nat} (h : IsNearestMag y r) (h' : IsNearestMag y r') (hr : r < infMag)
    (hr' : r' < infMag) : r' ≤ r := by
  by_contra! hlt
  have heq : |y - magReal r| = |y - magReal r'| := le_antisymm (h r' hr').1 (h' r hr).1
  have heven := (h r' hr').2 heq (by omega)
  have heven' := (h' r hr).2 heq.symm (by omega)
  have hlow : magReal r < magReal (r + 1) := magReal_strictMono (by omega)
  have hhigh : magReal (r + 1) < magReal r' := magReal_strictMono (by omega)
  have hmid := (h (r + 1) (by omega)).1
  obtain hsame | hsum := abs_eq_abs.mp heq
  · linarith
  · rw [abs_of_nonneg (by linarith : 0 ≤ y - magReal r)] at hmid
    obtain habs | habs := abs_cases (y - magReal (r + 1)) <;> linarith

theorem IsNearestMag.unique {y : ℝ} {r r' : Nat} (h : IsNearestMag y r) (h' : IsNearestMag y r') (hr : r < infMag)
    (hr' : r' < infMag) : r = r' :=
  le_antisymm (h'.le h hr' hr) (h.le h' hr hr')

/-! ### What the rule of R104 says of a word -/

theorem fValue_div (d : Word) :
    (fValue d : ℝ) / 2 ^ 149 = if fSign d = true then -magReal (d.toNat % 2 ^ 31) else magReal (d.toNat % 2 ^ 31) := by
  rw [fValue, fMag_eq, magReal]
  split
  · push_cast
    ring
  · rw [Int.cast_natCast]

/-- Distances between data of x's sign are distances between magnitudes. -/
theorem abs_sub_fValue_same {x : ℝ} {d : Word} (hs : fSign d = decide (x < 0)) :
    |x - (fValue d : ℝ) / 2 ^ 149| = |(|x|) - magReal (d.toNat % 2 ^ 31)| := by
  rw [fValue_div, hs]
  by_cases hx : x < 0
  · rw [if_pos (decide_eq_true hx), abs_of_neg hx, ← abs_neg]
    congr 1
    ring
  · rw [if_neg (by simpa using hx), abs_of_nonneg (not_lt.mp hx)]

theorem abs_sub_fValue_opposite {x : ℝ} {d : Word} (hs : fSign d ≠ decide (x < 0)) :
    |x - (fValue d : ℝ) / 2 ^ 149| = |x| + magReal (d.toNat % 2 ^ 31) := by
  have hnonneg := magReal_nonneg (d.toNat % 2 ^ 31)
  rw [fValue_div]
  by_cases hx : x < 0
  · rw [if_neg (by simpa [hx] using hs), abs_of_neg hx, abs_of_nonpos (by linarith)]
    ring
  · rw [if_pos (by simpa [hx] using hs), abs_of_nonneg (not_lt.mp hx), abs_of_nonneg (by linarith)]
    ring

theorem fValue_eq_iff {v w : Word} (hs : fSign v = fSign w) :
    fValue v = fValue w ↔ v.toNat % 2 ^ 31 = w.toNat % 2 ^ 31 := by
  rw [← magValue_strictMono.injective.eq_iff, fValue, fValue, hs, fMag_eq, fMag_eq]
  split <;> omega

theorem fFrac_parity (d : Word) : fFrac d % 2 = d.toNat % 2 ^ 31 % 2 := by
  rw [fFrac_eq]
  omega

/-- For x ≠ 0 the rule fixes the sign, and the magnitude as the nearest one to |x|. -/
theorem isTableEntry_iff {w : Word} {x : ℝ} (hx : x ≠ 0) :
    IsTableEntry w x ↔
      fSign w = decide (x < 0) ∧ w.toNat % 2 ^ 31 < infMag ∧ IsNearestMag |x| (w.toNat % 2 ^ 31) := by
  have hsign : (fSign w = true ↔ x < 0) ↔ fSign w = decide (x < 0) := by
    by_cases h : x < 0 <;> simp [h]
  constructor
  · rintro ⟨-, h⟩
    obtain ⟨hfin, hs, hnear⟩ := h hx
    rw [hsign] at hs
    refine ⟨hs, (finite_iff w).mp hfin, fun r hr => ?_⟩
    have hr31 : r < 2 ^ 31 := hr.trans (by decide)
    have hmag := fPack_magnitude (decide (x < 0)) hr31
    have hpack := fSign_fPack (decide (x < 0)) hr31
    have hv := hnear (fPack (decide (x < 0)) r) ((finite_iff _).mpr (hmag.symm ▸ hr))
    rwa [abs_sub_fValue_same hs, abs_sub_fValue_same hpack, hmag, fFrac_parity, ne_eq,
      fValue_eq_iff (hpack.trans hs.symm), hmag] at hv
  · rintro ⟨hs, hfin, hnear⟩
    refine ⟨fun h => absurd h hx, fun _ => ⟨(finite_iff w).mpr hfin, hsign.mpr hs, fun v hv => ?_⟩⟩
    rw [finite_iff] at hv
    rw [abs_sub_fValue_same hs, fFrac_parity]
    by_cases hsv : fSign v = decide (x < 0)
    · rw [abs_sub_fValue_same hsv, ne_eq, fValue_eq_iff (hsv.trans hs.symm)]
      exact hnear _ hv
    · rw [abs_sub_fValue_opposite hsv]
      have hzero := hnear 0 (by decide)
      rw [magReal_zero, sub_zero, abs_abs] at hzero
      have hnonneg := magReal_nonneg (v.toNat % 2 ^ 31)
      refine ⟨by linarith, fun heq _ => ?_⟩
      by_cases hw : w.toNat % 2 ^ 31 = 0
      · rw [hw]
      · exact hzero.2 (by linarith) (Ne.symm hw)

theorem word_eq_of_sign_of_magnitude {v w : Word} (hs : fSign v = fSign w)
    (hm : v.toNat % 2 ^ 31 = w.toNat % 2 ^ 31) : v = w := by
  rw [fSign_eq, fSign_eq, decide_eq_decide] at hs
  exact BitVec.eq_of_toNat_eq (by omega)

/-- A real number has one table entry. -/
theorem IsTableEntry.unique {v w : Word} {x : ℝ} (hv : IsTableEntry v x) (hw : IsTableEntry w x) : v = w := by
  by_cases hx : x = 0
  · rw [hv.1 hx, hw.1 hx]
  · obtain ⟨hsv, hfv, hnv⟩ := (isTableEntry_iff hx).mp hv
    obtain ⟨hsw, hfw, hnw⟩ := (isTableEntry_iff hx).mp hw
    exact word_eq_of_sign_of_magnitude (hsv.trans hsw.symm) (hnv.unique hnw hfv hfw)

theorem IsTableEntry.neg {w : Word} {x : ℝ} (h : IsTableEntry w x) (hx : x ≠ 0) : IsTableEntry (fneg w) (-x) := by
  obtain ⟨hs, hfin, hnear⟩ := (isTableEntry_iff hx).mp h
  rw [isTableEntry_iff (neg_ne_zero.mpr hx), fneg_magnitude, abs_neg, fSign_fneg, hs]
  refine ⟨?_, hfin, hnear⟩
  rw [← decide_not, decide_eq_decide, not_lt, neg_lt_zero]
  exact ⟨fun h => lt_of_le_of_ne h hx.symm, le_of_lt⟩

theorem isTableEntry_one : IsTableEntry 0x3F800000 1 := by
  refine (isTableEntry_iff one_ne_zero).mpr ⟨?_, by decide, ?_⟩
  · rw [decide_eq_false (by norm_num)]
    decide
  · rw [abs_one, ← magReal_oneMag]
    exact isNearestMag_magReal oneMag

theorem isTableEntry_neg_one : IsTableEntry 0xBF800000 (-1) := isTableEntry_one.neg one_ne_zero

/-! ### The search for an entry (40_construction.md R104; log entry 16) -/

theorem Says.eq_lt_iff {o : Ordering} {x y : ℝ} (h : Says o x y) : o = .lt ↔ x < y := by
  cases o
  · exact ⟨fun _ => h, fun _ => rfl⟩
  · exact ⟨nofun, fun hlt => absurd h hlt.ne⟩
  · exact ⟨nofun, fun hlt => absurd h hlt.not_gt⟩

theorem Says.swap_neg {o : Ordering} {x y : ℝ} (h : Says o x (-y)) : Says o.swap (-x) y := by
  cases o <;> simp only [Says, Ordering.swap] at h ⊢ <;> linarith

theorem cosCompare_zero_eq_lt_iff (k j : Nat) : cosCompare k j 0 0 = .lt ↔ Real.cos (turn k j) < 0 := by
  simpa using (cosCompare_spec k j 0 0).eq_lt_iff

/-- With the cosine's sign, the comparison of its magnitude is exact. -/
theorem cosMagCompare_spec (k j n p : Nat) :
    Says (cosMagCompare k j (decide (Real.cos (turn k j) < 0)) n p) |Real.cos (turn k j)| ((n : ℝ) / 2 ^ p) := by
  unfold cosMagCompare
  by_cases hneg : Real.cos (turn k j) < 0
  · rw [if_pos (decide_eq_true hneg), abs_of_neg hneg]
    have h := cosCompare_spec k j (-(n : Int)) p
    rw [Int.cast_neg, Int.cast_natCast, neg_div] at h
    exact h.swap_neg
  · rw [if_neg (by simpa using hneg), abs_of_nonneg (not_lt.mp hneg)]
    have h := cosCompare_spec k j n p
    rwa [Int.cast_natCast] at h

/-- w is the largest magnitude of at most 1 that is at most y. -/
structure IsFloorMag (y : ℝ) (w : Nat) : Prop where
  le_oneMag : w ≤ oneMag
  le : magReal w ≤ y
  lt_succ : w < oneMag → y < magReal (w + 1)

section
variable {k j : Nat} {negative : Bool} {y : ℝ}

/-- Each bit halves the range in which the floor lies. -/
theorem cosFloor_isFloorMag (hcmp : ∀ n p : Nat, Says (cosMagCompare k j negative n p) y ((n : ℝ) / 2 ^ p)) {b w : Nat}
    (hone : w ≤ oneMag) (hle : magReal w ≤ y) (hlt : w + 2 ^ b ≤ oneMag → y < magReal (w + 2 ^ b)) :
    IsFloorMag y (cosFloor k j negative b w) := by
  induction b generalizing w with
  | zero => exact ⟨hone, hle, hlt⟩
  | succ b ih =>
    have hbit : w + 2 ^ b ≤ oneMag → (cosMagCompare k j negative (magNum (w + 2 ^ b)) (magExp (w + 2 ^ b)) = .lt ↔
        y < magReal (w + 2 ^ b)) := fun h => by
      rw [← magNum_div_two_pow_magExp h]
      exact (hcmp _ _).eq_lt_iff
    unfold cosFloor
    dsimp only
    split
    · next h =>
      obtain ⟨hone', hnlt⟩ := h
      refine ih hone' (not_lt.mp (mt (hbit hone').mpr hnlt)) fun h => ?_
      rw [Nat.add_assoc, ← Nat.two_mul, ← Nat.pow_succ'] at h ⊢
      exact hlt h
    · next h => exact ih hone hle fun hone' => (hbit hone').mp (not_not.mp fun hne => h ⟨hone', hne⟩)

end

/-- `rtCos` packs the cosine's sign and the magnitude nearest to its absolute value. -/
theorem rtCos_eq_fPack (k j : Nat) :
    ∃ r, r ≤ oneMag ∧ IsNearestMag |Real.cos (turn k j)| r ∧
      rtCos k j = fPack (decide (Real.cos (turn k j) < 0)) r := by
  have hcmp := cosMagCompare_spec k j
  have hfloor := cosFloor_isFloorMag (b := 30) (w := 0) hcmp (Nat.zero_le _) (by simp [magReal_zero]) fun h =>
    absurd h (by decide)
  have hone : |Real.cos (turn k j)| ≤ 1 := Real.abs_cos_le_one _
  unfold rtCos
  simp only [cosCompare_zero_eq_lt_iff]
  generalize |Real.cos (turn k j)| = y at *
  generalize decide (Real.cos (turn k j) < 0) = negative at *
  generalize cosFloor k j negative 30 0 = w at *
  obtain ⟨hw, hle, hlt⟩ := hfloor
  split
  · next h =>
    rw [h, magReal_oneMag] at hle
    rw [le_antisymm hone hle, ← magReal_oneMag, h]
    exact ⟨oneMag, le_rfl, isNearestMag_magReal oneMag, rfl⟩
  · next hne =>
    have hlt := hlt (lt_of_le_of_ne hw hne)
    have hmid := hcmp (2 * magNum w + 1) (magExp w + 1)
    rw [midpoint_eq hw] at hmid
    split <;> rename_i ho <;> simp only [ho, Says] at hmid
    · exact ⟨w, hw, isNearestMag_of_neighbours hle hlt.le (.inl ⟨rfl, hmid.le⟩) fun h => absurd h hmid.ne, rfl⟩
    · have hr : w + w % 2 = w ∨ w + w % 2 = w + 1 := by omega
      exact ⟨w + w % 2, by omega, isNearestMag_of_neighbours hle hlt.le
        (hr.imp (⟨·, hmid.le⟩) (⟨·, hmid.ge⟩)) fun _ => by omega, rfl⟩
    · exact ⟨w + 1, by omega,
        isNearestMag_of_neighbours hle hlt.le (.inr ⟨rfl, hmid.le⟩) fun h => absurd h hmid.ne', rfl⟩

theorem rtCos_isTableEntry (k j : Nat) : IsTableEntry (rtCos k j) (Real.cos (turn k j)) := by
  obtain ⟨r, hr, hnear, heq⟩ := rtCos_eq_fPack k j
  have hr31 : r < 2 ^ 31 := lt_of_le_of_lt hr (by decide)
  rw [heq]
  by_cases hx : Real.cos (turn k j) = 0
  · refine ⟨fun _ => ?_, fun h => absurd hx h⟩
    rw [hx, abs_zero] at hnear
    have hzero := hnear.unique (magReal_zero ▸ isNearestMag_magReal 0) (lt_of_le_of_lt hr (by decide)) (by decide)
    simp [hx, hzero, fPack]
  · rw [isTableEntry_iff hx, fPack_magnitude _ hr31]
    exact ⟨fSign_fPack _ hr31, lt_of_le_of_lt hr (by decide), hnear⟩

/-- A quarter of a turn more (40_construction.md R104). -/
theorem cos_turn_add_quarter (k j : Nat) : Real.cos (turn (k + 2) (4 * j + 2 ^ k)) = Real.sin (-turn k j) := by
  have hturn : turn (k + 2) (4 * j + 2 ^ k) = turn k j + Real.pi / 2 := by
    unfold turn
    push_cast
    field_simp
    ring
  rw [hturn, Real.cos_add_pi_div_two, Real.sin_neg]

theorem rtSin_isTableEntry (k j : Nat) : IsTableEntry (rtSin k j) (Real.sin (-turn k j)) := by
  rw [← cos_turn_add_quarter]
  exact rtCos_isTableEntry _ _

/-- Settles O29: each entry is what `rtCos` or `rtSin` answers for its angle. -/
theorem twiddleTablesAreCorrectlyRounded : Obligations.TwiddleTablesAreCorrectlyRounded := fun _ _ _ _ =>
  ⟨rtCos_isTableEntry _ _, rtSin_isTableEntry _ _, rtCos_isTableEntry _ _, rtSin_isTableEntry _ _⟩

/-! ### Relations between entries (40_construction.md R105, R109) -/

theorem rtCos_eq_of_isTableEntry {k j : Nat} {w : Word} {x : ℝ} (h : IsTableEntry w x)
    (hx : Real.cos (turn k j) = x) : rtCos k j = w :=
  (rtCos_isTableEntry k j).unique (hx ▸ h)

theorem rtSin_eq_of_isTableEntry {k j : Nat} {w : Word} {x : ℝ} (h : IsTableEntry w x)
    (hx : Real.sin (-turn k j) = x) : rtSin k j = w :=
  (rtSin_isTableEntry k j).unique (hx ▸ h)

theorem turn_scale (k d j : Nat) : turn (k + d) (2 ^ d * j) = turn k j := by
  unfold turn
  push_cast
  rw [pow_add]
  field_simp

theorem rtCos_scale (k d j : Nat) : rtCos (k + d) (2 ^ d * j) = rtCos k j :=
  rtCos_eq_of_isTableEntry (rtCos_isTableEntry k j) (by rw [turn_scale])

theorem rtSin_scale (k d j : Nat) : rtSin (k + d) (2 ^ d * j) = rtSin k j :=
  rtSin_eq_of_isTableEntry (rtSin_isTableEntry k j) (by rw [turn_scale])

/-- Settles O30: a strided index of the ROM and the table's own index are the same angle. -/
theorem romStridesServeTheTables : Obligations.RomStridesServeTheTables := by
  refine ⟨fun p j _ => ⟨rtCos_isTableEntry p j, rtSin_isTableEntry p j⟩, fun p nBits i h1 hp hi => ?_⟩
  obtain ⟨l, rfl⟩ := Nat.exists_eq_add_of_le' h1
  obtain ⟨d, rfl⟩ := Nat.exists_eq_add_of_le hp
  rw [Nat.add_sub_cancel] at hi
  have hh : 2 ^ (l + 1 + d) / 2 ^ (l + 1) = 2 ^ d := by
    rw [pow_add, Nat.mul_div_cancel_left _ (by positivity)]
  have h2h : 2 * 2 ^ d = 2 ^ (1 + d) := by rw [pow_add, pow_one]
  dsimp only
  rw [hh, h2h]
  refine ⟨?_, ?_, ?_, (rtCos_scale (l + 1) d i).symm, (rtSin_scale (l + 1) d i).symm⟩
  · rw [Nat.add_assoc, pow_add 2 l, Nat.mul_comm]
    exact Nat.mul_lt_mul_of_pos_right hi (by positivity)
  · rw [romC, Nat.add_assoc, rtCos_scale]
    rfl
  · rw [romS, Nat.add_assoc, rtSin_scale]
    rfl

theorem turn_zero (k : Nat) : turn k 0 = 0 := by simp [turn]

theorem rtCos_zero (k : Nat) : rtCos k 0 = 0x3F800000 :=
  rtCos_eq_of_isTableEntry isTableEntry_one (by rw [turn_zero, Real.cos_zero])

theorem rtSin_zero (k : Nat) : rtSin k 0 = 0 :=
  (rtSin_isTableEntry k 0).1 (by rw [turn_zero, neg_zero, Real.sin_zero])

/-- Mirrored at a quarter of a turn, an index below half of a turn has the supplementary angle. -/
theorem turn_mirror {l i : Nat} (hi : i ≤ 2 ^ l) : turn (l + 1) (2 ^ l - i) = Real.pi - turn (l + 1) i := by
  unfold turn
  rw [Nat.cast_sub hi, pow_succ]
  push_cast
  field_simp

theorem turn_quarter (l : Nat) : turn (l + 2) (2 ^ l) = Real.pi / 2 := by
  unfold turn
  rw [pow_add]
  push_cast
  field_simp

/-- Within half of a turn the cosine is 0 at the quarter alone. -/
theorem cos_turn_ne_zero {l i : Nat} (hi : i < 2 ^ l) (hq : 2 * i ≠ 2 ^ l) : Real.cos (turn (l + 1) i) ≠ 0 := by
  have hpi := Real.pi_pos
  have hle : turn (l + 1) i ≤ Real.pi := by
    have hmirror := turn_mirror hi.le
    have hnonneg : 0 ≤ turn (l + 1) (2 ^ l - i) := by unfold turn; positivity
    linarith
  have hnonneg : 0 ≤ turn (l + 1) i := by unfold turn; positivity
  intro hzero
  have hquarter : turn (l + 1) i = Real.pi / 2 :=
    Real.injOn_cos ⟨hnonneg, hle⟩ ⟨by linarith, by linarith⟩ (hzero.trans Real.cos_pi_div_two.symm)
  refine hq ?_
  unfold turn at hquarter
  rw [pow_succ] at hquarter
  field_simp at hquarter
  exact_mod_cast hquarter

theorem rtCos_mirror {l i : Nat} (hi : i < 2 ^ l) (hq : 2 * i ≠ 2 ^ l) :
    rtCos (l + 1) (2 ^ l - i) = fneg (rtCos (l + 1) i) :=
  rtCos_eq_of_isTableEntry ((rtCos_isTableEntry (l + 1) i).neg (cos_turn_ne_zero hi hq))
    (by rw [turn_mirror hi.le, Real.cos_pi_sub])

theorem rtSin_mirror {l i : Nat} (hi : i ≤ 2 ^ l) : rtSin (l + 1) (2 ^ l - i) = rtSin (l + 1) i :=
  rtSin_eq_of_isTableEntry (rtSin_isTableEntry (l + 1) i)
    (by rw [turn_mirror hi, Real.sin_neg, Real.sin_neg, Real.sin_pi_sub])

theorem rtCos_quarter (l : Nat) : rtCos (l + 2) (2 ^ l) = 0 :=
  (rtCos_isTableEntry (l + 2) (2 ^ l)).1 (by rw [turn_quarter, Real.cos_pi_div_two])

theorem rtSin_quarter (l : Nat) : rtSin (l + 2) (2 ^ l) = 0xBF800000 :=
  rtSin_eq_of_isTableEntry isTableEntry_neg_one (by rw [turn_quarter, Real.sin_neg, Real.sin_pi_div_two])

/-- Settles O31: the doubled index, index 0, the mirrored index and the quarter of a turn. -/
theorem tableIdentities : Obligations.TableIdentities := by
  intro nBits h1
  obtain ⟨l, rfl⟩ := Nat.exists_eq_add_of_le' h1
  dsimp only
  rw [Nat.add_sub_cancel]
  refine ⟨fun i _ => ⟨(rtCos_scale l 1 i).symm, (rtSin_scale l 1 i).symm⟩,
    ⟨rtCos_zero _, rtCos_zero _, rtSin_zero _, rtSin_zero _⟩,
    fun i _ hi hq => ⟨rtCos_mirror hi hq, rtSin_mirror hi.le⟩, fun hm => ?_⟩
  obtain _ | l := l
  · exact absurd hm (by decide)
  · rw [pow_succ, Nat.mul_div_cancel _ (by decide)]
    exact ⟨rtCos_quarter l, rtSin_quarter l⟩

/-! ### The read ports (40_construction.md R107, R108) -/

/-- The table bit TW_IDX[31] and the index TW_IDX[30:0] as numbers. -/
theorem twiddlePort_eq (s : State) :
    twiddlePort s =
      if s.configured = false ∨ s.cfgN.toNat / 2 ≤ s.twIdx.toNat % 2 ^ 31 then (0, 0)
      else if s.twIdx.toNat < 2 ^ 31 then
        (cosF s.cfgNbits.toNat (s.twIdx.toNat % 2 ^ 31), sinF s.cfgNbits.toNat (s.twIdx.toNat % 2 ^ 31))
      else (cosH s.cfgNbits.toNat (s.twIdx.toNat % 2 ^ 31), sinH s.cfgNbits.toNat (s.twIdx.toNat % 2 ^ 31)) := by
  have hidx : (s.twIdx.extractLsb' 0 31).toNat = s.twIdx.toNat % 2 ^ 31 := by
    rw [BitVec.extractLsb'_toNat, Nat.shiftRight_zero]
  have hbit : s.twIdx.getLsbD 31 = false ↔ s.twIdx.toNat < 2 ^ 31 := by
    rw [← fSign, fSign_eq, decide_eq_false_iff_not, not_le]
  unfold twiddlePort
  simp only [hidx, hbit]

/-- Settles O32: a read of any register hands over what the register reads (`registerReadHasNoSideEffect`). -/
theorem readPortsShowTheTables : Obligations.ReadPortsShowTheTables := by
  intro s hb
  have port (r : Reg) (v : Word) (hv : readReg s r = v) :
      ∃ t, busReadReg (s.params.base + r.offset) 4 s = .next t ∧ t.active = s.active ∧ t.mem = s.mem ∧
        (∀ x : Reg, readReg t x = readReg s x) ∧ t.responses = v :: s.responses := by
    obtain ⟨t, hread, hresp, hregs, hactive, hmem, -⟩ := registerReadHasNoSideEffect s r hb
    exact ⟨t, hread, hactive, hmem, hregs, hv ▸ hresp⟩
  refine ⟨port .twCos _ ?_, port .twSin _ ?_, port .brVal _ rfl⟩
  · rw [readReg, twiddlePort_eq, apply_ite Prod.fst, apply_ite Prod.fst]
  · rw [readReg, twiddlePort_eq, apply_ite Prod.snd, apply_ite Prod.snd]

end Sys2Proof.Machine

/-! PROOFS. The family 41_complex_transforms.md: COPY, one stage of butterflies, and the five complex commands.

PERMUTE is `getC_permute` of the family 20_memory.md; a stage is a `Pass` as PERMUTE is one, in place: the butterflies that
have run hold their results, and the elements of the others still hold what they held before the stage. -/

namespace Sys2Proof.Machine

/-! ### The commands complete with their pseudocode (41_complex_transforms.md R116 to R119) -/

/-- Settles O34: a command that may run answers what its body makes of memory, and the body is this sequence. -/
theorem butterflyCommandsCopyThenRunTheStages : Obligations.ButterflyCommandsCopyThenRunTheStages := fun _ _ ha =>
  ⟨exec_of_mayRun nofun ha, exec_of_mayRun nofun ha⟩

/-- Settles O35, as O34 is settled. -/
theorem fftAndIfftPermuteThenRunTheStages : Obligations.FftAndIfftPermuteThenRunTheStages := fun _ _ ha =>
  ⟨exec_of_mayRun nofun ha, exec_of_mayRun nofun ha⟩

/-! ### BITREV (41_complex_transforms.md R111, R115) -/

/-- BITREV's body leaves the source's elements at the reversed indices, in place or not. -/
theorem getC_bitrevBody {g : Geometry} {m : List Host.Cell} {i : Nat} (hg : g.Fits g.n) (hm : memWf m = true)
    (hplace : InPlaceOrDisjoint g.sa g.n g.da g.n) (hi : i < g.m) :
    getC (bitrevBody g m) g.da i = getC m g.sa (revBits g.l i) := by
  have hn := hg.n_eq
  have hpoints := hg.m_eq
  have htop := hg.top
  rw [bitrevBody, hpoints]
  exact getC_permute hm (by omega) (by omega) (by omega)

/-- Settles O33: the checks keep the used regions identical or disjoint, as PERMUTE needs them. -/
theorem bitrevPermutesEveryElement : Obligations.BitrevPermutesEveryElement := by
  intro s a ⟨hm, hp, hc, _, _, _⟩ ha hrun
  obtain ⟨-, -, -, -, hplace⟩ := hrun.1
  exact ⟨_, exec_of_mayRun nofun ha hrun, ⟨rfl, rfl, rfl, rfl, rfl⟩, fun i hi =>
    getC_bitrevBody (checksMet_fits hrun.1 hp hc) hm hplace hi⟩

/-! ### COPY (41_complex_transforms.md R110) -/

@[simp] theorem copyWords_self (a n : Nat) (m : List Host.Cell) : copyWords a a n m = m := if_pos rfl

/-- Settles O36: COPY writes the destination only, which is the source or shares no byte with it. -/
theorem copyMovesWordsBitForBit : Obligations.CopyMovesWordsBitForBit := by
  intro sa da n m hm top hplace
  have hconf : Confined da (da + 4 * n) m (copyWords sa da n m) := (Confined.refl hm).copyWords top le_rfl
  refine ⟨fun k hk => ⟨getW_copyWords hm top hplace hk, ?_⟩, hconf.2, fun h => by rw [h, copyWords_self]⟩
  obtain rfl | hdis := hplace
  · rw [copyWords_self]
  · exact hconf.getW_outside (by omega)

/-! ### One stage (41_complex_transforms.md R113, R114) -/

/-- The two results of a butterfly of STAGES on the elements lo and hi of z, with the F twiddle k. -/
def stageButterfly (nBits : Nat) (inverse : Bool) (z : Nat → Word × Word) (lo hi k : Nat) :
    (Word × Word) × (Word × Word) :=
  butterfly (z lo) (z hi) (cosF nBits k) (if inverse then fneg (sinF nBits k) else sinF nBits k)

theorem butterflyStep_eq (nBits da : Nat) (inverse : Bool) (lo hi k : Nat) (m : List Host.Cell) :
    butterflyStep nBits da inverse lo hi k m =
      setC (setC m da lo (stageButterfly nBits inverse (getC m da) lo hi k).1) da hi
        (stageButterfly nBits inverse (getC m da) lo hi k).2 := rfl

/-- Element e of what stage t + 1 makes of the 2^l elements z: a result of the one butterfly that e belongs to. -/
def stageElement (nBits l t : Nat) (inverse : Bool) (z : Nat → Word × Word) (e : Nat) : Word × Word :=
  let j := e % 2 ^ (t + 1)
  let stride := 2 ^ l / 2 ^ (t + 1)
  if j < 2 ^ t then (stageButterfly nBits inverse z e (e + 2 ^ t) (j * stride)).1
  else (stageButterfly nBits inverse z (e - 2 ^ t) e ((j - 2 ^ t) * stride)).2

theorem half_two_pow_succ (t : Nat) : 2 ^ (t + 1) / 2 = 2 ^ t := by rw [pow_succ, Nat.mul_div_cancel _ two_pos]

/-- The loops of a stage with its sizes as powers of two. -/
theorem stage_eq (nBits l t da : Nat) (inverse : Bool) (m : List Host.Cell) :
    stage nBits (2 ^ l) da inverse (t + 1) m =
      forUpTo (2 ^ l / 2 ^ (t + 1)) (fun block =>
        forUpTo (2 ^ t) fun j =>
          butterflyStep nBits da inverse (block * 2 ^ (t + 1) + j) (block * 2 ^ (t + 1) + j + 2 ^ t)
            (j * (2 ^ l / 2 ^ (t + 1)))) m := by
  simp only [stage, half_two_pow_succ, Nat.shiftRight_eq_div_pow]

section
variable {nBits l t block j : Nat} {inverse : Bool} {z : Nat → Word × Word}

/-- The upper element of a butterfly is one of the 2^l. -/
theorem upper_index_lt (ht : t < l) (hb : block < 2 ^ l / 2 ^ (t + 1)) (hj : j < 2 ^ t) :
    block * 2 ^ (t + 1) + j + 2 ^ t < 2 ^ l := by
  have hindex := stage_index (j := j) ht hb
  rw [half_two_pow_succ] at hindex
  exact hindex hj

theorem stageElement_low (hj : j < 2 ^ t) :
    stageElement nBits l t inverse z (block * 2 ^ (t + 1) + j) =
      (stageButterfly nBits inverse z (block * 2 ^ (t + 1) + j) (block * 2 ^ (t + 1) + j + 2 ^ t)
        (j * (2 ^ l / 2 ^ (t + 1)))).1 := by
  have hmod : (block * 2 ^ (t + 1) + j) % 2 ^ (t + 1) = j := by
    rw [Nat.mul_add_mod', Nat.mod_eq_of_lt (by rw [pow_succ]; omega)]
  simp only [stageElement, hmod, if_pos hj]

theorem stageElement_high (hj : j < 2 ^ t) :
    stageElement nBits l t inverse z (block * 2 ^ (t + 1) + j + 2 ^ t) =
      (stageButterfly nBits inverse z (block * 2 ^ (t + 1) + j) (block * 2 ^ (t + 1) + j + 2 ^ t)
        (j * (2 ^ l / 2 ^ (t + 1)))).2 := by
  have hmod : (block * 2 ^ (t + 1) + j + 2 ^ t) % 2 ^ (t + 1) = j + 2 ^ t := by
    rw [Nat.add_assoc, Nat.mul_add_mod', Nat.mod_eq_of_lt (by rw [pow_succ]; omega)]
  simp only [stageElement, hmod, Nat.add_sub_cancel, if_neg (show ¬j + 2 ^ t < 2 ^ t by omega)]

end

section
variable {points da : Nat} {g f : Nat → Word × Word} {x : List Host.Cell}

/-- A loop whose turn i takes a pass from `done i` to `done (i + 1)` takes it from `done 0` to `done n`. -/
theorem Pass.forUpTo {sa n : Nat} {done : Nat → Nat → Prop} {step : Nat → List Host.Cell → List Host.Cell}
    (h : Pass points sa da g f (done 0) x)
    (hstep : ∀ i, i < n → ∀ y, Pass points sa da g f (done i) y → Pass points sa da g f (done (i + 1)) (step i y)) :
    Pass points sa da g f (done n) (Sys2Proof.forUpTo n step x) := by
  induction n with
  | zero => exact h
  | succ n ih => exact hstep n (by omega) _ (ih fun i hi => hstep i (by omega))

/-- A butterfly on two elements that no butterfly has written works on their old values. -/
theorem Pass.butterflyStep {nBits lo hi k : Nat} {inverse : Bool} {done done' : Nat → Prop}
    (h : Pass points da da g f done x) (top : da + 8 * points ≤ 2 ^ 32) (hlo : lo < hi) (hhi : hi < points)
    (hnlo : ¬done lo) (hnhi : ¬done hi) (hflo : f lo = (stageButterfly nBits inverse g lo hi k).1)
    (hfhi : f hi = (stageButterfly nBits inverse g lo hi k).2)
    (hdone : ∀ e, e < points → (done' e ↔ done e ∨ e = lo ∨ e = hi)) :
    Pass points da da g f done' (butterflyStep nBits da inverse lo hi k x) := by
  have hold : stageButterfly nBits inverse (getC x da) lo hi k = stageButterfly nBits inverse g lo hi k := by
    rw [stageButterfly, h.unread lo (by omega) hnlo, h.unread hi hhi hnhi, stageButterfly]
  rw [butterflyStep_eq, hold]
  exact h.write top (.inl rfl) (by omega) hhi (fun _ => hflo) hfhi hdone

end

/-- The elements that are done after `block` blocks of a stage and j butterflies of the next, whose halves are 2^t. -/
def stageDone (t block j e : Nat) : Prop :=
  e < block * 2 ^ (t + 1) + j ∨
    block * 2 ^ (t + 1) + 2 ^ t ≤ e ∧ e < block * 2 ^ (t + 1) + 2 ^ t + j

/-- A block is done when its 2^t butterflies are. -/
theorem stageDone_half (t block e : Nat) : stageDone t (block + 1) 0 e ↔ stageDone t block (2 ^ t) e := by
  have hsize : (block + 1) * 2 ^ (t + 1) = block * 2 ^ (t + 1) + 2 * 2 ^ t := by rw [Nat.succ_mul, pow_succ']
  unfold stageDone
  omega

section
variable {nBits l t da : Nat} {inverse : Bool} {m : List Host.Cell}

/-- A stage is a pass in place over all 2^l elements. -/
theorem stage_pass (hm : memWf m = true) (top : da + 8 * 2 ^ l ≤ 2 ^ 32) (ht : t < l) :
    Pass (2 ^ l) da da (getC m da) (stageElement nBits l t inverse (getC m da)) (stageDone t (2 ^ l / 2 ^ (t + 1)) 0)
      (stage nBits (2 ^ l) da inverse (t + 1) m) := by
  have hstart : Pass (2 ^ l) da da (getC m da) (stageElement nBits l t inverse (getC m da)) (stageDone t 0 0) m :=
    ⟨hm, fun e _ h => by simp [stageDone] at h; omega, fun _ _ _ => rfl⟩
  rw [stage_eq]
  refine hstart.forUpTo (done := fun block => stageDone t block 0) fun block hb y hy => ?_
  refine (hy.forUpTo (done := stageDone t block) fun j hj w hw => ?_).congr fun e _ => stageDone_half t block e
  have hindex := upper_index_lt ht hb hj
  exact hw.butterflyStep top (by omega) hindex (by unfold stageDone; omega) (by unfold stageDone; omega)
    (stageElement_low hj) (stageElement_high hj) fun e _ => by unfold stageDone; omega

/-- Stage t + 1 leaves `stageElement` of the elements from before it. -/
theorem getC_stage {e : Nat} (hm : memWf m = true) (top : da + 8 * 2 ^ l ≤ 2 ^ 32) (ht : t < l) (he : e < 2 ^ l) :
    getC (stage nBits (2 ^ l) da inverse (t + 1) m) da e = stageElement nBits l t inverse (getC m da) e := by
  refine (stage_pass hm top ht).written e he (.inl ?_)
  rwa [Nat.add_zero, Nat.div_mul_cancel (pow_dvd_pow 2 ht)]

/-- The butterfly of index j in a block leaves its results on the old values of its two elements. -/
theorem getC_stage_butterfly {block j : Nat} (hm : memWf m = true) (top : da + 8 * 2 ^ l ≤ 2 ^ 32) (ht : t < l)
    (hb : block < 2 ^ l / 2 ^ (t + 1)) (hj : j < 2 ^ t) :
    let lo := block * 2 ^ (t + 1) + j
    let out := stageButterfly nBits inverse (getC m da) lo (lo + 2 ^ t) (j * (2 ^ l / 2 ^ (t + 1)))
    getC (stage nBits (2 ^ l) da inverse (t + 1) m) da lo = out.1 ∧
      getC (stage nBits (2 ^ l) da inverse (t + 1) m) da (lo + 2 ^ t) = out.2 := by
  have hindex := upper_index_lt ht hb hj
  exact ⟨(getC_stage hm top ht (by omega)).trans (stageElement_low hj),
    (getC_stage hm top ht hindex).trans (stageElement_high hj)⟩

end

/-- STAGES leaves the last of the memories that its stages make one after the other. -/
theorem stages_eq_of_chain {nBits points da : Nat} {inverse : Bool} {f : Nat → List Host.Cell}
    (hf : ∀ s, s < nBits - 1 → f (s + 1) = stage nBits points da inverse (s + 1) (f s)) :
    stages nBits points da inverse (f 0) = f (nBits - 1) := by
  suffices h : ∀ t, t ≤ nBits - 1 → forUpTo t (fun t m => stage nBits points da inverse (t + 1) m) (f 0) = f t from
    h _ le_rfl
  intro t ht
  induction t with
  | zero => rfl
  | succ t ih => rw [forUpTo, ih (by omega), hf t (by omega)]

/-- Every element is one of the two of a butterfly of stage t + 1. -/
theorem exists_butterfly_of_element {l t e : Nat} (ht : t < l) (he : e < 2 ^ l) :
    ∃ block j, block < 2 ^ l / 2 ^ (t + 1) ∧ j < 2 ^ t ∧
      (e = block * 2 ^ (t + 1) + j ∨ e = block * 2 ^ (t + 1) + j + 2 ^ t) := by
  have hsplit : e / 2 ^ (t + 1) * 2 ^ (t + 1) + e % 2 ^ (t + 1) = e := Nat.div_add_mod' e _
  have hmod : e % 2 ^ (t + 1) < 2 * 2 ^ t := pow_succ' 2 t ▸ Nat.mod_lt e (by positivity)
  have hblock : e / 2 ^ (t + 1) < 2 ^ l / 2 ^ (t + 1) := Nat.div_lt_div_of_lt_of_dvd (pow_dvd_pow 2 ht) he
  by_cases hlow : e % 2 ^ (t + 1) < 2 ^ t
  · exact ⟨_, e % 2 ^ (t + 1), hblock, hlow, .inl hsplit.symm⟩
  · exact ⟨_, e % 2 ^ (t + 1) - 2 ^ t, hblock, by omega, .inr (by omega)⟩

/-- Settles O37: STAGES by induction on the stages, and one stage as a pass in place. -/
theorem stageAppliesEveryButterflyOnce : Obligations.StageAppliesEveryButterflyOnce := by
  refine ⟨fun _ _ _ _ _ f h0 hf => h0 ▸ stages_eq_of_chain hf, fun nBits da s inverse m h1 hs hm top => ?_⟩
  obtain ⟨t, rfl⟩ := Nat.exists_eq_add_of_le' h1
  have hpow := two_pow_pred (b := nBits) (by omega)
  rw [Nat.add_sub_cancel]
  exact ⟨fun block j hb hj => getC_stage_butterfly hm (by omega) hs hb hj, fun e he => exists_butterfly_of_element hs he⟩

/-! ### The smallest transforms (41_complex_transforms.md R112, R118, R122(d)) -/

/-- For L = 0 there is no stage. -/
theorem stages_zero (points da : Nat) (inverse : Bool) (m : List Host.Cell) : stages 1 points da inverse m = m := rfl

/-- For L = 1 there is stage 1 alone. -/
theorem stages_one (points da : Nat) (inverse : Bool) (m : List Host.Cell) :
    stages 2 points da inverse m = stage 2 points da inverse 1 m := rfl

/-- Settles O38: PERMUTE of two elements reverses no index, and stage 1 is one butterfly with the twiddle of index 0. -/
theorem twoPointTransformIsOneButterfly : Obligations.TwoPointTransformIsOneButterfly := by
  intro inverse sa da m hm top hplace
  have hconf : Confined da (da + 4 * 4) m (permute 1 2 sa da m) :=
    (Confined.refl hm).permute (l := 1) (by omega) (by omega)
  have h0 : getC (permute 1 2 sa da m) da 0 = (getW m sa 0, getW m sa 1) :=
    getC_permute (l := 1) hm (by omega) (by omega) two_pos
  have h1 : getC (permute 1 2 sa da m) da 1 = (getW m sa 2, getW m sa 3) :=
    getC_permute (l := 1) hm (by omega) (by omega) one_lt_two
  obtain ⟨-, ⟨hcos, -, hsin, -⟩, -⟩ := tableIdentities 2 (by decide)
  have hneg : fneg 0 = 0x80000000 := by decide
  obtain ⟨hlo, hhi⟩ := getC_stage_butterfly (nBits := 2) (l := 1) (t := 0) (block := 0) (j := 0) (inverse := inverse)
    hconf.1 (by omega) (by decide) (by decide) (by decide)
  simp only [stageButterfly, Nat.zero_mul, Nat.zero_add, pow_zero, pow_one, butterfly, h0, h1, hcos, hsin, hneg]
    at hlo hhi
  simp only [fftBody, Geometry.m, Geometry.l, Nat.reduceDiv, Nat.reduceSub]
  rw [stages_one]
  exact ⟨hlo, hhi⟩

/-- Settles O39: with L = 0 there is no stage, and COPY and PERMUTE leave the one element. -/
theorem onePointTransformsCopyThePair : Obligations.OnePointTransformsCopyThePair := by
  intro i sa da m hi hm top hplace k hk
  have hcopy : getW (copyWords sa da 2 m) da k = getW m sa k := getW_copyWords hm (by omega) hplace hk
  have hpermute : getW (permute 0 1 sa da m) da k = getW m sa k := by
    apply getW_of_getC_eq
    rw [show k / 2 = 0 by omega]
    exact getC_permute (l := 0) hm (by omega) (by omega) one_pos
  cases i
  case fft | ifft | bitrev =>
    simp only [bodyOf, fftBody, bitrevBody, Geometry.m, Geometry.l, Nat.reduceDiv, Nat.reduceSub, stages_zero]
    exact hpermute
  case bflyFwd | bflyInv =>
    simp only [bodyOf, bflyBody, stages_zero]
    exact hcopy
  all_goals exact absurd hi (by decide)

/-! ### FFT is BITREV, then BFLY_FWD in place (41_complex_transforms.md R122(a)) -/

/-- The butterfly command in place on what BITREV left: its COPY does nothing. -/
theorem bflyBody_bitrevBody (inverse : Bool) (g : Geometry) (m : List Host.Cell) :
    bflyBody inverse { g with sa := g.da } (bitrevBody g m) = fftBody inverse g m := by
  simp only [bflyBody, copyWords_self]
  rfl

/-- Where BITREV may run, it may run in place on its destination. -/
theorem State.MayRun.inPlace {s : State} {op : Operands} (h : s.MayRun .bitrev op) :
    s.MayRun .bitrev { op with srcAddr := op.dstAddr, srcLen := op.dstLen } := by
  obtain ⟨⟨hconf, ⟨-, hlen⟩, ⟨-, halign⟩, ⟨-, hwin⟩, -⟩, hnormal⟩ := h
  refine ⟨⟨hconf, ⟨hlen, hlen⟩, ⟨halign, halign⟩, ⟨hwin, hwin⟩, .inl rfl⟩, ?_⟩
  rw [touchesNotNormal, List.any_eq_false] at hnormal ⊢
  intro hole hmem
  have hfree := hnormal hole hmem
  simp only [Bool.or_eq_true, not_or] at hfree ⊢
  exact ⟨hfree.2, hfree.2⟩

/-- Settles O40: the five complex commands have the same checks, BITREV leaves the configuration alone, and the bodies
compose. -/
theorem transformsAreBitrevThenButterflies : Obligations.TransformsAreBitrevThenButterflies := by
  intro s t a _ ha hrun hexec
  have hagain := hrun.inPlace
  have hbodies (inverse : Bool) := bflyBody_bitrevBody inverse (geometryOf s a.op) s.mem
  rw [exec_of_mayRun (by decide) ha hrun] at hexec
  cases hexec
  exact ⟨⟨_, _, exec_of_mayRun (i := .bflyFwd) nofun rfl hagain, exec_of_mayRun (i := .fft) nofun ha hrun, rfl, rfl,
      hbodies false⟩,
    _, _, exec_of_mayRun (i := .bflyInv) nofun rfl hagain, exec_of_mayRun (i := .ifft) nofun ha hrun, rfl, rfl,
      hbodies true⟩

end Sys2Proof.Machine

/-! PROOFS. The family 42_real_transforms.md: COMBINE, SPLIT, and the two real transforms.

SPLIT is `getC_splitSpectrum` of the family 20_memory.md; the loop of COMBINE_INPLACE is a `Pass` in place over every
element but the first, which the boundary makes; compositions are compared as runs on `Twins`. -/

namespace Sys2Proof.Machine

/-! ### Completion without error (42_real_transforms.md R143 to R146; 60_exceptions.md R151) -/

/-- Settles O43: a command that may run answers what its body makes of memory, and the body is this sequence. -/
theorem realTransformsRunTheirPrimitives : Obligations.RealTransformsRunTheirPrimitives := fun _ _ ha =>
  ⟨exec_of_mayRun nofun ha, exec_of_mayRun nofun ha⟩

/-- A command that may run completes and leaves what its body makes of memory. -/
theorem exists_exec_of_mayRun {i : Instr} {s : State} {a : Active} (hi : i ≠ .config) (ha : s.active = some a)
    (hrun : s.MayRun i a.op) :
    ∃ t, exec i s = .next t ∧ s.CompletedFrom t .none ∧ t.mem = bodyOf i (geometryOf s a.op) s.mem :=
  ⟨_, exec_of_mayRun hi ha hrun, ⟨rfl, rfl, rfl, rfl, rfl⟩, rfl⟩

/-- A buffer command that completes without error may run, and leaves what its body makes of memory. -/
theorem mayRun_of_exec_none {i : Instr} {s t : State} {a : Active} (hi : i ≠ .config) (ha : s.active = some a)
    (hx : exec i s = .next t) (he : t.err = .none) :
    s.MayRun i a.op ∧ t.mem = bodyOf i (geometryOf s a.op) s.mem := by
  obtain ⟨b, hb, hcase⟩ := exec_next hx
  cases ha.symm.trans hb
  obtain ⟨e, hne, rfl⟩ | ⟨hconf, -, -⟩ | ⟨-, hrun, rfl⟩ := hcase
  · exact absurd he hne
  · exact absurd hconf hi
  · exact ⟨hrun, rfl⟩

/-! ### What COMBINE_INPLACE leaves (42_real_transforms.md R140) -/

/-- Element e ≠ 0 of what COMBINE_INPLACE makes of the elements z; the middle bin keeps the second result of its turn. -/
def combineElement (nBits points : Nat) (z : Nat → Word × Word) (e : Nat) : Word × Word :=
  if 2 * e < points then (combinePair (z e) (z (points - e)) (cosH nBits e) (sinH nBits e)).1
  else (combinePair (z (points - e)) (z e) (cosH nBits (points - e)) (sinH nBits (points - e))).2

section
variable {nBits points i : Nat} {z : Nat → Word × Word}

theorem combineElement_low (h : 2 * i < points) :
    combineElement nBits points z i = (combinePair (z i) (z (points - i)) (cosH nBits i) (sinH nBits i)).1 := if_pos h

theorem combineElement_mirror (h : 2 * i ≤ points) :
    combineElement nBits points z (points - i) =
      (combinePair (z i) (z (points - i)) (cosH nBits i) (sinH nBits i)).2 := by
  rw [combineElement, if_neg (by omega), Nat.sub_sub_self (by omega)]

theorem combineElement_middle (h : 2 * i = points) :
    combineElement nBits points z i = (combinePair (z i) (z i) (cosH nBits i) (sinH nBits i)).2 := by
  rw [combineElement, if_neg (by omega), show points - i = i by omega]

end

/-- The elements that are done after t turns of the loop of COMBINE_INPLACE. -/
def combineDone (points t e : Nat) : Prop := 0 < e ∧ e ≤ t ∨ points - t ≤ e

section
variable {nBits n da : Nat} {z : Nat → Word × Word} {m : List Host.Cell}

/-- Turn t of COMBINE_INPLACE's loop makes the elements t+1 and M-(t+1), so that the loop makes all but element 0. -/
theorem combineLoop_pass (hm : memWf m = true) (top : da + 8 * (n / 2) ≤ 2 ^ 32)
    (hz : ∀ e, e < n / 2 → getC m da e = z e) :
    Pass (n / 2) da da z (combineElement nBits (n / 2) z) (· ≠ 0)
      (forUpTo (n / 4) (fun t m => combineStep nBits (n / 2) da (t + 1) m) m) := by
  have hstart : Pass (n / 2) da da z (combineElement nBits (n / 2) z) (combineDone (n / 2) 0) m :=
    ⟨hm, fun e he h => by unfold combineDone at h; omega, fun e he _ => hz e he⟩
  refine (hstart.forUpTo fun t ht x hx => ?_).congr fun e he => by unfold combineDone; omega
  rw [combineStep, hx.unread (t + 1) (by omega) (by unfold combineDone; omega),
    hx.unread (n / 2 - (t + 1)) (by omega) (by unfold combineDone; omega)]
  exact hx.write top (.inl rfl) (by omega) (by omega) (fun hne => combineElement_low (by omega))
    (combineElement_mirror (by omega)) fun e he => by unfold combineDone; omega

/-- COMBINE_INPLACE leaves `combineElement` of the elements in every bin between the boundary bins. -/
theorem getC_combineInPlace {e : Nat} (hm : memWf m = true) (top : da + 4 * (n + 2) ≤ 2 ^ 32)
    (hz : ∀ e, e < n / 2 → getC m da e = z e) (h0 : e ≠ 0) (he : e < n / 2) :
    getC (combineInPlace nBits n da m) da e = combineElement nBits (n / 2) z e := by
  have hloop := combineLoop_pass (nBits := nBits) hm (by omega) hz
  rw [← hloop.written e he h0, combineInPlace, getC, getC,
    getW_combineBoundary hloop.wf top, getW_combineBoundary hloop.wf top]
  -- The words of element e are none of the four that the boundary writes.
  repeat rw [if_neg (by omega)]

/-- COMBINE_INPLACE leaves the sum and the difference of element 0 in words 0 and N, and +0 in words 1 and N+1. -/
theorem getW_combineInPlace_boundary (hm : memWf m = true) (top : da + 4 * (n + 2) ≤ 2 ^ 32) (hn : 2 ≤ n)
    (hz : ∀ e, e < n / 2 → getC m da e = z e) :
    getW (combineInPlace nBits n da m) da 0 = fadd (z 0).1 (z 0).2 ∧
      getW (combineInPlace nBits n da m) da n = fsub (z 0).1 (z 0).2 ∧
      getW (combineInPlace nBits n da m) da 1 = 0x00000000 ∧
      getW (combineInPlace nBits n da m) da (n + 1) = 0x00000000 := by
  have hloop := combineLoop_pass (nBits := nBits) hm (by omega) hz
  rw [← hloop.unread 0 (by omega) (not_not.mpr rfl), combineInPlace]
  refine ⟨?_, ?_, ?_, ?_⟩ <;> rw [getW_combineBoundary hloop.wf top]
  · rw [if_neg (by omega), if_neg (by omega), if_pos rfl]
    rfl
  · rw [if_neg (by omega), if_neg (by omega), if_neg (by omega), if_pos rfl]
    rfl
  · rw [if_neg (by omega), if_pos rfl]
  · rw [if_pos rfl]

end

/-! ### COMBINE and SPLIT (42_real_transforms.md R143, R144) -/

/-- COPY leaves the elements of the source in the destination. -/
theorem getC_copyWords {sa da n e : Nat} {m : List Host.Cell} (hm : memWf m = true) (top : da + 4 * n ≤ 2 ^ 32)
    (hplace : InPlaceOrDisjoint sa n da n) (he : e < n / 2) : getC (copyWords sa da n m) da e = getC m sa e := by
  rw [getC, getW_copyWords hm top hplace (by omega), getW_copyWords hm top hplace (by omega), getC]

theorem splitElement_middle {nBits n i : Nat} {w : Nat → Word} (h0 : i ≠ 0) (h : 2 * i = n / 2) :
    splitElement nBits n w i = (splitPair (elementOf w i) (elementOf w i) (cosH nBits i) (sinH nBits i)).2 := by
  rw [splitElement, if_neg h0, if_neg (by omega), show n / 2 - i = i by omega]

section
variable {g : Geometry} {m : List Host.Cell}

/-- N = 2 has the boundary alone; any other N has a middle element. -/
theorem Geometry.Fits.size_cases {du : Nat} (hg : g.Fits du) : g.n = 2 ∨ g.n % 4 = 0 :=
  hg.size ▸ two_pow_eq_two_or_mod_four hg.one_le

theorem Geometry.Fits.two_le {du : Nat} (hg : g.Fits du) : 2 ≤ g.n := by
  have hpos : 0 < 2 ^ (g.nBits - 1) := by positivity
  rw [hg.size, two_pow_pred hg.one_le]
  omega

section
variable (hg : g.Fits (g.n + 2)) (hm : memWf m = true) (hplace : InPlaceOrDisjoint g.sa g.n g.da (g.n + 2))
include hg hm hplace

/-- COMBINE starts COMBINE_INPLACE on a canonical copy of the source's elements. -/
theorem combineBody_copies :
    memWf (copyWords g.sa g.da g.n m) = true ∧
      ∀ e, e < g.n / 2 → getC (copyWords g.sa g.da g.n m) g.da e = getC m g.sa e := by
  have htop := hg.top
  exact ⟨((Confined.refl hm).copyWords htop (by omega)).1, fun e he => getC_copyWords hm (by omega) (by omega) he⟩

/-- COMBINE's body leaves `combineElement` of the source's elements in every bin between the boundary bins. -/
theorem getC_combineBody {e : Nat} (h0 : e ≠ 0) (he : e < g.m) :
    getC (combineBody g m) g.da e = combineElement g.nBits g.m (getC m g.sa) e := by
  obtain ⟨hwf, hcopy⟩ := combineBody_copies hg hm hplace
  exact getC_combineInPlace hwf hg.top hcopy h0 he

/-- COMBINE's body makes the boundary bins of the source's element 0. -/
theorem getW_combineBody_boundary :
    getW (combineBody g m) g.da 0 = fadd (getC m g.sa 0).1 (getC m g.sa 0).2 ∧
      getW (combineBody g m) g.da g.n = fsub (getC m g.sa 0).1 (getC m g.sa 0).2 ∧
      getW (combineBody g m) g.da 1 = 0x00000000 ∧ getW (combineBody g m) g.da (g.n + 1) = 0x00000000 := by
  obtain ⟨hwf, hcopy⟩ := combineBody_copies hg hm hplace
  exact getW_combineInPlace_boundary hwf hg.top hg.two_le hcopy

end

/-- SPLIT's body leaves `splitElement` of the source's words, whose last two it may read. -/
theorem getC_splitBody {e : Nat} (hg : g.Fits g.n) (hm : memWf m = true)
    (hplace : InPlaceOrDisjoint g.sa (g.n + 2) g.da g.n) (he : e < g.m) :
    getC (splitBody g m) g.da e = splitElement g.nBits g.n (getW m g.sa) e :=
  getC_splitSpectrum hm hg.top (by omega) hg.size_cases he

end

/-- Settles O41: `getC_combineBody` at each bin of a pair and at the middle bin, and the boundary. -/
theorem combineGivesTheRealSpectrum : Obligations.CombineGivesTheRealSpectrum := by
  intro s a ⟨hm, hp, hc, _, _, _⟩ ha hrun n points z
  obtain ⟨-, -, -, -, hplace⟩ := hrun.1
  have hg := checksMet_fits hrun.1 hp hc
  have hsize : n = 2 ∨ n % 4 = 0 := hg.size_cases
  obtain ⟨t, hexec, hdone, (hmem : t.mem = combineBody _ _)⟩ := exists_exec_of_mayRun (i := .combine) nofun ha hrun
  have hbin : ∀ e, e ≠ 0 → e < points →
      getC t.mem a.op.dstAddr.toNat e = combineElement s.cfgNbits.toNat points z e :=
    fun _ h0 he => by rw [hmem]; exact getC_combineBody hg hm hplace h0 he
  refine ⟨t, hexec, hdone, fun i h1 hi => ⟨?_, ?_⟩, fun h2 => ?_, ?_⟩
  · exact (hbin _ (by omega) (by omega)).trans (combineElement_low hi)
  · exact (hbin _ (by omega) (by omega)).trans (combineElement_mirror hi.le)
  · exact (hbin _ (by omega) (by omega)).trans (combineElement_middle (by omega))
  · rw [hmem]
    exact getW_combineBody_boundary hg hm hplace

/-- Settles O42: `getC_splitBody` at each element of a pair, at the middle element and at element 0. -/
theorem splitGivesTheFoldedSpectrum : Obligations.SplitGivesTheFoldedSpectrum := by
  intro s a ⟨hm, hp, hc, _, _, _⟩ ha hrun n points x w
  obtain ⟨-, -, -, -, hplace⟩ := hrun.1
  have hg := checksMet_fits hrun.1 hp hc
  have hsize : n = 2 ∨ n % 4 = 0 := hg.size_cases
  have htwo : 2 ≤ n := hg.two_le
  obtain ⟨t, hexec, hdone, (hmem : t.mem = splitBody _ _)⟩ := exists_exec_of_mayRun (i := .split) nofun ha hrun
  have helement : ∀ e, e < points → getC t.mem a.op.dstAddr.toNat e = splitElement s.cfgNbits.toNat n w e :=
    fun _ he => by rw [hmem]; exact getC_splitBody hg hm hplace he
  refine ⟨t, hexec, hdone, fun i h1 hi => ⟨?_, ?_⟩, fun h2 => ?_, helement 0 (by omega)⟩
  · exact (helement _ (by omega)).trans (splitElement_low (by omega) hi)
  · exact (helement _ (by omega)).trans (splitElement_mirror (by omega) hi.le)
  · exact (helement _ (by omega)).trans (splitElement_middle (by omega) (by omega))

/-! ### FFT_REAL and IFFT_REAL (42_real_transforms.md R145, R146, R149) -/

/-- A run onto the buffer `base` itself, and one from a buffer with the same words to `da`. -/
theorem Twins.move {n base base' da : Nat} {m m' : List Host.Cell} (h : Twins n base base' m m')
    (top : da + 4 * n ≤ 2 ^ 32) (hplace : InPlaceOrDisjoint base' n da n) : TwoRuns n base base base' da m m' :=
  ⟨h.wf, h.wf', h.top, top, .inl rfl, hplace⟩

/-- Settles O44: the composition makes the same words as the one command, and its move from the buffer between to the
last one keeps them. -/
theorem realTransformsAreCompositions : Obligations.RealTransformsAreCompositions := by
  intro b n sa mid da out m hb hn hm topMid topDa topOut placeMid placeDa placeOut first second whole
  have hpow : n = 2 * 2 ^ (b - 1) := hn.trans (two_pow_pred hb)
  have hhalf : n / 2 = 2 ^ (b - 1) := by omega
  have hpos : 0 < 2 ^ (b - 1) := by positivity
  have runs : TwoRuns n sa out sa mid m m := ⟨hm, hm, by omega, by omega, by omega, by omega⟩
  simp only [fftRealBody, combineBody, fftBody, ifftRealBody, splitBody, Geometry.m, Geometry.l, first, second, whole,
    hhalf]
  constructor
  · have hfft := (runs.permute hpow fun _ _ => rfl).stages (nBits := b) (inverse := false) hpow.ge
    have hmoved := (hfft.move (da := da) (by omega) (by omega)).copyWords hfft.words
    rw [copyWords_self] at hmoved
    exact (hmoved.combineInPlace (by omega) topOut topDa).words
  · have hsplit := runs.splitSpectrum (nBits := b) (by omega) (hn ▸ two_pow_eq_two_or_mod_four hb) fun _ _ _ => rfl
    have hmoved := (hsplit.move (da := da) (by omega) (by omega)).permute hpow hsplit.words
    exact (hmoved.stages hpow.ge).words

/-- FFT_REAL works as FFT, and then combines in place. -/
theorem fftRealBody_eq (g : Geometry) (m : List Host.Cell) :
    fftRealBody g m = combineInPlace g.nBits g.n g.da (fftBody false g m) := rfl

section
variable {g : Geometry} {m : List Host.Cell}

/-- FFT_REAL makes the boundary bins of element 0 of what FFT leaves. -/
theorem getW_fftRealBody_boundary (hg : g.Fits (g.n + 2)) (hm : memWf m = true) :
    getW (fftRealBody g m) g.da 0 = fadd (getW (fftBody false g m) g.da 0) (getW (fftBody false g m) g.da 1) ∧
      getW (fftRealBody g m) g.da g.n = fsub (getW (fftBody false g m) g.da 0) (getW (fftBody false g m) g.da 1) ∧
      getW (fftRealBody g m) g.da 1 = 0x00000000 ∧ getW (fftRealBody g m) g.da (g.n + 1) = 0x00000000 := by
  have hfft := fftBody_confined (inverse := false) (hg.mono (by omega)) hm
  rw [fftRealBody_eq]
  exact getW_combineInPlace_boundary (z := getC (fftBody false g m) g.da) hfft.1 hg.top hg.two_le fun _ _ => rfl

/-- For N = 2 FFT leaves the two words of the source. -/
theorem getW_fftBody_two {du k : Nat} (hg : g.Fits du) (hdu : g.n ≤ du) (hn : g.n = 2) (hm : memWf m = true)
    (hplace : InPlaceOrDisjoint g.sa g.n g.da du) (hk : k < 2) : getW (fftBody false g m) g.da k = getW m g.sa k := by
  obtain ⟨sa, da, n, b⟩ := g
  obtain ⟨-, hsize, htop⟩ := hg
  dsimp only at *
  subst hn
  obtain rfl : b = 1 := Nat.pow_right_injective le_rfl hsize.symm
  exact onePointTransformsCopyThePair .fft sa da m (by decide) hm (by omega) (by omega) k hk

end

/-- Settles O45: the boundary writes the zeros whatever FFT left in element 0; for N = 2 FFT left the source's words
there. -/
theorem realTransformForcesItsZeros : Obligations.RealTransformForcesItsZeros := by
  intro s t a ⟨hm, hp, hc, _, _, _⟩ ha hx he
  obtain ⟨hrun, (hmem : t.mem = fftRealBody _ _)⟩ := mayRun_of_exec_none (i := .fftReal) nofun ha hx he
  obtain ⟨-, -, -, -, hplace⟩ := hrun.1
  have hg := checksMet_fits hrun.1 hp hc
  obtain ⟨hsum, hdiff, hone, hlast⟩ := getW_fftRealBody_boundary hg hm
  rw [hmem]
  refine ⟨hone, hlast, fun htwo => ?_⟩
  have hn : (geometryOf s a.op).n = 2 := by rw [geometryOf, htwo]; rfl
  have hword (k : Nat) (hk : k < 2) := getW_fftBody_two hg (Nat.le_add_right _ 2) hn hm hplace hk
  rw [hword 0 two_pos, hword 1 one_lt_two] at hsum hdiff
  exact ⟨hsum, hn ▸ hdiff⟩

end Sys2Proof.Machine

/-! PROOFS. The family 60_exceptions.md: what an active command answers, acceptance, illegal words, OVERRUN, the interrupt, and
the engine's step. -/

namespace Sys2Proof.Machine

/-! ### What an active command answers (60_exceptions.md R151, R152, R154, R161, R162) -/

/-- The answer of a command to its active record, test by test: CONFIG looks at op[SIZE] alone, a buffer command at its
checks and then at the kind of memory its used regions are. -/
theorem exec_of_active {s : State} {a : Active} (i : Instr) (ha : s.active = some a) :
    exec i s =
      if i = .config then
        if sizeIllegal s a.op.size.toNat = true then .next (complete .constructionError s)
        else .next (complete .none (configure a.op.size s))
      else if bufferCheck s i a.op ≠ .none then .next (complete (bufferCheck s i a.op) s)
      else if touchesNotNormal s i a.op = true then .fault .engineBusError
      else .next (complete .none { s with mem := bodyOf i (geometryOf s a.op) s.mem }) := by
  by_cases hi : i = .config
  · rw [if_pos hi, hi, execConfig_of_active ha]
  · rw [if_neg hi, exec_eq_runBuffer hi, runBuffer_of_active ha]

/-- A command that ends with an error has set ERR and done nothing beside the completion. -/
theorem exists_complete_of_exec_error {i : Instr} {s t : State} (h : exec i s = .next t) (he : t.err ≠ .none) :
    ∃ e, t = complete e s := by
  obtain ⟨_, -, ⟨e, -, rfl⟩ | ⟨-, -, rfl⟩ | ⟨-, -, rfl⟩⟩ := exec_next h
  · exact ⟨e, rfl⟩
  · exact absurd rfl he
  · exact absurd rfl he

/-- Settles O28: the size test passes the powers of two in range, and CFG_NBITS is then the exponent, since the
configuration it leaves is a legal one. -/
theorem configAcceptsExactlyThePowersOfTwo : Obligations.ConfigAcceptsExactlyThePowersOfTwo := by
  intro s a ha hp
  have hexec := exec_of_active .config ha
  rw [if_pos rfl] at hexec
  refine ⟨fun k hk hmax hsize => ?_, fun hnone => ?_⟩
  · have hlegal := sizeIllegal_eq_false_iff.mpr ⟨k, hk, hmax, hsize⟩
    obtain ⟨-, -, hpow⟩ := configure_configOk hp hlegal
    rw [if_neg (Bool.eq_false_iff.mp hlegal)] at hexec
    obtain ⟨hdone, hregs, hside⟩ := exec_frame hexec
    exact ⟨_, hexec, hdone, rfl, rfl, Nat.pow_right_injective le_rfl (hpow.symm.trans hsize), rfl, hregs, hside⟩
  · have hillegal := (Bool.not_eq_false _).mp (mt sizeIllegal_eq_false_iff.mp hnone)
    rw [if_pos hillegal] at hexec
    obtain ⟨hdone, hregs, hside⟩ := exec_frame hexec
    exact ⟨_, hexec, hdone, ⟨rfl, rfl, rfl⟩, rfl, hregs, hside⟩

/-- Settles O49: no test of the command and no effect of it reads an operand register. -/
theorem activeCommandIgnoresTheOperandRegisters : Obligations.ActiveCommandIgnoresTheOperandRegisters := by
  intro i s t size srcAddr srcLen dstAddr dstLen h
  obtain ⟨a, ha, -⟩ := exec_next h
  rw [exec_of_active i ha] at h
  rw [exec_of_active i (s := { s with
    size := size, srcAddr := srcAddr, srcLen := srcLen, dstAddr := dstAddr, dstLen := dstLen }) ha]
  split at h
  · next hi =>
    rw [if_pos hi]
    split at h
    · next hs => cases h; exact if_pos hs
    · next hs => cases h; exact if_neg hs
  · next hi =>
    rw [if_neg hi]
    split at h
    · next hc => cases h; exact if_pos hc
    · next hc =>
      split at h
      · cases h
      · next hn => cases h; exact (if_neg hc).trans (if_neg hn)

/-- Settles O50: beside STATUS no register shows what a completion changes. -/
theorem errorsChangeOnlyStatus : Obligations.ErrorsChangeOnlyStatus := by
  intro i s t h he
  obtain ⟨⟨-, hbusy, hdone, hactive, hover⟩, hregs, hside⟩ := exec_frame h
  obtain ⟨e, rfl⟩ := exists_complete_of_exec_error h he
  exact ⟨hbusy, hdone, hactive, rfl, ⟨rfl, rfl, rfl⟩, hregs, hside, hover, fun _ hr => readReg_of_ne_status s hr⟩

/-- Settles O52: of the five answers of a command one is a fault, that of a buffer command whose checks pass outside
normal memory. -/
theorem commandsStopOnlyOutsideNormalMemory : Obligations.CommandsStopOnlyOutsideNormalMemory := by
  intro i s a ha
  rw [exec_of_active i ha, ← bufferCheck_none]
  split
  · next hi => split <;> simp [hi]
  · next hi =>
    split
    · next hc => simp [hc]
    · next hc =>
      split
      · next hn => simp [hi, not_not.mp hc, hn, eq_comm]
      · next hn => simp [hn]

/-- Where all memory is normal an active command answers a next state. -/
theorem exists_exec_of_normal {s : State} {a : Active} (i : Instr) (ha : s.active = some a)
    (hn : s.params.notNormal = []) : ∃ t, exec i s = .next t := by
  obtain ⟨hfault, hrefused⟩ := commandsStopOnlyOutsideNormalMemory i s a ha
  cases hx : exec i s with
  | next t => exact ⟨t, rfl⟩
  | fault f =>
    obtain ⟨-, -, -, hmeets⟩ := (hfault f).mp hx
    simp [touchesNotNormal, hn] at hmeets
  | refused r => exact absurd hx (hrefused r)

/-! ### The engine's step (60_exceptions.md R151, R157) -/

section
variable {s : State} {a : Active}

theorem engineStep_of_ok {i : Instr} (hb : s.busy = true) (ha : s.active = some a) (hd : decode a.word = .ok i) :
    engineStep s = exec i s := by
  unfold engineStep
  rw [if_neg (by simp [hb]), ha]
  dsimp only
  rw [hd]

theorem engineStep_of_error {r : Reject} (hb : s.busy = true) (ha : s.active = some a)
    (hd : decode a.word = .error r) : engineStep s = .next (completeIllegal s) := by
  unfold engineStep
  rw [if_neg (by simp [hb]), ha]
  dsimp only
  rw [hd]

end

/-- When the schedule is used up a busy engine moves first (log entry 1). -/
theorem step_of_busy {s : State} (hs : s.schedule = []) (hb : s.busy = true) : step s = engineStep s := by
  unfold step
  rw [hs]
  exact if_pos hb

theorem step_of_engine_turn {s : State} {rest : List Turn} (hs : s.schedule = .engine :: rest) :
    step s = engineStep { s with schedule := rest } := by
  unfold step
  rw [hs]

/-- Settles O54: `withFetchWord` leaves a busy machine with the encoded word active and no turn scheduled. -/
theorem stepRunsTheDecodedCommand : Obligations.StepRunsTheDecodedCommand := by
  refine ⟨fun s a i hb ha hd => ⟨fun hs => ?_, fun rest hs => ?_⟩, fun s i => ?_⟩
  · rw [step_of_busy hs hb, engineStep_of_ok hb ha hd]
  · rw [step_of_engine_turn hs]
    exact engineStep_of_ok (s := { s with schedule := rest }) hb ha hd
  · have hword : BitVec.ofNat 32 ((encode i).toNat % 2 ^ 32) = encode i := by
      rw [Nat.mod_eq_of_lt (encode i).isLt, BitVec.ofNat_toNat, BitVec.setWidth_eq]
    rw [State.withFetchWord, hword, step_of_busy rfl rfl]
    exact engineStep_of_ok rfl rfl (decode_encode i)

/-- Settles O48: an illegal word always completes, and a legal one answers a next state, in which it has completed. -/
theorem activeCommandCompletes : Obligations.ActiveCommandCompletes := by
  intro s ⟨_, _, _, ⟨hactive, _⟩, _, _⟩ hb hn
  obtain ⟨a, ha⟩ := Option.isSome_iff_exists.mp (hactive.symm.trans hb)
  cases hd : decode a.word with
  | ok i =>
    obtain ⟨t, hx⟩ := exists_exec_of_normal i ha hn
    obtain ⟨⟨-, hbusy, hdone, hnone, -⟩, -, -⟩ := exec_frame hx
    have he := (engineStep_of_ok hb ha hd).trans hx
    exact ⟨t, he, hbusy, hdone, hnone, fun hs => (step_of_busy hs hb).trans he⟩
  | error r =>
    have he := engineStep_of_error hb ha hd
    exact ⟨_, he, rfl, rfl, rfl, fun hs => (step_of_busy hs hb).trans he⟩

/-! ### Acceptance (60_exceptions.md R150, R157, R163) -/

theorem submit_of_busy {s : State} (w : Word) (hb : s.busy = true) : submit w s = .next { s with overrun := true } := by
  unfold submit
  rw [if_pos hb]

theorem submit_of_idle {s : State} {w : Word} (hb : s.busy = false) (ho : orderingOwed s w = false) :
    submit w s = .next (accept w s) := by
  unfold submit
  rw [if_neg (by simp [hb]), if_neg (by simp [ho])]

/-- An illegal word has no used regions, so that the host owes it no ordering. -/
theorem orderingOwed_of_decode_error {s : State} {w : Word} {r : Reject} (hd : decode w = .error r) :
    orderingOwed s w = false := by
  simp [orderingOwed, commandRegions, hd]

/-- Settles O26: an illegal word is rejected by the decoder, whatever the state. -/
theorem illegalWordsAreAcceptedAndCompleteWithCodeThree :
    Obligations.IllegalWordsAreAcceptedAndCompleteWithCodeThree := by
  intro w hw
  obtain ⟨_, hrejects⟩ := eachCommandHasExactlyOneWord
  obtain ⟨r, hd⟩ := (hrejects w).mpr hw
  refine ⟨fun s hb => submit_of_idle hb (orderingOwed_of_decode_error hd), fun s a hb ha haw => ?_⟩
  exact ⟨_, engineStep_of_error hb ha (haw ▸ hd), ⟨rfl, rfl, rfl, rfl, rfl⟩, rfl, ⟨rfl, rfl, rfl⟩,
    rfl, rfl, rfl, rfl, rfl, rfl, rfl, rfl⟩

/-- Settles O46: the write of CMD is a submission, which BUSY decides. -/
theorem acceptedCommandSnapshotsTheOperands : Obligations.AcceptedCommandSnapshotsTheOperands := by
  intro s rest w hbase hp
  rw [hostStep_wr hbase hp]
  refine ⟨submit_of_busy (s := { s with program := rest }) w, fun hb ho => ?_⟩
  exact ⟨_, submit_of_idle (s := { s with program := rest }) hb ho, rfl, rfl, rfl, rfl, rfl, rfl, ⟨rfl, rfl, rfl⟩,
    ⟨rfl, rfl, rfl, rfl, rfl, rfl, rfl, rfl⟩, rfl⟩

/-! ### OVERRUN (60_exceptions.md R163) -/

theorem eq_offset_of_regAt {off : Nat} {r : Reg} (h : regAt off = some r) : off = r.offset := by
  unfold regAt at h
  split at h <;> cases h <;> rfl

/-- A register write leaves OVERRUN set, unless it is one to STATUS with bit 3 set. -/
theorem writeReg_overrun {r : Reg} {v : Word} {s t : State} (h : writeReg r v s = .next t) (ho : s.overrun = true) :
    t.overrun = true ∨ r = .status ∧ t = writeStatus v s ∧ v.getLsbD 3 = true := by
  cases r
  case cmd =>
    obtain ⟨-, rfl⟩ | ⟨-, -, rfl⟩ := submit_next h
    · exact .inl rfl
    · exact .inl ho
  case status =>
    cases h
    cases hv : v.getLsbD 3
    · exact .inl (by rw [writeStatus_overrun, ho, hv]; rfl)
    · exact .inr ⟨rfl, rfl, rfl⟩
  all_goals
    cases h
    exact .inl ho

theorem hostReadReg_overrun (r : Reg) (s : State) : (hostReadReg r s).overrun = s.overrun := by
  rcases hostReadReg_cases r s with h | h <;> rw [h] <;> rfl

theorem busReadReg_overrun {addr width : Nat} {s t : State} (h : busReadReg addr width s = .next t) :
    t.overrun = s.overrun := by
  obtain ⟨-, -, -, ⟨-, rfl⟩ | ⟨r, -, rfl⟩⟩ := busReadReg_next h
  · rfl
  · exact hostReadReg_overrun r s

theorem hostRead_overrun {r : Region} {v : Word} {s t : State} (h : hostRead r v s = .next t) :
    t.overrun = s.overrun := by
  obtain ⟨-, -, -, rfl⟩ := hostRead_next h
  rfl

theorem busMemRead_overrun {a : Word} {s t : State} (h : busMemRead a s = .next t) : t.overrun = s.overrun := by
  unfold busMemRead at h
  split at h
  · cases h
  · exact hostRead_overrun h

theorem hostWrite_overrun {r : Region} {mem : List Host.Cell} {s t : State} (h : hostWrite r mem s = .next t) :
    t.overrun = s.overrun := by
  obtain ⟨-, -, rfl⟩ := hostWrite_next h
  rfl

theorem hostTakeIrq_overrun (rest : List HostOp) (s : State) : (hostTakeIrq rest s).overrun = s.overrun := by
  unfold hostTakeIrq
  split <;> rfl

/-- A step of the host leaves OVERRUN set, unless it is the write to STATUS that clears it. -/
theorem hostStep_overrun {s t : State} (h : hostStep s = .next t) (ho : s.overrun = true) :
    t.overrun = true ∨ ∃ v rest, s.program = wr s.params .status v :: rest ∧ t.program = rest ∧ v.getLsbD 3 = true := by
  obtain ⟨-, rfl⟩ | ⟨op, rest, hp, hop⟩ := hostStep_next h
  · exact .inl ho
  obtain ⟨addr, width, v, rfl, hw⟩ | ⟨_, _, -, hr⟩ | ⟨_, _, -, hw⟩ | ⟨_, -, hr⟩ | ⟨_, _, -, hw⟩ | ⟨_, -, hr⟩ | ⟨-, rfl⟩ |
    ⟨-, rfl⟩ | ⟨-, rfl⟩ | ⟨-, rfl⟩ | ⟨-, rfl⟩ := hop
  · obtain ⟨hblock, rfl, -, ⟨-, rfl⟩ | ⟨r, hat, hr⟩⟩ := busWriteReg_next hw
    · exact .inl ho
    · refine (writeReg_overrun hr ho).imp_right ?_
      rintro ⟨rfl, rfl, hv⟩
      have hoff := eq_offset_of_regAt hat
      have hlow := (inBlock_iff.mp hblock).1
      dsimp only at hoff hlow
      refine ⟨v, rest, ?_, rfl, hv⟩
      rw [hp, wr, ← hoff, Nat.add_sub_cancel' hlow]
  · exact .inl ((busReadReg_overrun hr).trans ho)
  · exact .inl ((hostWrite_overrun (busMemWrite_next hw).2).trans ho)
  · exact .inl ((busMemRead_overrun hr).trans ho)
  · exact .inl ((hostWrite_overrun hw).trans ho)
  · exact .inl ((hostRead_overrun hr).trans ho)
  · exact .inl ho
  · exact .inl ho
  · exact .inl ho
  · rw [hostWait_eq, hostReadReg_overrun]
    exact .inl ho
  · exact .inl ((hostTakeIrq_overrun rest s).trans ho)

/-- The engine never touches OVERRUN. -/
theorem engineStep_overrun {s t : State} (h : engineStep s = .next t) : t.overrun = s.overrun := by
  obtain ⟨-, rfl⟩ | ⟨_, -, -, ⟨_, -, hx⟩ | ⟨-, -, rfl⟩⟩ := engineStep_next h
  · rfl
  · obtain ⟨⟨-, -, -, -, hover⟩, -, -⟩ := exec_frame hx
    exact hover
  · rfl

/-- Settles O47; the clause over every step goes by who moves. -/
theorem cmdWriteWhileBusyOnlySetsOverrun : Obligations.CmdWriteWhileBusyOnlySetsOverrun := by
  refine ⟨fun s rest w hbase hp => (acceptedCommandSnapshotsTheOperands s rest w hbase hp).1, fun s t h ho => ?_,
    fun s t i hx => ?_, fun _ => rfl⟩
  · obtain ⟨-, -, he⟩ | ⟨-, -, hh⟩ | ⟨rest, ⟨-, hh⟩ | ⟨-, he⟩ | ⟨hr, -⟩⟩ := step_next h
    · exact .inl ((engineStep_overrun he).trans ho)
    · exact (hostStep_overrun hh ho).imp_right .inr
    · exact (hostStep_overrun (s := { s with schedule := rest }) hh ho).imp_right .inr
    · exact .inl ((engineStep_overrun (s := { s with schedule := rest }) he).trans ho)
    · exact .inr (.inl ⟨rest, hr⟩)
  · obtain ⟨⟨-, -, -, -, hover⟩, -, -⟩ := exec_frame hx
    exact hover

/-! ### The interrupt (60_exceptions.md R164) -/

theorem irq_of_done_false {s : State} (h : s.done = false) : irq s = false := by
  rw [irq_eq, h, Bool.false_and]

/-- Settles O53: completion sets DONE and leaves IRQ_EN; the other events set or clear one of the two. -/
theorem interruptIsTheLevelOfDoneAndEnable : Obligations.InterruptIsTheLevelOfDoneAndEnable := by
  refine ⟨fun _ => rfl, fun i s t hx => ?_, fun s t v h => ?_, fun s t v hv h => ?_, fun s t w hb h => ?_,
    fun _ => ⟨rfl, rfl, rfl⟩⟩
  · obtain ⟨⟨-, -, hdone, -, -⟩, ⟨-, -, -, -, -, hirqEn, -, -⟩, -⟩ := exec_frame hx
    rw [irq_eq, hdone, hirqEn, Bool.true_and]
  · cases h
    exact ⟨rfl, rfl⟩
  · cases h
    have hdone : (writeStatus v s).done = false := by rw [writeStatus_done, hv, Bool.not_true, Bool.and_false]
    exact ⟨hdone, irq_of_done_false hdone⟩
  · obtain ⟨hbusy, -⟩ | ⟨-, -, rfl⟩ := submit_next h
    · simp [hb] at hbusy
    · exact ⟨rfl, rfl⟩

end Sys2Proof.Machine

/-! PROOFS. The family 70_reset_and_hazards.md: RESET and the abort of a command, the ordering of the host's writes before a
command, and the end of a run. -/

namespace Sys2Proof.Machine

/-! ### The RESET event (70_reset_and_hazards.md R166) -/

/-- Settles O59: nothing is listed in memory, no N is configured, and no command is active or marked. -/
theorem resetMeetsTheInvariant : Obligations.ResetMeetsTheInvariant :=
  ⟨rfl, rfl, ⟨rfl, rfl⟩, ⟨rfl, nofun⟩, nofun, nofun⟩

theorem step_of_reset_turn {s : State} {rest : List Turn} (hs : s.schedule = .reset :: rest) :
    step s = .next (applyReset { s with schedule := rest }) := by
  unfold step
  rw [hs]

theorem readReg_applyReset (s : State) (r : Reg) :
    readReg (applyReset s) r = readReg { State.reset with params := s.params } r := by
  cases r <;> rfl

theorem State.LifecycleOk.active_of_idle {s : State} (h : s.LifecycleOk) (hb : s.busy = false) : s.active = none := by
  obtain ⟨hactive, -⟩ := h
  rwa [hactive, Option.isSome_eq_false_iff, Option.isNone_iff_eq_none] at hb

/-- RESET leaves memory when no active word is that of a buffer command under a configured N (log entry 5). -/
theorem abortMem_of_no_buffer_command {s : State}
    (h : ∀ a i, s.active = some a → decode a.word = .ok i → i = .config ∨ s.configured = false) :
    abortMem s = s.mem := by
  cases hr : abortedRegions s with
  | none => exact (abort_none hr).1
  | some r =>
    obtain ⟨a, i, ha, hi, hconf, hne, -⟩ := abortedRegions_some.mp hr
    obtain hcfg | hunconf := h a i ha hi
    · exact absurd hcfg hne
    · simp [hconf] at hunconf

/-- RESET leaves memory outside the destination used region of the active command (70_reset_and_hazards.md R167). -/
theorem abortMem_sameOutside {s : State} {a : Active} {i : Instr} (hm : memWf s.mem = true) (ha : s.active = some a)
    (hi : decode a.word = .ok i) :
    SameOutside a.op.dstAddr.toNat (a.op.dstAddr.toNat + 4 * (usedWords i s.cfgN.toNat).2) s.mem (abortMem s) := by
  intro x hout
  by_contra hx
  obtain ⟨b, j, hw⟩ := abortMem_changes hm hx
  cases ha.symm.trans hw.active
  cases hi.symm.trans hw.word
  exact hout (regionHas_iff.mp hw.dst)

/-- Settles O8: the registers are those of the reset state, and memory is what the abort leaves. -/
theorem resetEventClearsTheMachine : Obligations.ResetEventClearsTheMachine := by
  intro s rest ⟨hm, _, _, hlife, _, _⟩ hs
  refine ⟨_, step_of_reset_turn hs, readReg_applyReset _, rfl, rfl, rfl, fun hb => ?_, fun h => ?_, fun a i ha hi => ?_⟩
  · have hnone := hlife.active_of_idle hb
    exact abortMem_of_no_buffer_command (s := { s with schedule := rest }) fun a i ha => by simp [hnone] at ha
  · exact abortMem_of_no_buffer_command (s := { s with schedule := rest }) h
  · exact abortMem_sameOutside (s := { s with schedule := rest }) hm ha hi

/-! ### The abort of a buffer command (70_reset_and_hazards.md R167) -/

section
variable {src dst : Region} {count k : Nat} {m : List Host.Cell}

/-- An abort keeps no byte of the address space that lies outside a distinct source. -/
theorem abortKeeps_eq_false {x : Nat} (hx : x < 2 ^ 32)
    (hs : src.base = dst.base ∨ ¬(src.base ≤ x ∧ x < src.base + src.size)) : abortKeeps src dst x = false := by
  rw [← regionHas_iff] at hs
  unfold abortKeeps
  rw [decide_eq_false (Nat.not_le.mpr hx), Bool.false_or]
  obtain heq | hout := hs
  · simp [heq]
  · simp [hout]

/-- Byte b of word k of the destination is byte b of the k-th free value drawn. -/
theorem readByte_scramble_free {b : Nat} (hm : memWf m = true) (hb : b < 4) (hk : 4 * k + b < dst.size)
    (hkeep : abortKeeps src dst (dst.base + 4 * k + b) = false) :
    readByte (scramble src dst count m) (dst.base + 4 * k + b) = byteOf (Config.freeWord (count + k)) b := by
  have hin : regionHas dst (dst.base + 4 * k + b) = true := regionHas_iff.mpr (by omega)
  have hword : (dst.base + 4 * k + b - dst.base) / 4 = k := by omega
  have hbyte : (dst.base + 4 * k + b - dst.base) % 4 = b := by omega
  rw [(scramble_spec hm).2, if_pos ⟨hin, hkeep⟩, hword, hbyte]

/-- A word reads as the value whose four bytes stand at its address. -/
theorem readWord_of_bytes {a : Nat} {v : Word} (h : ∀ b, b < 4 → readByte m (a + b) = byteOf v b) :
    readWord m a = v := by
  unfold readWord
  rw [h 3 (by omega), h 2 (by omega), h 1 (by omega), show readByte m a = byteOf v 0 from h 0 (by omega)]
  exact bytes_append v

end

/-- Settles O9: the words of the destination are the draws of `scramble`, which keeps the bytes of a distinct source. -/
theorem abortLeavesFreeWordsAndTheSource : Obligations.AbortLeavesFreeWordsAndTheSource := by
  intro s a i ⟨hm, hp, hc, _, _, _⟩ ha hi hne hconf sa da su du
  obtain ⟨hmem, hcount⟩ := abort_some (abortedRegions_some.mpr ⟨a, i, ha, hi, hconf, hne, rfl⟩)
  rw [applyReset_mem, applyReset_freeCount, hmem, hcount]
  have hfree (k b : Nat) (hk : k < du) (hb : b < 4) (htop : da + 4 * k + b < 2 ^ 32)
      (hs : sa = da ∨ ¬(sa ≤ da + 4 * k + b ∧ da + 4 * k + b < sa + 4 * su)) :=
    readByte_scramble_free (count := s.freeCount) (dst := (usedRegions s.cfgN.toNat i a.op).2) hm hb
      (show 4 * k + b < 4 * du by omega) (abortKeeps_eq_false (src := (usedRegions s.cfgN.toNat i a.op).1) htop hs)
  refine ⟨hfree, fun hck k hk => ?_, ?_, fun hsd x hlo hhi => ?_⟩
  · obtain ⟨-, -, hfits⟩ := checksMet_fits hck hp hc
    obtain ⟨-, -, -, -, hplace⟩ := hck
    change da + 4 * du ≤ 2 ^ 32 at hfits
    change InPlaceOrDisjoint sa su da du at hplace
    exact readWord_of_bytes fun b hb => hfree k b hk hb (by omega) (hplace.imp_right (by omega))
  · exact congrArg (s.freeCount + ·) (Nat.mul_div_cancel_left du four_pos)
  · exact scramble_source hm hsd (regionHas_iff.mpr ⟨hlo, hhi⟩)

/-! ### The order of the host's writes before a command (70_reset_and_hazards.md R171) -/

section
variable {s : State} {w : Word} {src dst : Region} {h : HostWrite}

theorem submit_of_owed (hb : s.busy = false) (ho : orderingOwed s w = true) : submit w s = .fault .missingOrdering := by
  unfold submit
  rw [if_neg (by simp [hb]), if_pos ho]

/-- A pending write that the engine may not see keeps a command over its bytes from being accepted. -/
theorem submit_of_blocks (hb : s.busy = false) (hr : commandRegions s w (snapshot s) = some (src, dst))
    (hmem : h ∈ s.hostWrites) (hblocks : h.blocks src dst = true) : submit w s = .fault .missingOrdering := by
  refine submit_of_owed hb ?_
  unfold orderingOwed
  rw [hr]
  exact List.any_eq_true.mpr ⟨h, hmem, hblocks⟩

/-- With no pending write an idle machine accepts any word. -/
theorem submit_of_no_writes (hb : s.busy = false) (hw : s.hostWrites = []) : submit w s = .next (accept w s) := by
  refine submit_of_idle hb ?_
  unfold orderingOwed
  rw [hw]
  cases commandRegions s w (snapshot s) <;> rfl

theorem HostWrite.blocks_of_source (hs : regionsMeet h.region src = true) : h.blocks src dst = true := by
  simp [blocks, hs]

theorem HostWrite.blocks_of_unfenced (hd : regionsMeet h.region dst = true) (hf : h.fenced = false) :
    h.blocks src dst = true := by
  simp [blocks, hd, hf]

/-- Without coherence a fence leaves pending what no clean has followed. -/
theorem mem_hostFence_hostWrites (hmem : h ∈ s.hostWrites) (hc : s.params.coherent = false)
    (hclean : h.cleaned = false) : { h with fenced := true } ∈ (hostFence s).hostWrites :=
  List.mem_map_of_mem (List.mem_filter.mpr ⟨hmem, by simp [hc, hclean]⟩)

/-- A fence performs every pending write that is cleaned or, with coherence, any. -/
theorem hostFence_hostWrites_eq_nil (hall : ∀ x ∈ s.hostWrites, s.params.coherent = true ∨ x.cleaned = true) :
    (hostFence s).hostWrites = [] := by
  refine List.map_eq_nil_iff.mpr (List.filter_eq_nil_iff.mpr fun x hx => ?_)
  obtain hc | hclean := hall x hx
  · simp [hc]
  · simp [hclean]

theorem cleaned_of_mem_hostCacheClean (hmem : h ∈ (hostCacheClean s).hostWrites) : h.cleaned = true := by
  obtain ⟨x, -, rfl⟩ := List.mem_map.mp hmem
  rfl

end

/-- Settles O55: a write stays pending until a fence finds it cleaned, or the platform coherent. -/
theorem inputWritesMustBeFencedBeforeCmd : Obligations.InputWritesMustBeFencedBeforeCmd := by
  refine ⟨fun s w src dst h hb hr hmem => ⟨fun hs => ?_, fun hd hf => ?_, fun hc hclean hs => ?_⟩,
    fun s w hb => ⟨fun hc => ?_, ?_⟩⟩
  · exact submit_of_blocks hb hr hmem (HostWrite.blocks_of_source hs)
  · exact submit_of_blocks hb hr hmem (HostWrite.blocks_of_unfenced hd hf)
  · have hfence := mem_hostFence_hostWrites hmem hc hclean
    exact ⟨submit_of_blocks (s := hostFence s) hb hr hfence (HostWrite.blocks_of_source hs),
      submit_of_blocks (s := hostCacheClean (hostFence s)) hb hr (List.mem_map_of_mem hfence)
        (HostWrite.blocks_of_source hs)⟩
  · exact submit_of_no_writes hb (hostFence_hostWrites_eq_nil fun _ _ => .inl hc)
  · exact submit_of_no_writes hb
      (hostFence_hostWrites_eq_nil fun _ hx => .inr (cleaned_of_mem_hostCacheClean hx))

/-! ### The end of a run (70_reset_and_hazards.md R174, R175) -/

section
variable {s : State} {rest : List Turn}

theorem hostStep_of_no_program (hp : s.program = []) : hostStep s = .next s := by
  unfold hostStep
  rw [hp]

theorem engineStep_of_idle (hb : s.busy = false) : engineStep s = .next s := by
  unfold engineStep
  rw [if_pos hb]

/-- When the schedule is used up and the engine is idle the host moves. -/
theorem step_of_idle (hs : s.schedule = []) (hb : s.busy = false) : step s = hostStep s := by
  unfold step
  rw [hs]
  exact if_neg (by simp [hb])

theorem step_of_host_turn (hs : s.schedule = .host :: rest) : step s = hostStep { s with schedule := rest } := by
  unfold step
  rw [hs]

end

/-- Settles O60, by whose turn it is. -/
theorem anEndedRunStaysEnded : Obligations.AnEndedRunStaysEnded := by
  intro s ⟨hp, hb⟩
  refine ⟨fun hs => (step_of_idle hs hb).trans (hostStep_of_no_program hp), fun turn rest hs hne => ?_⟩
  cases turn with
  | host => exact (step_of_host_turn hs).trans (hostStep_of_no_program (s := { s with schedule := rest }) hp)
  | engine => exact (step_of_engine_turn hs).trans (engineStep_of_idle (s := { s with schedule := rest }) hb)
  | reset => exact absurd rfl hne

end Sys2Proof.Machine
